-- ==== Sys2Proof/Word.lean ====
section
/-! DEFINITION. The plain value types of 00_scope.md rules R8 and R9: bytes, event-flag vectors, dispatch words and
session handles. Bits are numbered from 0 at the least significant end (rule R8), as `BitVec` numbers them. -/

namespace Sys2Proof

/-- `Byte`: 8-bit unsigned (rule R9, rule R56: no value wider than a byte is ever moved). -/
abbrev Byte := BitVec 8

/-- `flags[5:0]`: the six prioritised event flags, bit 0 = NACK up to bit 5 = STOP (rule R72). -/
abbrev FlagVec := BitVec 6

/-- `DW[9:0] = status[3:0] ++ flags[5:0]` (rule R73). -/
abbrev DispatchWord := BitVec 10

/-- A session handle, which is the peripheral identifier (rule R21, rule R152). The identifier named `I2Cn` by the
spec is the number `n`: notes/assumptions/2.md, DESIGN CHOICE. -/
abbrev Handle := Nat

/-- The one identifier the spec names, `I2C1` (rule R7). -/
abbrev i2c1 : Handle := 1

end Sys2Proof
end

