-- ==== Sys2Proof/Config.lean ====
section
/-! DEFINITION. What an implementation fixes (the open parameters of 00_scope.md rule R7 and 92_eei_decisions.md) and
the free values of this model: constants without a body, so that nothing can be proved of them. -/

namespace Sys2Proof

/-- The open parameters. A state carries them in the field `params`, which no operation writes, so that a statement
about every state is a statement about every choice of them: notes/assumptions/3.md. -/
structure Params where
  /-- `P_PERIPH_IDS`: the finite set of identifiers valid for the target (rule R7, rule R59). -/
  periphIds      : List Handle
  /-- `P_CNT_W`: the width of counters and sizes; `none` is unbounded (rule R7, decision D21). -/
  cntWidth       : Option Nat
  /-- `P_BUS_PERIOD`: the value of `busPeriodLength` (rule R24). -/
  busPeriod      : Nat
  /-- `P_NACK_MASTER_STOP`: whether a master-side NACK abort also issues Stop and re-enables clock stretching
  (rule R196, decision D11). -/
  nackMasterStop : Bool
  /-- `P_CROSS_NEST`: whether handlers of different peripherals nest (rule R7, decision D28). No rule depends on it
  (20_memory.md rule R65) and no definition reads it: a handler that is not held is one step, and while one is held "no
  operation of any session on the core proceeds" (decision D23). notes/assumptions/21.md. -/
  crossNest      : Bool
  deriving DecidableEq, Repr

/-- The defaults of 92_eei_decisions.md, section "Open parameters in one list". `P_BUS_PERIOD` and
`P_CROSS_NEST` have no default there; they are 0 and false here and no rule reads them. notes/assumptions/3.md, DESIGN
CHOICE. -/
def Params.default : Params :=
  { periphIds := [i2c1], cntWidth := none, busPeriod := 0, nackMasterStop := false,
    crossNest := false }

/-- `draw Byte` (00_scope.md rule R10): an unspecified byte, one for each value of the draw counter. A free value:
notes/assumptions/10.md. -/
opaque Config.freeByte : Nat → Byte

/-- An unspecified natural number, one for each value of the draw counter (rule R9). A free value:
notes/assumptions/10.md. -/
opaque Config.freeNat : Nat → Nat

end Sys2Proof
end

