-- ==== Sys2Proof/Syntax.lean ====
section
/-! DEFINITION. The operations of the block as abstract syntax (30_encoding.md rule R70): one constructor of `Instr`
for each of the 62 rows of spec/opcode_table.json, and the raw operation words the decoder reads. -/

namespace Sys2Proof

/-- The nine statuses, in the source's listing order (10_state.md rule R22, 30_encoding.md rule R71). -/
inductive Status where
  /-- `Idle`, code 0. -/
  | idle
  /-- `MTX_StartSent`, code 1. -/
  | mtxStartSent
  /-- `MTX_AddrAcked`, code 2. -/
  | mtxAddrAcked
  /-- `MTX`, code 3. -/
  | mtx
  /-- `SRX`, code 4. -/
  | srx
  /-- `MRX_StartSent`, code 5. -/
  | mrxStartSent
  /-- `MRX_AddrAcked`, code 6. -/
  | mrxAddrAcked
  /-- `MRX`, code 7. -/
  | mrx
  /-- `STX`, code 8. -/
  | stx
  deriving DecidableEq, Repr

/-- The six events the engine dispatches on, highest priority first (10_state.md rule R32, 30_encoding.md rule R72). -/
inductive Event where
  /-- `NACK`, flag bit 0. -/
  | nack
  /-- `RX`, flag bit 1. -/
  | rx
  /-- `SB`, flag bit 2. -/
  | sb
  /-- `ADDR`, flag bit 3. -/
  | addr
  /-- `TXE`, flag bit 4. -/
  | txe
  /-- `STOP`, flag bit 5. -/
  | stop
  deriving DecidableEq, Repr

/-- The four nullable completion callbacks of a session (10_state.md rule R29). A handle is a number; `none` is null. -/
structure Callbacks where
  onSlaveReceive       : Option Nat
  onMasterTransmitDone : Option Nat
  onSlaveTransmitDone  : Option Nat
  onMasterReceiveDone  : Option Nat
  deriving DecidableEq, Repr

/-- The names of the four callbacks, as they stand in a trace item `CB(X)` (00_scope.md rule R12). -/
inductive CallbackName where
  | onSlaveReceive | onMasterTransmitDone | onSlaveTransmitDone | onMasterReceiveDone
  deriving DecidableEq, Repr

/-- The operands carried beside a command code: typed values without bit positions (30_encoding.md rule R75,
rule R77). One constructor per operand form. -/
inductive Operands where
  /-- `peripheralId`, `ringCapacity`, `callbacks`: CreateSession. -/
  | create (id : Handle) (ringCapacity : Nat) (callbacks : Callbacks)
  /-- `handle`: DestroySession, Pop, OnInterrupt. -/
  | handle (h : Handle)
  /-- `handle`, `address7`, `bytes`: MasterTransmit. -/
  | transmit (h : Handle) (address7 : Nat) (bytes : List Byte)
  /-- `handle`, `address7`, `size`: MasterReceive. -/
  | receive (h : Handle) (address7 : Nat) (size : Nat)
  /-- `handle`, `bytes | unset`: SetSlaveTransmitBuffer. -/
  | buffer (h : Handle) (bytes : Option (List Byte))
  deriving DecidableEq, Repr

/-- A word of format CMD: the 3-bit code and the operands beside it (rule R75). -/
structure CmdWord where
  code     : BitVec 3
  operands : Operands
  deriving DecidableEq, Repr

/-- A raw operation of either format (rule R70). A dispatch word carries beside it the handle of the session it acts
on, which is the operand of the OnInterrupt invocation that formed it (rule R100). -/
inductive RawOp where
  | cmd (w : CmdWord)
  | dsp (h : Handle) (dw : DispatchWord)
  deriving DecidableEq, Repr

/-- Why a raw operation is not one of the table's. -/
inductive DecodeError where
  /-- Command code 7 names no command (rule R80). -/
  | reservedCommand
  /-- The operands beside the code are not of the code's form (rule R75). -/
  | operandForm
  /-- `address7` is 128 or more (rule R76: not representable, refused). -/
  | addressNotSevenBits
  /-- `DW[9:6] > 8` is no status (rule R79: refused). -/
  | notAStatus
  deriving DecidableEq, Repr

/-- The operations of the block: the seven commands of rule R75 (format CMD), then the dispatches of format DSP in the
table's order. Every dispatch carries the handle of its session. `address7` is a number here because a host may ask
for a value of 128 or more, which is ill-formed (WellFormed.lean) and refused (rule R76). -/
inductive Instr where
  /-- `CreateSession`: match 0x0, mask 0x7, rule R150. -/
  | createSession (id : Handle) (ringCapacity : Nat) (callbacks : Callbacks)
  /-- `DestroySession`: match 0x1, mask 0x7, rule R151. -/
  | destroySession (h : Handle)
  /-- `MasterTransmit`: match 0x2, mask 0x7, rule R110. -/
  | masterTransmit (h : Handle) (address7 : Nat) (bytes : List Byte)
  /-- `MasterReceive`: match 0x3, mask 0x7, rule R120. -/
  | masterReceive (h : Handle) (address7 : Nat) (size : Nat)
  /-- `Pop`: match 0x4, mask 0x7, rule R91. -/
  | pop (h : Handle)
  /-- `OnInterrupt`: match 0x5, mask 0x7, rule R100. -/
  | onInterrupt (h : Handle)
  /-- `SetSlaveTransmitBuffer`: match 0x6, mask 0x7, rule R134. -/
  | setSlaveTransmitBuffer (h : Handle) (bytes : Option (List Byte))
  /-- `IRQ.NONE`: match 0x000, mask 0x03F, rule R102. -/
  | irqNone (h : Handle)
  /-- `X.NACK.Idle`: match 0x001, mask 0x3C1, rule R103. -/
  | xNackIdle (h : Handle)
  /-- `X.RX.Idle`: match 0x002, mask 0x3C3, rule R103. -/
  | xRxIdle (h : Handle)
  /-- `X.SB.Idle`: match 0x004, mask 0x3C7, rule R103. -/
  | xSbIdle (h : Handle)
  /-- `ADDR.Idle`: match 0x008, mask 0x3CF, rule R130. -/
  | addrIdle (h : Handle)
  /-- `X.TXE.Idle`: match 0x010, mask 0x3DF, rule R103. -/
  | xTxeIdle (h : Handle)
  /-- `X.STOP.Idle`: match 0x020, mask 0x3FF, rule R103. -/
  | xStopIdle (h : Handle)
  /-- `NACK.MTX_StartSent`: match 0x041, mask 0x3C1, rule R142. -/
  | nackMtxStartSent (h : Handle)
  /-- `X.RX.MTX_StartSent`: match 0x042, mask 0x3C3, rule R103. -/
  | xRxMtxStartSent (h : Handle)
  /-- `SB.MTX_StartSent`: match 0x044, mask 0x3C7, rule R111. -/
  | sbMtxStartSent (h : Handle)
  /-- `X.ADDR.MTX_StartSent`: match 0x048, mask 0x3CF, rule R103. -/
  | xAddrMtxStartSent (h : Handle)
  /-- `X.TXE.MTX_StartSent`: match 0x050, mask 0x3DF, rule R103. -/
  | xTxeMtxStartSent (h : Handle)
  /-- `X.STOP.MTX_StartSent`: match 0x060, mask 0x3FF, rule R103. -/
  | xStopMtxStartSent (h : Handle)
  /-- `NACK.MTX_AddrAcked`: match 0x081, mask 0x3C1, rule R143. -/
  | nackMtxAddrAcked (h : Handle)
  /-- `X.RX.MTX_AddrAcked`: match 0x082, mask 0x3C3, rule R103. -/
  | xRxMtxAddrAcked (h : Handle)
  /-- `X.SB.MTX_AddrAcked`: match 0x084, mask 0x3C7, rule R103. -/
  | xSbMtxAddrAcked (h : Handle)
  /-- `ADDR.MTX_AddrAcked`: match 0x088, mask 0x3CF, rule R112. -/
  | addrMtxAddrAcked (h : Handle)
  /-- `X.TXE.MTX_AddrAcked`: match 0x090, mask 0x3DF, rule R103. -/
  | xTxeMtxAddrAcked (h : Handle)
  /-- `X.STOP.MTX_AddrAcked`: match 0x0A0, mask 0x3FF, rule R103. -/
  | xStopMtxAddrAcked (h : Handle)
  /-- `NACK.MTX`: match 0x0C1, mask 0x3C1, rule R144. -/
  | nackMtx (h : Handle)
  /-- `X.RX.MTX`: match 0x0C2, mask 0x3C3, rule R103. -/
  | xRxMtx (h : Handle)
  /-- `X.SB.MTX`: match 0x0C4, mask 0x3C7, rule R103. -/
  | xSbMtx (h : Handle)
  /-- `X.ADDR.MTX`: match 0x0C8, mask 0x3CF, rule R103. -/
  | xAddrMtx (h : Handle)
  /-- `TXE.MTX`: match 0x0D0, mask 0x3DF, rule R113. -/
  | txeMtx (h : Handle)
  /-- `X.STOP.MTX`: match 0x0E0, mask 0x3FF, rule R103. -/
  | xStopMtx (h : Handle)
  /-- `X.NACK.SRX`: match 0x101, mask 0x3C1, rule R103. -/
  | xNackSrx (h : Handle)
  /-- `RX.SRX`: match 0x102, mask 0x3C3, rule R131. -/
  | rxSrx (h : Handle)
  /-- `X.SB.SRX`: match 0x104, mask 0x3C7, rule R103. -/
  | xSbSrx (h : Handle)
  /-- `X.ADDR.SRX`: match 0x108, mask 0x3CF, rule R103. -/
  | xAddrSrx (h : Handle)
  /-- `X.TXE.SRX`: match 0x110, mask 0x3DF, rule R103. -/
  | xTxeSrx (h : Handle)
  /-- `STOP.SRX`: match 0x120, mask 0x3FF, rule R132. -/
  | stopSrx (h : Handle)
  /-- `NACK.MRX_StartSent`: match 0x141, mask 0x3C1, rule R145. -/
  | nackMrxStartSent (h : Handle)
  /-- `X.RX.MRX_StartSent`: match 0x142, mask 0x3C3, rule R103. -/
  | xRxMrxStartSent (h : Handle)
  /-- `SB.MRX_StartSent`: match 0x144, mask 0x3C7, rule R121. -/
  | sbMrxStartSent (h : Handle)
  /-- `X.ADDR.MRX_StartSent`: match 0x148, mask 0x3CF, rule R103. -/
  | xAddrMrxStartSent (h : Handle)
  /-- `X.TXE.MRX_StartSent`: match 0x150, mask 0x3DF, rule R103. -/
  | xTxeMrxStartSent (h : Handle)
  /-- `X.STOP.MRX_StartSent`: match 0x160, mask 0x3FF, rule R103. -/
  | xStopMrxStartSent (h : Handle)
  /-- `NACK.MRX_AddrAcked`: match 0x181, mask 0x3C1, rule R146. -/
  | nackMrxAddrAcked (h : Handle)
  /-- `X.RX.MRX_AddrAcked`: match 0x182, mask 0x3C3, rule R103. -/
  | xRxMrxAddrAcked (h : Handle)
  /-- `X.SB.MRX_AddrAcked`: match 0x184, mask 0x3C7, rule R103. -/
  | xSbMrxAddrAcked (h : Handle)
  /-- `ADDR.MRX_AddrAcked`: match 0x188, mask 0x3CF, rule R122. -/
  | addrMrxAddrAcked (h : Handle)
  /-- `X.TXE.MRX_AddrAcked`: match 0x190, mask 0x3DF, rule R103. -/
  | xTxeMrxAddrAcked (h : Handle)
  /-- `X.STOP.MRX_AddrAcked`: match 0x1A0, mask 0x3FF, rule R103. -/
  | xStopMrxAddrAcked (h : Handle)
  /-- `NACK.MRX`: match 0x1C1, mask 0x3C1, rule R147. -/
  | nackMrx (h : Handle)
  /-- `RX.MRX`: match 0x1C2, mask 0x3C3, rule R123. -/
  | rxMrx (h : Handle)
  /-- `X.SB.MRX`: match 0x1C4, mask 0x3C7, rule R103. -/
  | xSbMrx (h : Handle)
  /-- `X.ADDR.MRX`: match 0x1C8, mask 0x3CF, rule R103. -/
  | xAddrMrx (h : Handle)
  /-- `X.TXE.MRX`: match 0x1D0, mask 0x3DF, rule R103. -/
  | xTxeMrx (h : Handle)
  /-- `X.STOP.MRX`: match 0x1E0, mask 0x3FF, rule R103. -/
  | xStopMrx (h : Handle)
  /-- `NACK.STX`: match 0x201, mask 0x3C1, rule R141. -/
  | nackStx (h : Handle)
  /-- `X.RX.STX`: match 0x202, mask 0x3C3, rule R103. -/
  | xRxStx (h : Handle)
  /-- `X.SB.STX`: match 0x204, mask 0x3C7, rule R103. -/
  | xSbStx (h : Handle)
  /-- `X.ADDR.STX`: match 0x208, mask 0x3CF, rule R103. -/
  | xAddrStx (h : Handle)
  /-- `TXE.STX`: match 0x210, mask 0x3DF, rule R133. -/
  | txeStx (h : Handle)
  /-- `X.STOP.STX`: match 0x220, mask 0x3FF, rule R103. -/
  | xStopStx (h : Handle)
  deriving DecidableEq, Repr

end Sys2Proof
end

