-- ==== Sys2Proof/WellFormed.lean ====
section
/-! DEFINITION. Well-formed operations: the address operand is 7 bits (30_encoding.md rule R76). Everything else an
operation carries has every value of its type: capacity 0 and unknown identifiers are the business of CreateSession
(46_session_registry.md rule R150), not of its form. -/

namespace Sys2Proof

/-- `Addr7`: 0 to 127 (00_scope.md rule R9). -/
def fitsAddr7 (address7 : Nat) : Bool := decide (address7 < 128)

/-- An operation whose operands are representable. -/
def Instr.wellFormed : Instr → Bool
  | .createSession _ _ _ => true
  | .destroySession _ => true
  | .masterTransmit _ address7 _ => fitsAddr7 address7
  | .masterReceive _ address7 _ => fitsAddr7 address7
  | .pop _ => true
  | .onInterrupt _ => true
  | .setSlaveTransmitBuffer _ _ => true
  | .irqNone _ => true
  | .xNackIdle _ => true
  | .xRxIdle _ => true
  | .xSbIdle _ => true
  | .addrIdle _ => true
  | .xTxeIdle _ => true
  | .xStopIdle _ => true
  | .nackMtxStartSent _ => true
  | .xRxMtxStartSent _ => true
  | .sbMtxStartSent _ => true
  | .xAddrMtxStartSent _ => true
  | .xTxeMtxStartSent _ => true
  | .xStopMtxStartSent _ => true
  | .nackMtxAddrAcked _ => true
  | .xRxMtxAddrAcked _ => true
  | .xSbMtxAddrAcked _ => true
  | .addrMtxAddrAcked _ => true
  | .xTxeMtxAddrAcked _ => true
  | .xStopMtxAddrAcked _ => true
  | .nackMtx _ => true
  | .xRxMtx _ => true
  | .xSbMtx _ => true
  | .xAddrMtx _ => true
  | .txeMtx _ => true
  | .xStopMtx _ => true
  | .xNackSrx _ => true
  | .rxSrx _ => true
  | .xSbSrx _ => true
  | .xAddrSrx _ => true
  | .xTxeSrx _ => true
  | .stopSrx _ => true
  | .nackMrxStartSent _ => true
  | .xRxMrxStartSent _ => true
  | .sbMrxStartSent _ => true
  | .xAddrMrxStartSent _ => true
  | .xTxeMrxStartSent _ => true
  | .xStopMrxStartSent _ => true
  | .nackMrxAddrAcked _ => true
  | .xRxMrxAddrAcked _ => true
  | .xSbMrxAddrAcked _ => true
  | .addrMrxAddrAcked _ => true
  | .xTxeMrxAddrAcked _ => true
  | .xStopMrxAddrAcked _ => true
  | .nackMrx _ => true
  | .rxMrx _ => true
  | .xSbMrx _ => true
  | .xAddrMrx _ => true
  | .xTxeMrx _ => true
  | .xStopMrx _ => true
  | .nackStx _ => true
  | .xRxStx _ => true
  | .xSbStx _ => true
  | .xAddrStx _ => true
  | .txeStx _ => true
  | .xStopStx _ => true

end Sys2Proof
end

