-- ==== Sys2Proof/Decode.lean ====
section
/-! DEFINITION. The decoder of 30_encoding.md: status codes (rule R71), flag bits (rule R72), the dispatch word
(rule R73), event selection (rule R74), command codes (rule R75), refusals by name (rules R76, R79, R80); and, after
it, the encoder, written from the `match` column of spec/opcode_table.json. The spec gives operands no bit positions
(rule R75), so a raw operation is its code word with typed operands beside it: notes/assumptions/1.md. -/

namespace Sys2Proof

/-- The 4-bit code of a status (rule R71). -/
def Status.code : Status → BitVec 4
  | .idle => 0#4
  | .mtxStartSent => 1#4
  | .mtxAddrAcked => 2#4
  | .mtx => 3#4
  | .srx => 4#4
  | .mrxStartSent => 5#4
  | .mrxAddrAcked => 6#4
  | .mrx => 7#4
  | .stx => 8#4

/-- The status with a given code; codes 9 to 15 are not statuses (rule R79). -/
def statusOfCode : Nat → Option Status
  | 0 => some .idle
  | 1 => some .mtxStartSent
  | 2 => some .mtxAddrAcked
  | 3 => some .mtx
  | 4 => some .srx
  | 5 => some .mrxStartSent
  | 6 => some .mrxAddrAcked
  | 7 => some .mrx
  | 8 => some .stx
  | _ => none

/-- The flag bit that reports an event (rule R72). -/
def Event.bit : Event → Nat
  | .nack => 0
  | .rx => 1
  | .sb => 2
  | .addr => 3
  | .txe => 4
  | .stop => 5

/-- The flag vector in which exactly the event's own flag is set (rule R85). -/
def Event.only : Event → FlagVec
  | .nack => 0b000001#6
  | .rx => 0b000010#6
  | .sb => 0b000100#6
  | .addr => 0b001000#6
  | .txe => 0b010000#6
  | .stop => 0b100000#6

/-- `DW[9:0] = status[3:0] ++ flags[5:0]` (rule R73). -/
def dispatchWord (st : Status) (flags : FlagVec) : DispatchWord := st.code ++ flags

/-- First match wins, in the order NACK, RX, SB, ADDR, TXE, STOP, whatever the status (rule R74, rule R101). -/
def selectEvent (flags : FlagVec) : Option Event :=
  if flags.getLsbD 0 then some .nack
  else if flags.getLsbD 1 then some .rx
  else if flags.getLsbD 2 then some .sb
  else if flags.getLsbD 3 then some .addr
  else if flags.getLsbD 4 then some .txe
  else if flags.getLsbD 5 then some .stop
  else none

/-- The dispatch `<EVENT>.<STATUS>` of the 9 by 6 grid of 30_encoding.md section 4; the pairs with no rule are the
unspecified dispatches `X.<EVENT>.<STATUS>` (rule R81). -/
def dispatchInstr (st : Status) (ev : Event) (h : Handle) : Instr :=
  match st, ev with
  | .idle, .nack => .xNackIdle h
  | .idle, .rx => .xRxIdle h
  | .idle, .sb => .xSbIdle h
  | .idle, .addr => .addrIdle h
  | .idle, .txe => .xTxeIdle h
  | .idle, .stop => .xStopIdle h
  | .mtxStartSent, .nack => .nackMtxStartSent h
  | .mtxStartSent, .rx => .xRxMtxStartSent h
  | .mtxStartSent, .sb => .sbMtxStartSent h
  | .mtxStartSent, .addr => .xAddrMtxStartSent h
  | .mtxStartSent, .txe => .xTxeMtxStartSent h
  | .mtxStartSent, .stop => .xStopMtxStartSent h
  | .mtxAddrAcked, .nack => .nackMtxAddrAcked h
  | .mtxAddrAcked, .rx => .xRxMtxAddrAcked h
  | .mtxAddrAcked, .sb => .xSbMtxAddrAcked h
  | .mtxAddrAcked, .addr => .addrMtxAddrAcked h
  | .mtxAddrAcked, .txe => .xTxeMtxAddrAcked h
  | .mtxAddrAcked, .stop => .xStopMtxAddrAcked h
  | .mtx, .nack => .nackMtx h
  | .mtx, .rx => .xRxMtx h
  | .mtx, .sb => .xSbMtx h
  | .mtx, .addr => .xAddrMtx h
  | .mtx, .txe => .txeMtx h
  | .mtx, .stop => .xStopMtx h
  | .srx, .nack => .xNackSrx h
  | .srx, .rx => .rxSrx h
  | .srx, .sb => .xSbSrx h
  | .srx, .addr => .xAddrSrx h
  | .srx, .txe => .xTxeSrx h
  | .srx, .stop => .stopSrx h
  | .mrxStartSent, .nack => .nackMrxStartSent h
  | .mrxStartSent, .rx => .xRxMrxStartSent h
  | .mrxStartSent, .sb => .sbMrxStartSent h
  | .mrxStartSent, .addr => .xAddrMrxStartSent h
  | .mrxStartSent, .txe => .xTxeMrxStartSent h
  | .mrxStartSent, .stop => .xStopMrxStartSent h
  | .mrxAddrAcked, .nack => .nackMrxAddrAcked h
  | .mrxAddrAcked, .rx => .xRxMrxAddrAcked h
  | .mrxAddrAcked, .sb => .xSbMrxAddrAcked h
  | .mrxAddrAcked, .addr => .addrMrxAddrAcked h
  | .mrxAddrAcked, .txe => .xTxeMrxAddrAcked h
  | .mrxAddrAcked, .stop => .xStopMrxAddrAcked h
  | .mrx, .nack => .nackMrx h
  | .mrx, .rx => .rxMrx h
  | .mrx, .sb => .xSbMrx h
  | .mrx, .addr => .xAddrMrx h
  | .mrx, .txe => .xTxeMrx h
  | .mrx, .stop => .xStopMrx h
  | .stx, .nack => .nackStx h
  | .stx, .rx => .xRxStx h
  | .stx, .sb => .xSbStx h
  | .stx, .addr => .xAddrStx h
  | .stx, .txe => .txeStx h
  | .stx, .stop => .xStopStx h

/-- The operation a dispatch word selects: the status in bits `[9:6]`, the selected event from bits `[5:0]`; a word
with no flag set is `IRQ.NONE` in any status (rule R74), and `DW[9:6] > 8` is refused (rule R79). -/
def decodeDispatch (h : Handle) (dw : DispatchWord) : Except DecodeError Instr :=
  match statusOfCode (dw.extractLsb' 6 4).toNat with
  | none => .error .notAStatus
  | some st =>
    match selectEvent (dw.extractLsb' 0 6) with
    | none => .ok (.irqNone h)
    | some ev => .ok (dispatchInstr st ev h)

/-- The command a CMD word names (rule R75); code 7 is reserved (rule R80), an address of 128 or more is not
representable (rule R76), and operands of another command's form are refused. -/
def decodeCommand (w : CmdWord) : Except DecodeError Instr :=
  match w.code.toNat, w.operands with
  | 0, .create id cap cbs => .ok (.createSession id cap cbs)
  | 1, .handle h => .ok (.destroySession h)
  | 2, .transmit h a bytes => if fitsAddr7 a then .ok (.masterTransmit h a bytes) else .error .addressNotSevenBits
  | 3, .receive h a size => if fitsAddr7 a then .ok (.masterReceive h a size) else .error .addressNotSevenBits
  | 4, .handle h => .ok (.pop h)
  | 5, .handle h => .ok (.onInterrupt h)
  | 6, .buffer h bytes => .ok (.setSlaveTransmitBuffer h bytes)
  | 7, _ => .error .reservedCommand
  | _, _ => .error .operandForm

/-- The decoder of both formats, total on every raw operation. -/
def decode : RawOp → Except DecodeError Instr
  | .cmd w => decodeCommand w
  | .dsp h dw => decodeDispatch h dw

/-- The encoder: the code word of the operation's row, with its operands beside it. For a dispatch it is the row's
`match`: its own flag set and no flag above it (rule R85). -/
def encode : Instr → RawOp
  | .createSession id ringCapacity callbacks => .cmd ⟨0#3, .create id ringCapacity callbacks⟩
  | .destroySession h => .cmd ⟨1#3, .handle h⟩
  | .masterTransmit h address7 bytes => .cmd ⟨2#3, .transmit h address7 bytes⟩
  | .masterReceive h address7 size => .cmd ⟨3#3, .receive h address7 size⟩
  | .pop h => .cmd ⟨4#3, .handle h⟩
  | .onInterrupt h => .cmd ⟨5#3, .handle h⟩
  | .setSlaveTransmitBuffer h bytes => .cmd ⟨6#3, .buffer h bytes⟩
  | .irqNone h => .dsp h 0x000#10
  | .xNackIdle h => .dsp h 0x001#10
  | .xRxIdle h => .dsp h 0x002#10
  | .xSbIdle h => .dsp h 0x004#10
  | .addrIdle h => .dsp h 0x008#10
  | .xTxeIdle h => .dsp h 0x010#10
  | .xStopIdle h => .dsp h 0x020#10
  | .nackMtxStartSent h => .dsp h 0x041#10
  | .xRxMtxStartSent h => .dsp h 0x042#10
  | .sbMtxStartSent h => .dsp h 0x044#10
  | .xAddrMtxStartSent h => .dsp h 0x048#10
  | .xTxeMtxStartSent h => .dsp h 0x050#10
  | .xStopMtxStartSent h => .dsp h 0x060#10
  | .nackMtxAddrAcked h => .dsp h 0x081#10
  | .xRxMtxAddrAcked h => .dsp h 0x082#10
  | .xSbMtxAddrAcked h => .dsp h 0x084#10
  | .addrMtxAddrAcked h => .dsp h 0x088#10
  | .xTxeMtxAddrAcked h => .dsp h 0x090#10
  | .xStopMtxAddrAcked h => .dsp h 0x0A0#10
  | .nackMtx h => .dsp h 0x0C1#10
  | .xRxMtx h => .dsp h 0x0C2#10
  | .xSbMtx h => .dsp h 0x0C4#10
  | .xAddrMtx h => .dsp h 0x0C8#10
  | .txeMtx h => .dsp h 0x0D0#10
  | .xStopMtx h => .dsp h 0x0E0#10
  | .xNackSrx h => .dsp h 0x101#10
  | .rxSrx h => .dsp h 0x102#10
  | .xSbSrx h => .dsp h 0x104#10
  | .xAddrSrx h => .dsp h 0x108#10
  | .xTxeSrx h => .dsp h 0x110#10
  | .stopSrx h => .dsp h 0x120#10
  | .nackMrxStartSent h => .dsp h 0x141#10
  | .xRxMrxStartSent h => .dsp h 0x142#10
  | .sbMrxStartSent h => .dsp h 0x144#10
  | .xAddrMrxStartSent h => .dsp h 0x148#10
  | .xTxeMrxStartSent h => .dsp h 0x150#10
  | .xStopMrxStartSent h => .dsp h 0x160#10
  | .nackMrxAddrAcked h => .dsp h 0x181#10
  | .xRxMrxAddrAcked h => .dsp h 0x182#10
  | .xSbMrxAddrAcked h => .dsp h 0x184#10
  | .addrMrxAddrAcked h => .dsp h 0x188#10
  | .xTxeMrxAddrAcked h => .dsp h 0x190#10
  | .xStopMrxAddrAcked h => .dsp h 0x1A0#10
  | .nackMrx h => .dsp h 0x1C1#10
  | .rxMrx h => .dsp h 0x1C2#10
  | .xSbMrx h => .dsp h 0x1C4#10
  | .xAddrMrx h => .dsp h 0x1C8#10
  | .xTxeMrx h => .dsp h 0x1D0#10
  | .xStopMrx h => .dsp h 0x1E0#10
  | .nackStx h => .dsp h 0x201#10
  | .xRxStx h => .dsp h 0x202#10
  | .xSbStx h => .dsp h 0x204#10
  | .xAddrStx h => .dsp h 0x208#10
  | .txeStx h => .dsp h 0x210#10
  | .xStopStx h => .dsp h 0x220#10

/-- The handle of the session an operation acts on; for CreateSession, the identifier it creates one for. -/
def Instr.handle : Instr → Handle
  | .createSession id _ _ => id
  | .destroySession h => h
  | .masterTransmit h _ _ => h
  | .masterReceive h _ _ => h
  | .pop h => h
  | .onInterrupt h => h
  | .setSlaveTransmitBuffer h _ => h
  | .irqNone h => h
  | .xNackIdle h => h
  | .xRxIdle h => h
  | .xSbIdle h => h
  | .addrIdle h => h
  | .xTxeIdle h => h
  | .xStopIdle h => h
  | .nackMtxStartSent h => h
  | .xRxMtxStartSent h => h
  | .sbMtxStartSent h => h
  | .xAddrMtxStartSent h => h
  | .xTxeMtxStartSent h => h
  | .xStopMtxStartSent h => h
  | .nackMtxAddrAcked h => h
  | .xRxMtxAddrAcked h => h
  | .xSbMtxAddrAcked h => h
  | .addrMtxAddrAcked h => h
  | .xTxeMtxAddrAcked h => h
  | .xStopMtxAddrAcked h => h
  | .nackMtx h => h
  | .xRxMtx h => h
  | .xSbMtx h => h
  | .xAddrMtx h => h
  | .txeMtx h => h
  | .xStopMtx h => h
  | .xNackSrx h => h
  | .rxSrx h => h
  | .xSbSrx h => h
  | .xAddrSrx h => h
  | .xTxeSrx h => h
  | .stopSrx h => h
  | .nackMrxStartSent h => h
  | .xRxMrxStartSent h => h
  | .sbMrxStartSent h => h
  | .xAddrMrxStartSent h => h
  | .xTxeMrxStartSent h => h
  | .xStopMrxStartSent h => h
  | .nackMrxAddrAcked h => h
  | .xRxMrxAddrAcked h => h
  | .xSbMrxAddrAcked h => h
  | .addrMrxAddrAcked h => h
  | .xTxeMrxAddrAcked h => h
  | .xStopMrxAddrAcked h => h
  | .nackMrx h => h
  | .rxMrx h => h
  | .xSbMrx h => h
  | .xAddrMrx h => h
  | .xTxeMrx h => h
  | .xStopMrx h => h
  | .nackStx h => h
  | .xRxStx h => h
  | .xSbStx h => h
  | .xAddrStx h => h
  | .txeStx h => h
  | .xStopStx h => h

/-- The row's `mask` in spec/opcode_table.json, by format (3 bits for CMD, 10 for DSP), as a number. -/
def Instr.tableMask : Instr → Nat
  | .createSession _ _ _ => 0x007
  | .destroySession _ => 0x007
  | .masterTransmit _ _ _ => 0x007
  | .masterReceive _ _ _ => 0x007
  | .pop _ => 0x007
  | .onInterrupt _ => 0x007
  | .setSlaveTransmitBuffer _ _ => 0x007
  | .irqNone _ => 0x03F
  | .xNackIdle _ => 0x3C1
  | .xRxIdle _ => 0x3C3
  | .xSbIdle _ => 0x3C7
  | .addrIdle _ => 0x3CF
  | .xTxeIdle _ => 0x3DF
  | .xStopIdle _ => 0x3FF
  | .nackMtxStartSent _ => 0x3C1
  | .xRxMtxStartSent _ => 0x3C3
  | .sbMtxStartSent _ => 0x3C7
  | .xAddrMtxStartSent _ => 0x3CF
  | .xTxeMtxStartSent _ => 0x3DF
  | .xStopMtxStartSent _ => 0x3FF
  | .nackMtxAddrAcked _ => 0x3C1
  | .xRxMtxAddrAcked _ => 0x3C3
  | .xSbMtxAddrAcked _ => 0x3C7
  | .addrMtxAddrAcked _ => 0x3CF
  | .xTxeMtxAddrAcked _ => 0x3DF
  | .xStopMtxAddrAcked _ => 0x3FF
  | .nackMtx _ => 0x3C1
  | .xRxMtx _ => 0x3C3
  | .xSbMtx _ => 0x3C7
  | .xAddrMtx _ => 0x3CF
  | .txeMtx _ => 0x3DF
  | .xStopMtx _ => 0x3FF
  | .xNackSrx _ => 0x3C1
  | .rxSrx _ => 0x3C3
  | .xSbSrx _ => 0x3C7
  | .xAddrSrx _ => 0x3CF
  | .xTxeSrx _ => 0x3DF
  | .stopSrx _ => 0x3FF
  | .nackMrxStartSent _ => 0x3C1
  | .xRxMrxStartSent _ => 0x3C3
  | .sbMrxStartSent _ => 0x3C7
  | .xAddrMrxStartSent _ => 0x3CF
  | .xTxeMrxStartSent _ => 0x3DF
  | .xStopMrxStartSent _ => 0x3FF
  | .nackMrxAddrAcked _ => 0x3C1
  | .xRxMrxAddrAcked _ => 0x3C3
  | .xSbMrxAddrAcked _ => 0x3C7
  | .addrMrxAddrAcked _ => 0x3CF
  | .xTxeMrxAddrAcked _ => 0x3DF
  | .xStopMrxAddrAcked _ => 0x3FF
  | .nackMrx _ => 0x3C1
  | .rxMrx _ => 0x3C3
  | .xSbMrx _ => 0x3C7
  | .xAddrMrx _ => 0x3CF
  | .xTxeMrx _ => 0x3DF
  | .xStopMrx _ => 0x3FF
  | .nackStx _ => 0x3C1
  | .xRxStx _ => 0x3C3
  | .xSbStx _ => 0x3C7
  | .xAddrStx _ => 0x3CF
  | .txeStx _ => 0x3DF
  | .xStopStx _ => 0x3FF

/-- The row's `match` in spec/opcode_table.json, as a number. -/
def Instr.tableMatch : Instr → Nat
  | .createSession _ _ _ => 0x000
  | .destroySession _ => 0x001
  | .masterTransmit _ _ _ => 0x002
  | .masterReceive _ _ _ => 0x003
  | .pop _ => 0x004
  | .onInterrupt _ => 0x005
  | .setSlaveTransmitBuffer _ _ => 0x006
  | .irqNone _ => 0x000
  | .xNackIdle _ => 0x001
  | .xRxIdle _ => 0x002
  | .xSbIdle _ => 0x004
  | .addrIdle _ => 0x008
  | .xTxeIdle _ => 0x010
  | .xStopIdle _ => 0x020
  | .nackMtxStartSent _ => 0x041
  | .xRxMtxStartSent _ => 0x042
  | .sbMtxStartSent _ => 0x044
  | .xAddrMtxStartSent _ => 0x048
  | .xTxeMtxStartSent _ => 0x050
  | .xStopMtxStartSent _ => 0x060
  | .nackMtxAddrAcked _ => 0x081
  | .xRxMtxAddrAcked _ => 0x082
  | .xSbMtxAddrAcked _ => 0x084
  | .addrMtxAddrAcked _ => 0x088
  | .xTxeMtxAddrAcked _ => 0x090
  | .xStopMtxAddrAcked _ => 0x0A0
  | .nackMtx _ => 0x0C1
  | .xRxMtx _ => 0x0C2
  | .xSbMtx _ => 0x0C4
  | .xAddrMtx _ => 0x0C8
  | .txeMtx _ => 0x0D0
  | .xStopMtx _ => 0x0E0
  | .xNackSrx _ => 0x101
  | .rxSrx _ => 0x102
  | .xSbSrx _ => 0x104
  | .xAddrSrx _ => 0x108
  | .xTxeSrx _ => 0x110
  | .stopSrx _ => 0x120
  | .nackMrxStartSent _ => 0x141
  | .xRxMrxStartSent _ => 0x142
  | .sbMrxStartSent _ => 0x144
  | .xAddrMrxStartSent _ => 0x148
  | .xTxeMrxStartSent _ => 0x150
  | .xStopMrxStartSent _ => 0x160
  | .nackMrxAddrAcked _ => 0x181
  | .xRxMrxAddrAcked _ => 0x182
  | .xSbMrxAddrAcked _ => 0x184
  | .addrMrxAddrAcked _ => 0x188
  | .xTxeMrxAddrAcked _ => 0x190
  | .xStopMrxAddrAcked _ => 0x1A0
  | .nackMrx _ => 0x1C1
  | .rxMrx _ => 0x1C2
  | .xSbMrx _ => 0x1C4
  | .xAddrMrx _ => 0x1C8
  | .xTxeMrx _ => 0x1D0
  | .xStopMrx _ => 0x1E0
  | .nackStx _ => 0x201
  | .xRxStx _ => 0x202
  | .xSbStx _ => 0x204
  | .xAddrStx _ => 0x208
  | .txeStx _ => 0x210
  | .xStopStx _ => 0x220

/-- The code word of a raw operation as a number, its format's bits numbered as the table numbers them. -/
def RawOp.bits : RawOp → Nat
  | .cmd w => w.code.toNat
  | .dsp _ dw => dw.toNat

/-- The operands supplied beside a bare command code: the identifier `I2C1`, and the least values with which the
command has its effect (capacity 1, no callbacks, address 0, one zero byte). notes/assumptions/4.md, DESIGN CHOICE. -/
def leastOperands (code : Nat) : Operands :=
  match code with
  | 0 => .create i2c1 1 ⟨none, none, none, none⟩
  | 2 => .transmit i2c1 0 [0x00#8]
  | 3 => .receive i2c1 0 1
  | 6 => .buffer i2c1 none
  | _ => .handle i2c1

/-- The raw operation whose table bits are `w`, `nbits` wide in whole bytes: the table gives a CMD row 3 bits (one
byte) and a DSP row 10 bits (two bytes), so the width tells the format. `none` where a bit outside the format is
set. -/
def rawOfTableWord (nbits w : Nat) : Option RawOp :=
  if nbits ≤ 8 then
    if w < 8 then some (.cmd ⟨BitVec.ofNat 3 w, leastOperands w⟩) else none
  else if w < 1024 then some (.dsp i2c1 (BitVec.ofNat 10 w)) else none

/-- The instruction the decoder reads from a table word (the host's fixed name). -/
def decodeTableWord (nbits w : Nat) : Option Instr :=
  match rawOfTableWord nbits w with
  | none => none
  | some raw =>
    match decode raw with
    | .ok i => some i
    | .error _ => none

end Sys2Proof
end

