-- ==== Sys2Proof/Machine/State.lean ====
section
/-! DEFINITION. The state of the block as plain data (10_state.md): the registry of sessions, the hidden core state,
what the environment presents at each peripheral's interface, the host command in progress, and the queue of inputs
the three agents supply (00_scope.md rule R6). INVENTORY.md, heading State, lists every field with its rule. -/

namespace Sys2Proof.Machine

/-- A byte space of a session (20_memory.md rule R50): cells by index, strictly rising, one entry an index. An index
that is not listed has no value: nothing has written it, or the space has no such cell. -/
abbrev Memory := List Host.Cell

/-- The four byte spaces of a session (rule R50). -/
inductive Space where
  | ring | mtx | stx | mrx
  deriving DecidableEq, Repr

/-- `ackNext`: whether the next received byte or matched address will be acknowledged (10_state.md rule R30). -/
inductive AckArm where
  | ack | nack
  deriving DecidableEq, Repr

/-- `stretch`: clock stretching (10_state.md rule R30). -/
inductive Stretch where
  | on | off
  deriving DecidableEq, Repr

/-- The items of the trace `T` (00_scope.md rule R12), one per interface command, data read or callback. -/
inductive TraceItem where
  /-- `W(b)`: `IF.writeData(b)`. -/
  | w (b : Byte)
  /-- `R(b)`: an `IF.readData()` that returned `b`. -/
  | r (b : Byte)
  /-- `START`: `IF.issueStart()`. -/
  | start
  /-- `STOP`: `IF.issueStop()`. -/
  | stop
  /-- `ACK_NEXT`: `IF.setAckNext()`. -/
  | ackNext
  /-- `NACK_NEXT`: `IF.setNackNext()`. -/
  | nackNext
  /-- `STRETCH_ON`: `IF.enableClockStretch()`. -/
  | stretchOn
  /-- `STRETCH_OFF`: `IF.disableClockStretch()`. -/
  | stretchOff
  /-- `CLR(f)`: `IF.clearFlag(f)`. -/
  | clr (f : Event)
  /-- `DIR(d)`: an `IF.direction()` that returned `d`. -/
  | dir (d : BitVec 1)
  /-- `PEN`: `IF.enablePeripheral()`. -/
  | pen
  /-- `PDIS`: `IF.disablePeripheral()`. -/
  | pdis
  /-- `CB(X)`: callback `X` was invoked. -/
  | cb (x : CallbackName)
  deriving DecidableEq, Repr

/-- A session: one record per physical peripheral instance (10_state.md rules R21 to R30 and R38). -/
structure Session where
  /-- The sequencing state, the block's program counter (rule R22). -/
  status          : Status
  /-- The address byte: 7-bit address in bits `[7:1]`, direction in bit `[0]` (rule R23). -/
  slaveAddress    : Byte
  /-- The cached timing constant; no rule reads it (rule R24). -/
  busPeriodLength : Nat
  /-- The ring's capacity, fixed at CreateSession (rule R25). -/
  ringCap         : Nat
  /-- Byte space `RING` (rule R25, rule R51). -/
  ring            : Memory
  /-- The index the next push writes (rule R25). -/
  writeIndex      : Nat
  /-- The number of unread bytes in the ring (rule R25). -/
  unreadCount     : Nat
  /-- Byte space `MTX` (rule R26, rule R52). -/
  mtxBuffer       : Memory
  /-- The size of the master transmit (rule R26). -/
  mtxSize         : Nat
  /-- The data bytes already written to the interface in this transfer (rule R26). -/
  mtxCount        : Nat
  /-- Byte space `STX`, or unset (rule R27, rule R53). -/
  stxBuffer       : Option Memory
  /-- The bytes taken from `STX` in this transfer (rule R27). -/
  stxCount        : Nat
  /-- Byte space `MRX` (rule R28, rule R54); a cell no received byte has been stored in is not listed. -/
  mrxBuffer       : Memory
  /-- The size of the master receive (rule R28). -/
  mrxSize         : Nat
  /-- The bytes already stored in this transfer (rule R28). -/
  mrxCount        : Nat
  /-- The four completion callbacks, `cb` (rule R29). -/
  callbacks       : Callbacks
  /-- Shadow control field: the ACK arm (rule R30). -/
  ackNext         : AckArm
  /-- Shadow control field: clock stretching (rule R30). -/
  stretch         : Stretch
  /-- Shadow control field: the peripheral is enabled (rule R30, rule R177). -/
  enabled         : Bool
  /-- The trace `T` of this session, oldest item first (rule R38). -/
  trace           : List TraceItem
  deriving DecidableEq, Repr

/-- What the environment presents at the Register Capability Interface of one peripheral (10_state.md rules R32 to
R35): its answers to flag queries, to `direction()` and to `readData()`. It belongs to the environment (rule R39). -/
structure Port where
  /-- The six prioritised event flags (rule R32). -/
  flags : FlagVec
  /-- The flag `TC`, transmission-complete (rule R33). -/
  tc    : Bool
  /-- The transfer-direction bit `DIR` (rule R34). -/
  dir   : BitVec 1
  /-- The data register: the byte last received (rule R35). -/
  data  : Byte
  deriving DecidableEq, Repr

/-- What a peripheral presents while the environment has presented nothing: no flag. notes/assumptions/6.md, DESIGN
CHOICE (rule R39: unknown to the block). -/
def Port.quiet : Port := { flags := 0#6, tc := false, dir := 0#1, data := 0x00#8 }

/-- `irqPhase` (10_state.md rule R36), with the handle of the session whose handler is held. -/
inductive IrqPhase where
  /-- `NotInIrq`. -/
  | notInIrq
  /-- `SpinTC`: the TXE handler in MTX of this session has written the last byte and waits for `TC` (rule R114). -/
  | spinTC (h : Handle)
  deriving DecidableEq, Repr

/-- The two execution contexts that stand for privilege modes (60_exceptions.md rule R171). -/
inductive Context where
  | application | interrupt
  deriving DecidableEq, Repr

/-- One micro-step of MasterTransmit, MasterReceive or SetSlaveTransmitBuffer (20_memory.md rule R63). -/
inductive Micro where
  /-- M1 and V1. -/
  | disableClockStretch
  /-- M2: `mtxBuffer` and `mtxSize`. -/
  | storeTransmit (bytes : List Byte)
  /-- M3: `mtxCount <- 0`. -/
  | zeroTransmitCount
  /-- V2: `mrxBuffer` and `mrxSize`. -/
  | newReceive (size : Nat)
  /-- V3: `mrxCount <- 0`. -/
  | zeroReceiveCount
  /-- M4 and V4: `slaveAddress`. -/
  | setAddress (b : Byte)
  /-- V5: `if size = 1 then IF.setNackNext()`. -/
  | preArmNack (size : Nat)
  /-- M5: `status <- MTX_StartSent`. -/
  | enterTransmit
  /-- V6: `status <- MRX_StartSent`. -/
  | enterReceive
  /-- M6 and V7. -/
  | issueStart
  /-- S1: `stxBuffer`. -/
  | storeSlaveBuffer (bytes : Option (List Byte))
  deriving DecidableEq, Repr

/-- A host command between its micro-steps: what is left of it (20_memory.md rule R63, choice (i) of decision D22). -/
inductive HostRun where
  /-- The micro-steps still to run on the session of the handle. -/
  | micros (h : Handle) (todo : List Micro)
  /-- Pop before P1. -/
  | popCount (h : Handle)
  /-- Pop before P2, with the `u` that P1 read. -/
  | popRead (h : Handle) (u : Nat)
  /-- Pop before P3, with `u` and the byte that P2 read. -/
  | popFinish (h : Handle) (u : Nat) (b : Byte)
  deriving DecidableEq, Repr

/-- The four members of the error taxonomy (60_exceptions.md rule R160). -/
inductive HostError where
  | invalidPeripheral | zeroLengthTransfer | busNack | stuckBus
  deriving DecidableEq, Repr

/-- What a host command returns (30_encoding.md rule R75). -/
inductive HostResult where
  /-- CreateSession's handle. -/
  | handle (h : Handle)
  /-- An error value; only `InvalidPeripheral` is ever returned (rule R160). -/
  | error (e : HostError)
  /-- Pop's pair (40_ring_buffer.md rule R91). -/
  | popped (valid : Bool) (byte : Byte)
  deriving DecidableEq, Repr

/-- One input of the script that drives a run (30_encoding.md rules R84 and R85): what an agent outside the rules of
the block does next. notes/assumptions/8.md. -/
inductive Input where
  /-- An operation is invoked from a context and runs as one step (choice (ii) of decision D22), after the environment
  has presented the given answers. -/
  | invoke (ctx : Context) (w : CmdWord) (answers : List (Handle × Port))
  /-- The host begins a command whose micro-steps run one at a time (choice (i) of decision D22). -/
  | begin (w : CmdWord)
  /-- The host command in progress runs its next micro-step. -/
  | micro
  /-- The environment changes what it presents at one peripheral. -/
  | environment (h : Handle) (p : Port)
  deriving DecidableEq, Repr

/-- Why the machine stops in a trap: never. Rule R11 (00_scope.md) gives an operation four ways to end and none is a
trap: "The source has no panic, trap or exception crossing the interrupt boundary". A case without meaning is a
refusal, an error value is a next state (rule R161), a hold is a next state (rule R114). -/
inductive Fault where
  deriving DecidableEq, Repr

/-- Why an operation has no meaning in a case (00_scope.md rule R11, "Refused"). -/
inductive Refusal where
  /-- Raised by `exec` for an instruction without a meaning yet. Safe. -/
  | notModelled (mnemonic : String)
  /-- Raised by the step for a command word the decoder refuses (rules R75, R76, R80). Safe. -/
  | undecodable (e : DecodeError)
  /-- Raised by every operation on a handle with no live session, but CreateSession and the unspecified dispatches, which
  refuse under their own name (rule R152). Safe. -/
  | deadHandle (h : Handle)
  /-- Raised by CreateSession on an identifier that has a live session (rule R150, decision D24). Safe. -/
  | slotOccupied (h : Handle)
  /-- Raised by CreateSession with capacity 0 (rule R150, decision D18). Safe. -/
  | zeroCapacity
  /-- Raised by MasterTransmit and MasterReceive with an address of 128 or more (rule R76). Safe. -/
  | addressNotSevenBits
  /-- Raised by the 37 unspecified dispatches (rule R103). Safe. -/
  | unspecifiedDispatch (st : Status) (ev : Event)
  /-- Raised when a counter or size reaches `2^P_CNT_W`, for a finite `P_CNT_W` (93_implementation_defined.md U14).
  Safe. -/
  | counterWidth
  /-- Raised by the RX handler in MRX (`RX.MRX`) when `mrxCount >= mrxSize`: the store would go to a cell the space
  `MRX` does not have, and the spec gives that case no effect (rule R54, rule R57). Only a racing MasterReceive or a
  state no run reaches gets there. Safe. notes/assumptions/12.md, DESIGN CHOICE. -/
  | mrxOverrun (h : Handle)
  /-- Raised when a host command is issued in interrupt context, that is from inside a callback (rule R106,
  rule R172). Safe. -/
  | commandInInterruptContext
  deriving DecidableEq, Repr

/-- The state of the machine. -/
structure State where
  /-- The open parameters of the implementation (rule R7); no operation writes them. -/
  params       : Params
  /-- The registry: the live sessions by identifier, strictly rising (rule R20). -/
  registry     : List (Handle × Session)
  /-- What the environment presents, by identifier, strictly rising, without entries equal to `Port.quiet`. -/
  ports        : List (Handle × Port)
  /-- Hidden state of the core (rule R36). -/
  irqPhase     : IrqPhase
  /-- The host command in progress, if its micro-steps are being interleaved (rule R63). -/
  host         : Option HostRun
  /-- What the last completed host command returned; `none` is "returned nothing". -/
  result       : Option HostResult
  /-- The traces of destroyed sessions, in the order of their destruction (rule R38). -/
  closedTraces : List (Handle × List TraceItem)
  /-- The model's own: how many free values have been drawn. -/
  draws        : Nat
  /-- The script still to be consumed, in order (rule R84). -/
  inputs       : List Input
  deriving DecidableEq, Repr

/-- Power-on (70_reset_and_hazards.md rule R180, 10_state.md rule R39): the registry is empty, no session exists,
`irqPhase = NotInIrq`, no trace. The parameters have their defaults (notes/assumptions/3.md). -/
def State.reset : State :=
  { params := Params.default, registry := [], ports := [], irqPhase := .notInIrq, host := none, result := none,
    closedTraces := [], draws := 0, inputs := [] }

/-- The part of the machine one handler may touch (41_event_dispatch.md rule R107): the session its handle names, that
peripheral's interface, the hidden core state, and the draw counter. -/
structure Focus where
  session  : Session
  port     : Port
  draws    : Nat
  irqPhase : IrqPhase
  deriving DecidableEq, Repr

/-- What the machine does next: the choice `nextTurn` makes from the state (Machine/Agents.lean). -/
inductive Turn where
  /-- Nothing can proceed: the script is empty, or the core spins. -/
  | idle
  /-- The held handler sees `TC` and goes on. -/
  | release (h : Handle)
  /-- The environment acts. -/
  | environment (h : Handle) (p : Port) (rest : List Input)
  /-- The host command in progress runs its next micro-step. -/
  | micro (rest : List Input)
  /-- An operation is invoked. -/
  | invoke (ctx : Context) (w : CmdWord) (answers : List (Handle × Port)) (rest : List Input)
  /-- A host command begins, to be run micro-step by micro-step. -/
  | begin (w : CmdWord) (rest : List Input)
  deriving DecidableEq, Repr

end Sys2Proof.Machine
end

