-- ==== Sys2Proof/Machine/Table.lean ====
section
/-! DEFINITION. Tables: lists of (key, value) pairs with strictly rising keys, the one form in which the registry, the
presented ports and the byte spaces are held, so that equal contents are equal data. -/

namespace Sys2Proof.Machine

/-- The value listed at a key. -/
def tableFind {β : Type} (k : Nat) : List (Nat × β) → Option β
  | [] => none
  | (j, v) :: t => if j = k then some v else tableFind k t

/-- The table with the value at the key, replacing what was listed there. -/
def tableInsert {β : Type} (k : Nat) (v : β) : List (Nat × β) → List (Nat × β)
  | [] => [(k, v)]
  | (j, w) :: t =>
    if k < j then (k, v) :: (j, w) :: t
    else if k = j then (k, v) :: t
    else (j, w) :: tableInsert k v t

/-- The table with nothing listed at the key. -/
def tableErase {β : Type} (k : Nat) : List (Nat × β) → List (Nat × β)
  | [] => []
  | (j, w) :: t => if j = k then tableErase k t else (j, w) :: tableErase k t

/-- Every key of the table is above `k`. -/
def tableAbove {β : Type} (k : Nat) : List (Nat × β) → Bool
  | [] => true
  | (j, _) :: t => decide (k < j) && tableAbove k t

/-- The canonical form: strictly rising keys. -/
def tableSorted {β : Type} : List (Nat × β) → Bool
  | [] => true
  | (j, _) :: t => tableAbove j t && tableSorted t

/-- The byte at an index of a byte space; `none` where nothing is listed (rule R50). -/
def Memory.read (m : Memory) (i : Nat) : Option Byte := tableFind i m

/-- The byte space with a byte stored at an index. -/
def Memory.write (m : Memory) (i : Nat) (b : Byte) : Memory := tableInsert i b m

/-- The canonical form of a byte space: strictly rising indices. An unlisted index has no value, so no entry can equal
what an unlisted index reads as. -/
def Memory.wf (m : Memory) : Bool := tableSorted m

/-- A byte sequence laid out from index `k` upward (rule R56). -/
def bytesFrom : Nat → List Byte → Memory
  | _, [] => []
  | k, b :: bs => (k, b) :: bytesFrom (k + 1) bs

/-- A `Seq Byte` as a byte space, indexed from 0 (rule R9). -/
def Memory.ofBytes (bytes : List Byte) : Memory := bytesFrom 0 bytes

/-- `n` cells of `0x00`: a freshly zeroed ring (rule R150). -/
def Memory.zeros (n : Nat) : Memory := Memory.ofBytes (List.replicate n 0x00#8)

end Sys2Proof.Machine
end

