-- ==== Sys2Proof/Machine/Operands.lean ====
section
/-! DEFINITION. Operand assembly and the block's arithmetic (30_encoding.md rules R76 and R86), and the ways an
operation finds what its handle names. -/

namespace Sys2Proof.Machine

/-- `address7[6:0] ++ dir` (rule R76): the address in bits `[7:1]`, the direction in bit `[0]`. -/
def addressByte (address7 : Nat) (dir : BitVec 1) : Byte := BitVec.ofNat 7 address7 ++ dir

/-- The direction bit of a master transmit: 0, write (rule R76). -/
def writeDirection : BitVec 1 := 0#1

/-- The direction bit of a master receive: 1, read (rule R76). -/
def readDirection : BitVec 1 := 1#1

/-- `(a - b) mod n`, the non-negative remainder (00_scope.md rule R8). -/
def subMod (a b n : Nat) : Nat := (((a : Int) - (b : Int)) % (n : Int)).toNat

/-- `(writeIndex + 1) mod ringCap` (rule R86). -/
def nextRingIndex (writeIndex ringCap : Nat) : Nat := (writeIndex + 1) % ringCap

/-- `min(unreadCount + 1, ringCap)`: capped, not incremented past capacity (rule R86). -/
def cappedUnread (unreadCount ringCap : Nat) : Nat := min (unreadCount + 1) ringCap

/-- A counter or size below `2^P_CNT_W` (decision D21); always, when the width is unbounded. -/
def fitsCounter (p : Params) (n : Nat) : Bool :=
  match p.cntWidth with
  | none => true
  | some w => decide (n < 2 ^ w)

/-- `count + 1` (rule R86), if a counter can hold it. -/
def countUp (p : Params) (n : Nat) : Option Nat := if fitsCounter p (n + 1) then some (n + 1) else none

/-- The code of an error of the taxonomy (30_encoding.md rule R78); 0 is no error. -/
def errorCode : Option HostError → Nat
  | none => 0
  | some .invalidPeripheral => 1
  | some .zeroLengthTransfer => 2
  | some .busNack => 3
  | some .stuckBus => 4

/-- The state with what the last host command returned (rule R75); `none` is "returned nothing". -/
def State.withResult (s : State) (r : Option HostResult) : State := { s with result := r }

/-- The state with the rest of the script. -/
def State.withInputs (s : State) (rest : List Input) : State := { s with inputs := rest }

/-- The state with what is left of the host command in progress (rule R63). -/
def State.withHost (s : State) (run : Option HostRun) : State := { s with host := run }

/-- The session of a handle: live while `registry[handle]` is set (rule R152). -/
def State.session? (s : State) (h : Handle) : Option Session := tableFind h s.registry

/-- What the environment presents at the interface of a peripheral. -/
def State.port (s : State) (h : Handle) : Port := (tableFind h s.ports).getD Port.quiet

/-- The byte space of a session (20_memory.md rule R50); `STX` has no cell while `stxBuffer` is unset. -/
def Session.space (x : Session) : Space → Memory
  | .ring => x.ring
  | .mtx => x.mtxBuffer
  | .stx => x.stxBuffer.getD []
  | .mrx => x.mrxBuffer

/-- The byte at an index of one of the spaces, as the host observes it (rule R60). -/
def Session.cell (x : Session) (sp : Space) (i : Nat) : Option Byte := (x.space sp).read i

/-- The callback a name stands for (10_state.md rule R29). -/
def callbackOf (c : Callbacks) : CallbackName → Option Nat
  | .onSlaveReceive => c.onSlaveReceive
  | .onMasterTransmitDone => c.onMasterTransmitDone
  | .onSlaveTransmitDone => c.onSlaveTransmitDone
  | .onMasterReceiveDone => c.onMasterReceiveDone

/-- What `call s.cb.X` puts on the trace: `CB(X)` if the callback is non-null, nothing if it is null (rule R106). -/
def callItems (c : Callbacks) (x : CallbackName) : List TraceItem :=
  match callbackOf c x with
  | some _ => [.cb x]
  | none => []

end Sys2Proof.Machine
end

