-- ==== Sys2Proof/Machine/Flags.lean ====
section
/-! DEFINITION. The flags behind the interface (10_state.md rules R32 and R33): the query `IF.flag(f)`, the clear
`IF.clearFlag(f)`, and the environment's own changes of what it presents. -/

namespace Sys2Proof.Machine

/-- `IF.flag(f)` for a prioritised event (rule R55): the environment's answer. It has no side effect (rule R58). -/
def Port.flag (p : Port) (e : Event) : Bool := p.flags.getLsbD e.bit

/-- The port after `IF.clearFlag(f)`: the flag is no longer presented, every other flag is (rule R32). -/
def Port.clear (p : Port) (e : Event) : Port := { p with flags := p.flags &&& ~~~e.only }

/-- The table of presented ports with one port changed, in canonical form. -/
def portStore (h : Handle) (p : Port) (t : List (Handle × Port)) : List (Handle × Port) :=
  if p = Port.quiet then tableErase h t else tableInsert h p t

/-- The environment presents `p` at the interface of a peripheral (rule R32: at any time). -/
def State.present (s : State) (h : Handle) (p : Port) : State := { s with ports := portStore h p s.ports }

/-- The environment presents several answers, in order. -/
def State.presentAll : State → List (Handle × Port) → State
  | s, [] => s
  | s, (h, p) :: rest => (s.present h p).presentAll rest

end Sys2Proof.Machine
end

