-- ==== Sys2Proof/Machine/Ops.lean ====
section
/-! DEFINITION. The primitives the operations are written in (00_scope.md rule R10): the commands of the Register
Capability Interface (20_memory.md rule R55), `MemRead` and `MemWrite`, the callback invocation (41_event_dispatch.md
rule R106), interrupt entry and return (60_exceptions.md rules R169 and R170), and the access to the session a handle
names (46_session_registry.md rule R152). -/

namespace Sys2Proof.Machine

/-- Appends an item to the session's trace `T` (rule R12). -/
def Focus.emit (f : Focus) (t : TraceItem) : Focus :=
  { f with session := { f.session with trace := f.session.trace ++ [t] } }

/-- `IF.writeData(b)`. -/
def Focus.writeData (f : Focus) (b : Byte) : Focus := f.emit (.w b)

/-- `IF.readData()`: the byte the environment presents, and the read on the trace. -/
def Focus.readData (f : Focus) : Byte × Focus := (f.port.data, f.emit (.r f.port.data))

/-- `IF.issueStart()`. -/
def Focus.issueStart (f : Focus) : Focus := f.emit .start

/-- `IF.issueStop()`. -/
def Focus.issueStop (f : Focus) : Focus := f.emit .stop

/-- `IF.setAckNext()`: `ackNext <- ACK`. -/
def Focus.setAckNext (f : Focus) : Focus :=
  ({ f with session := { f.session with ackNext := .ack } } : Focus).emit .ackNext

/-- `IF.setNackNext()`: `ackNext <- NACK`. -/
def Focus.setNackNext (f : Focus) : Focus :=
  ({ f with session := { f.session with ackNext := .nack } } : Focus).emit .nackNext

/-- `IF.enableClockStretch()`: `stretch <- On`. -/
def Focus.enableClockStretch (f : Focus) : Focus :=
  ({ f with session := { f.session with stretch := .on } } : Focus).emit .stretchOn

/-- `IF.disableClockStretch()`: `stretch <- Off`. -/
def Focus.disableClockStretch (f : Focus) : Focus :=
  ({ f with session := { f.session with stretch := .off } } : Focus).emit .stretchOff

/-- `IF.enablePeripheral()`: `enabled <- true`. -/
def Focus.enablePeripheral (f : Focus) : Focus :=
  ({ f with session := { f.session with enabled := true } } : Focus).emit .pen

/-- `IF.disablePeripheral()`: `enabled <- false`. -/
def Focus.disablePeripheral (f : Focus) : Focus :=
  ({ f with session := { f.session with enabled := false } } : Focus).emit .pdis

/-- `IF.clearFlag(e)`: the flag is cleared at the interface, and the clear is on the trace. -/
def Focus.clearFlag (f : Focus) (e : Event) : Focus :=
  ({ f with port := f.port.clear e } : Focus).emit (.clr e)

/-- `IF.direction()`: the bit the environment presents, and the query on the trace. -/
def Focus.direction (f : Focus) : BitVec 1 × Focus := (f.port.dir, f.emit (.dir f.port.dir))

/-- `call s.cb.X` (rule R106): `CB(X)` on the trace if the callback is non-null, nothing if it is null. -/
def Focus.call (f : Focus) (x : CallbackName) : Focus :=
  { f with session := { f.session with trace := f.session.trace ++ callItems f.session.callbacks x } }

/-- `s.status <- st`. -/
def Focus.setStatus (f : Focus) (st : Status) : Focus := { f with session := { f.session with status := st } }

/-- `draw Byte` (rule R10): a free value, fresh at each draw. notes/assumptions/10.md. -/
def Focus.drawByte (f : Focus) : Byte × Focus := (Config.freeByte f.draws, { f with draws := f.draws + 1 })

/-- `MemRead(SPACE, i, 1)` (rule R10). A cell that no rule has written, or that the space does not have, gives an
unspecified byte (rule R9): notes/assumptions/13.md. -/
def Focus.memRead (f : Focus) (sp : Space) (i : Nat) : Byte × Focus :=
  match f.session.cell sp i with
  | some b => (b, f)
  | none => f.drawByte

/-- `PUSH(s, b)` (40_ring_buffer.md rule R90). -/
def Session.push (x : Session) (b : Byte) : Session :=
  { x with ring := x.ring.write x.writeIndex b,
           writeIndex := nextRingIndex x.writeIndex x.ringCap,
           unreadCount := cappedUnread x.unreadCount x.ringCap }

/-- The index of the oldest unread byte, `(writeIndex - u) mod ringCap` (rule R91, rule R92). -/
def Session.oldestIndex (x : Session) (u : Nat) : Nat := subMod x.writeIndex u x.ringCap

/-- What an operation that acts on one session answers. -/
abbrev Effect := Host.Outcome Focus Fault Refusal

/-- The state with what the handler left of its session, its peripheral and the core (rule R107). -/
def State.put (s : State) (h : Handle) (f : Focus) : State :=
  { s with registry := tableInsert h f.session s.registry,
           ports := portStore h f.port s.ports,
           irqPhase := f.irqPhase,
           draws := f.draws }

/-- What the handler of a live session sees. -/
def State.focus (s : State) (h : Handle) (x : Session) : Focus :=
  { session := x, port := s.port h, draws := s.draws, irqPhase := s.irqPhase }

/-- `s <- session of handle`, refused if there is none (rule R152), and then the operation on that session. -/
def onSession (h : Handle) (s : State) (act : Focus → Effect) : Host.Outcome State Fault Refusal :=
  match s.session? h with
  | none => .refused (.deadHandle h)
  | some x =>
    match act (s.focus h x) with
    | .next f => .next (s.put h f)
    | .fault r => .fault r
    | .refused r => .refused r

/-- A host command hands its result to the host (30_encoding.md rule R75); `none` is "returns nothing". -/
def returning (r : Option HostResult) (o : Host.Outcome State Fault Refusal) : Host.Outcome State Fault Refusal :=
  match o with
  | .next t => .next (t.withResult r)
  | .fault e => .fault e
  | .refused e => .refused e

/-- `raise E` (rule R10): the operation ends, returns the error value to the host and changes nothing else
(rule R161). It is the block's one error entry: nothing is saved and nothing is redirected (rule R160). -/
def raiseError (e : HostError) (s : State) : Host.Outcome State Fault Refusal :=
  .next (s.withResult (some (.error e)))

/-- Interrupt entry (60_exceptions.md rule R169): the block saves nothing, switches nothing and records no cause; control
goes to the dispatch, whose word is formed from the session's status and the presented flags (rule R100). -/
def interruptEntry (s : State) (h : Handle) (x : Session) : DispatchWord := dispatchWord x.status (s.port h).flags

/-- Return from the handler (rule R170): the end of its operation, with nothing to restore; the core is no longer inside
a handler (rule R36). -/
def Focus.handlerReturn (f : Focus) : Focus := { f with irqPhase := .notInIrq }

/-- `hold until IF.flag(TC)` (42_master_transmit.md rule R114): the handler of this session is held in `SpinTC`. -/
def Focus.holdForTC (f : Focus) (h : Handle) : Focus := { f with irqPhase := .spinTC h }

/-- The execution context the core is in (rule R171): interrupt context exactly while a handler is held, since every
other handler returns within its step. -/
def State.context (s : State) : Context :=
  match s.irqPhase with
  | .notInIrq => .application
  | .spinTC _ => .interrupt

end Sys2Proof.Machine
end

