-- ==== Sys2Proof/Machine/Micro.lean ====
section
/-! DEFINITION. The micro-steps of the host commands (20_memory.md rule R63): what each does to the session, and the
list of them a command is made of. Run one after another they are the command (choice (ii) of decision D22); run one
step at a time they leave room for an interrupt between any two (choice (i), Machine/Agents.lean). -/

namespace Sys2Proof.Machine

/-- The effect of one micro-step (42_master_transmit.md rule R110, 43_master_receive.md rule R120, 44_slave.md
rule R134). -/
def Micro.apply (m : Micro) (f : Focus) : Focus :=
  match m with
  | .disableClockStretch => f.disableClockStretch
  | .storeTransmit bytes =>
    { f with session := { f.session with mtxBuffer := Memory.ofBytes bytes, mtxSize := bytes.length } }
  | .zeroTransmitCount => { f with session := { f.session with mtxCount := 0 } }
  | .newReceive size => { f with session := { f.session with mrxBuffer := [], mrxSize := size } }
  | .zeroReceiveCount => { f with session := { f.session with mrxCount := 0 } }
  | .setAddress b => { f with session := { f.session with slaveAddress := b } }
  | .preArmNack size => if size = 1 then f.setNackNext else f
  | .enterTransmit => f.setStatus .mtxStartSent
  | .enterReceive => f.setStatus .mrxStartSent
  | .issueStart => f.issueStart
  | .storeSlaveBuffer bytes => { f with session := { f.session with stxBuffer := bytes.map Memory.ofBytes } }

/-- Micro-steps in order, with nothing in between. -/
def runMicros : List Micro → Focus → Focus
  | [], f => f
  | m :: rest, f => runMicros rest (m.apply f)

/-- M1 to M6 of MasterTransmit (rule R110). -/
def transmitMicros (address7 : Nat) (bytes : List Byte) : List Micro :=
  [.disableClockStretch, .storeTransmit bytes, .zeroTransmitCount, .setAddress (addressByte address7 writeDirection),
   .enterTransmit, .issueStart]

/-- V1 to V7 of MasterReceive (rule R120). -/
def receiveMicros (address7 : Nat) (size : Nat) : List Micro :=
  [.disableClockStretch, .newReceive size, .zeroReceiveCount, .setAddress (addressByte address7 readDirection),
   .preArmNack size, .enterReceive, .issueStart]

/-- S1 of SetSlaveTransmitBuffer (rule R134). -/
def slaveBufferMicros (bytes : Option (List Byte)) : List Micro := [.storeSlaveBuffer bytes]

/-- When a master transfer of `size` bytes to `address7` has no meaning: an address of 128 or more (rule R76), or a
size a counter cannot hold (decision D21). -/
def transferGuard (p : Params) (address7 size : Nat) : Option Refusal :=
  if fitsAddr7 address7 then (if fitsCounter p size then none else some .counterWidth)
  else some .addressNotSevenBits

/-- A master transfer run as one step: refused on a dead handle (rule R152) or where it has no meaning; a size of 0 returns
without touching session or interface (rule R185); otherwise its micro-steps run whatever the status (rule R186). It
returns nothing in every case. -/
def transfer (h : Handle) (address7 size : Nat) (todo : List Micro) (s : State) : Host.Outcome State Fault Refusal :=
  match s.session? h with
  | none => .refused (.deadHandle h)
  | some x =>
    match transferGuard s.params address7 size with
    | some r => .refused r
    | none =>
      if size = 0 then .next (s.withResult none)
      else .next ((s.put h (runMicros todo (s.focus h x))).withResult none)

end Sys2Proof.Machine
end

