-- ==== Sys2Proof/Machine/MasterReceive.lean ====
section
/-! DEFINITION. The master receiver (43_master_receive.md): MasterReceive, `SB.MRX_StartSent`, `ADDR.MRX_AddrAcked`,
`RX.MRX`. -/

namespace Sys2Proof.Machine

/-- `MasterReceive(handle, address7, size)` (rule R120), its micro-steps run as one step. A size of 0 touches nothing;
the status is not tested. -/
def execMasterReceive (h : Handle) (address7 : Nat) (size : Nat) (s : State) : Host.Outcome State Fault Refusal :=
  transfer h address7 size (receiveMicros address7 size) s

/-- `SB.MRX_StartSent` (rule R121). -/
def execSbMrxStartSent (h : Handle) (s : State) : Host.Outcome State Fault Refusal :=
  onSession h s fun f => .next ((f.writeData f.session.slaveAddress).setStatus .mrxAddrAcked)

/-- `ADDR.MRX_AddrAcked` (rule R122). -/
def execAddrMrxAddrAcked (h : Handle) (s : State) : Host.Outcome State Fault Refusal :=
  onSession h s fun f =>
    let g := if f.session.mrxSize = 1 then f.setNackNext else f
    .next ((g.setStatus .mrx).clearFlag .addr)

/-- What `RX.MRX` does when the last byte has been stored (rule R123). -/
def Focus.finishReceive (f : Focus) : Focus :=
  ((f.issueStop.enableClockStretch.setAckNext).call .onMasterReceiveDone).setStatus .idle

/-- `RX.MRX` (rule R123): both comparisons use the count after the increment, and `mrxSize - 1` is never below 0
(rule R86). The store stays inside the space `MRX` (rule R54); outside it the case is refused (rule R11): notes/assumptions/12.md. -/
def receiveNext (p : Params) (h : Handle) (f : Focus) : Effect :=
  let rd := f.readData
  let g := rd.2
  if g.session.mrxCount < g.session.mrxSize then
    match countUp p g.session.mrxCount with
    | none => .refused .counterWidth
    | some n =>
      let stored : Focus :=
        { g with session := { g.session with mrxBuffer := g.session.mrxBuffer.write g.session.mrxCount rd.1,
                                             mrxCount := n } }
      let armed := if n = stored.session.mrxSize - 1 then stored.setNackNext else stored
      if n = armed.session.mrxSize then .next armed.finishReceive else .next armed
  else .refused (.mrxOverrun h)

/-- `RX.MRX` on the session of its handle. -/
def execRxMrx (h : Handle) (s : State) : Host.Outcome State Fault Refusal :=
  onSession h s (receiveNext s.params h)

end Sys2Proof.Machine
end

