-- ==== Sys2Proof/Machine/MasterTransmit.lean ====
section
/-! DEFINITION. The master transmitter (42_master_transmit.md): MasterTransmit, `SB.MTX_StartSent`,
`ADDR.MTX_AddrAcked`, `TXE.MTX` and the hold of rule R114. -/

namespace Sys2Proof.Machine

/-- `MasterTransmit(handle, address7, bytes)` (rule R110), its micro-steps run as one step. A size of 0 touches nothing;
the status is not tested. -/
def execMasterTransmit (h : Handle) (address7 : Nat) (bytes : List Byte) (s : State) :
    Host.Outcome State Fault Refusal :=
  transfer h address7 bytes.length (transmitMicros address7 bytes) s

/-- `SB.MTX_StartSent` (rule R111). -/
def execSbMtxStartSent (h : Handle) (s : State) : Host.Outcome State Fault Refusal :=
  onSession h s fun f => .next ((f.writeData f.session.slaveAddress).setStatus .mtxAddrAcked)

/-- `ADDR.MTX_AddrAcked` (rule R112). -/
def execAddrMtxAddrAcked (h : Handle) (s : State) : Host.Outcome State Fault Refusal :=
  onSession h s fun f => .next ((f.setStatus .mtx).clearFlag .addr)

/-- The rest of `TXE.MTX` after the hold (rule R113): Stop, clock stretching, the callback, and then the status. -/
def Focus.finishTransmit (f : Focus) : Focus :=
  ((f.issueStop.enableClockStretch).call .onMasterTransmitDone).setStatus .idle

/-- `TXE.MTX` (rule R113): the comparison uses the count after the increment. The handler is held only if the
environment answers the first query of `TC` with false (rule R114). -/
def transmitNext (p : Params) (h : Handle) (f : Focus) : Effect :=
  let rd := f.memRead .mtx f.session.mtxCount
  let g := rd.2.writeData rd.1
  match countUp p g.session.mtxCount with
  | none => .refused .counterWidth
  | some n =>
    let g' : Focus := { g with session := { g.session with mtxCount := n } }
    if n = g'.session.mtxSize then
      (if g'.port.tc then .next g'.finishTransmit else .next (g'.holdForTC h))
    else .next g'

/-- `TXE.MTX` on the session of its handle. -/
def execTxeMtx (h : Handle) (s : State) : Host.Outcome State Fault Refusal :=
  onSession h s (transmitNext s.params h)

/-- The environment has raised `TC`: the held handler goes on and returns (rule R114). -/
def releaseHold (h : Handle) (s : State) : Host.Outcome State Fault Refusal :=
  onSession h s fun f => .next f.handlerReturn.finishTransmit

end Sys2Proof.Machine
end

