-- ==== Sys2Proof/Machine/Nack.lean ====
section
/-! DEFINITION. Abort by NACK (45_nack_abort.md rules R140 to R147). -/

namespace Sys2Proof.Machine

/-- What `P_NACK_MASTER_STOP` adds to a master-side abort (70_reset_and_hazards.md rule R196, decision D11): nothing by
default; if the parameter is true, Stop and the re-enabling of clock stretching, in the order of the completion rows.
notes/assumptions/16.md. -/
def restoreAfterAbort (p : Params) (f : Focus) : Focus :=
  if p.nackMasterStop then f.issueStop.enableClockStretch else f

/-- A master-side abort: clear NACK, notify with the role's callback, reset the status (rules R142 to R147). -/
def masterAbort (p : Params) (x : CallbackName) (f : Focus) : Focus :=
  ((restoreAfterAbort p (f.clearFlag .nack)).call x).setStatus .idle

/-- `NACK.STX` (rule R141): the terminal zero byte is written; it is not counted. -/
def execNackStx (h : Handle) (s : State) : Host.Outcome State Fault Refusal :=
  onSession h s fun f =>
    .next ((((f.clearFlag .nack).writeData 0x00#8).call .onSlaveTransmitDone).setStatus .idle)

/-- `NACK.MTX_StartSent` (rule R142). -/
def execNackMtxStartSent (h : Handle) (s : State) : Host.Outcome State Fault Refusal :=
  onSession h s fun f => .next (masterAbort s.params .onMasterTransmitDone f)

/-- `NACK.MTX_AddrAcked` (rule R143). -/
def execNackMtxAddrAcked (h : Handle) (s : State) : Host.Outcome State Fault Refusal :=
  onSession h s fun f => .next (masterAbort s.params .onMasterTransmitDone f)

/-- `NACK.MTX` (rule R144). -/
def execNackMtx (h : Handle) (s : State) : Host.Outcome State Fault Refusal :=
  onSession h s fun f => .next (masterAbort s.params .onMasterTransmitDone f)

/-- `NACK.MRX_StartSent` (rule R145). -/
def execNackMrxStartSent (h : Handle) (s : State) : Host.Outcome State Fault Refusal :=
  onSession h s fun f => .next (masterAbort s.params .onMasterReceiveDone f)

/-- `NACK.MRX_AddrAcked` (rule R146). -/
def execNackMrxAddrAcked (h : Handle) (s : State) : Host.Outcome State Fault Refusal :=
  onSession h s fun f => .next (masterAbort s.params .onMasterReceiveDone f)

/-- `NACK.MRX` (rule R147). -/
def execNackMrx (h : Handle) (s : State) : Host.Outcome State Fault Refusal :=
  onSession h s fun f => .next (masterAbort s.params .onMasterReceiveDone f)

end Sys2Proof.Machine
end

