-- ==== Sys2Proof/Machine/Registry.lean ====
section
/-! DEFINITION. CreateSession and DestroySession (46_session_registry.md). -/

namespace Sys2Proof.Machine

/-- A new session before its three interface commands (rule R150, 10_state.md rule R39): the fields the spec leaves
unspecified hold free values drawn from counter `k` on, and the two master buffers have no cell with a value. The
three shadow fields are set by the commands that follow. -/
def freshSession (p : Params) (ringCapacity : Nat) (callbacks : Callbacks) (k : Nat) : Session :=
  { status := .idle
    slaveAddress := Config.freeByte k
    busPeriodLength := p.busPeriod
    ringCap := ringCapacity
    ring := Memory.zeros ringCapacity
    writeIndex := 0
    unreadCount := 0
    mtxBuffer := []
    mtxSize := Config.freeNat (k + 1)
    mtxCount := Config.freeNat (k + 2)
    stxBuffer := none
    stxCount := Config.freeNat (k + 3)
    mrxBuffer := []
    mrxSize := Config.freeNat (k + 4)
    mrxCount := Config.freeNat (k + 5)
    callbacks := callbacks
    ackNext := .ack
    stretch := .on
    enabled := true
    trace := [] }

/-- The free values one creation draws. -/
def creationDraws : Nat := 6

/-- `CreateSession(peripheralId, ringCapacity, callbacks)` (rule R150): the validity test comes first; an invalid
identifier is returned as an error (rule R161), an occupied slot and capacity 0 are refused. -/
def execCreateSession (id : Handle) (ringCapacity : Nat) (callbacks : Callbacks) (s : State) :
    Host.Outcome State Fault Refusal :=
  if id ∈ s.params.periphIds then
    match s.session? id with
    | some _ => .refused (.slotOccupied id)
    | none =>
      if ringCapacity = 0 then .refused .zeroCapacity
      else if fitsCounter s.params ringCapacity then
        let f : Focus :=
          { session := freshSession s.params ringCapacity callbacks s.draws, port := s.port id,
            draws := s.draws + creationDraws, irqPhase := s.irqPhase }
        returning (some (.handle id)) (.next (s.put id f.enablePeripheral.enableClockStretch.setAckNext))
      else .refused .counterWidth
  else raiseError .invalidPeripheral s

/-- The state without the session of a handle; its trace is kept (10_state.md rule R38). -/
def State.closeSession (s : State) (h : Handle) (trace : List TraceItem) : State :=
  { s with registry := tableErase h s.registry, closedTraces := s.closedTraces ++ [(h, trace)] }

/-- `DestroySession(handle)` (rule R151): `PDIS` ends the trace, which is kept (10_state.md rule R38), and every field
of the session ceases to exist. Unguarded. -/
def execDestroySession (h : Handle) (s : State) : Host.Outcome State Fault Refusal :=
  match s.session? h with
  | none => .refused (.deadHandle h)
  | some x =>
    let f := (s.focus h x).disablePeripheral
    returning none (.next (s.closeSession h f.session.trace))

end Sys2Proof.Machine
end

