-- ==== Sys2Proof/Machine/Ring.lean ====
section
/-! DEFINITION. The consumer of the byte ring buffer: the host command Pop (40_ring_buffer.md rule R91). The producer,
`PUSH`, is in Machine/Ops.lean. -/

namespace Sys2Proof.Machine

/-- P2 of Pop: the oldest unread byte, read at the index computed from the write index and the stale count `u`. -/
def popByte (u : Nat) (f : Focus) : Byte × Focus := f.memRead .ring (f.session.oldestIndex u)

/-- P3 of Pop: the count computed from the stale `u` is written back. -/
def popCountBack (u : Nat) (f : Focus) : Focus := { f with session := { f.session with unreadCount := u - 1 } }

/-- `Pop(handle)` (rule R91), its micro-steps run as one step: `(false, 0x00)` when nothing is unread. -/
def execPop (h : Handle) (s : State) : Host.Outcome State Fault Refusal :=
  match s.session? h with
  | none => .refused (.deadHandle h)
  | some x =>
    if x.unreadCount = 0 then .next (s.withResult (some (.popped false 0x00#8)))
    else
      let rd := popByte x.unreadCount (s.focus h x)
      returning (some (.popped true rd.1)) (.next (s.put h (popCountBack x.unreadCount rd.2)))

end Sys2Proof.Machine
end

