-- ==== Sys2Proof/Machine/Slave.lean ====
section
/-! DEFINITION. The slave roles (44_slave.md): `ADDR.Idle`, `RX.SRX`, `STOP.SRX`, `TXE.STX` and
SetSlaveTransmitBuffer. -/

namespace Sys2Proof.Machine

/-- `ADDR.Idle` (rule R130): direction 0 enters receive, else transmit with `stxCount <- 0`; ADDR is cleared last. -/
def addressMatched (f : Focus) : Focus :=
  let q := f.direction
  let g := q.2
  let entered :=
    if q.1 = 0#1 then g.setStatus .srx
    else ({ g with session := { g.session with stxCount := 0 } } : Focus).setStatus .stx
  entered.clearFlag .addr

/-- `ADDR.Idle` on the session of its handle. -/
def execAddrIdle (h : Handle) (s : State) : Host.Outcome State Fault Refusal :=
  onSession h s fun f => .next (addressMatched f)

/-- `RX.SRX` (rule R131). -/
def execRxSrx (h : Handle) (s : State) : Host.Outcome State Fault Refusal :=
  onSession h s fun f =>
    let rd := f.readData
    .next { rd.2 with session := rd.2.session.push rd.1 }

/-- `STOP.SRX` (rule R132). -/
def execStopSrx (h : Handle) (s : State) : Host.Outcome State Fault Refusal :=
  onSession h s fun f => .next (((f.clearFlag .stop).call .onSlaveReceive).setStatus .idle)

/-- `TXE.STX` (rule R133): the next byte of `stxBuffer`, an unspecified byte beyond its end, `0x00` with `stxCount`
unchanged while the buffer is unset. The settle delay (rule R135) changes no state. -/
def slaveTransmitNext (p : Params) (f : Focus) : Effect :=
  match f.session.stxBuffer with
  | none => .next (f.writeData 0x00#8)
  | some buffer =>
    let rd := if f.session.stxCount < buffer.length then f.memRead .stx f.session.stxCount else f.drawByte
    let g := rd.2.writeData rd.1
    match countUp p g.session.stxCount with
    | none => .refused .counterWidth
    | some n => .next { g with session := { g.session with stxCount := n } }

/-- `TXE.STX` on the session of its handle. -/
def execTxeStx (h : Handle) (s : State) : Host.Outcome State Fault Refusal :=
  onSession h s (slaveTransmitNext s.params)

/-- `SetSlaveTransmitBuffer(handle, bytes)` (rule R134). -/
def execSetSlaveTransmitBuffer (h : Handle) (bytes : Option (List Byte)) (s : State) :
    Host.Outcome State Fault Refusal :=
  returning none (onSession h s fun f => .next (runMicros (slaveBufferMicros bytes) f))

end Sys2Proof.Machine
end

