-- ==== Sys2Proof/Machine/Unspecified.lean ====
section
/-! DEFINITION. The 37 unspecified dispatches (41_event_dispatch.md rule R103, 30_encoding.md rule R81): the source's
transition table has no row for the pair, and the spec gives it no behaviour. "A model must not read this as 'nothing
happens'". One definition per pair, so that each can be given a meaning on its own. -/

namespace Sys2Proof.Machine

/-- `refuse(UnspecifiedDispatch(STATUS, EVENT))` (rule R103). -/
def refuseDispatch (st : Status) (ev : Event) : Host.Outcome State Fault Refusal :=
  .refused (.unspecifiedDispatch st ev)

/-- `X.NACK.Idle`. -/
def execXNackIdle (_ : Handle) (_ : State) : Host.Outcome State Fault Refusal := refuseDispatch .idle .nack

/-- `X.RX.Idle`. -/
def execXRxIdle (_ : Handle) (_ : State) : Host.Outcome State Fault Refusal := refuseDispatch .idle .rx

/-- `X.SB.Idle`. -/
def execXSbIdle (_ : Handle) (_ : State) : Host.Outcome State Fault Refusal := refuseDispatch .idle .sb

/-- `X.TXE.Idle`. -/
def execXTxeIdle (_ : Handle) (_ : State) : Host.Outcome State Fault Refusal := refuseDispatch .idle .txe

/-- `X.STOP.Idle`. -/
def execXStopIdle (_ : Handle) (_ : State) : Host.Outcome State Fault Refusal := refuseDispatch .idle .stop

/-- `X.RX.MTX_StartSent`. -/
def execXRxMtxStartSent (_ : Handle) (_ : State) : Host.Outcome State Fault Refusal := refuseDispatch .mtxStartSent .rx

/-- `X.ADDR.MTX_StartSent`. -/
def execXAddrMtxStartSent (_ : Handle) (_ : State) : Host.Outcome State Fault Refusal := refuseDispatch .mtxStartSent .addr

/-- `X.TXE.MTX_StartSent`. -/
def execXTxeMtxStartSent (_ : Handle) (_ : State) : Host.Outcome State Fault Refusal := refuseDispatch .mtxStartSent .txe

/-- `X.STOP.MTX_StartSent`. -/
def execXStopMtxStartSent (_ : Handle) (_ : State) : Host.Outcome State Fault Refusal := refuseDispatch .mtxStartSent .stop

/-- `X.RX.MTX_AddrAcked`. -/
def execXRxMtxAddrAcked (_ : Handle) (_ : State) : Host.Outcome State Fault Refusal := refuseDispatch .mtxAddrAcked .rx

/-- `X.SB.MTX_AddrAcked`. -/
def execXSbMtxAddrAcked (_ : Handle) (_ : State) : Host.Outcome State Fault Refusal := refuseDispatch .mtxAddrAcked .sb

/-- `X.TXE.MTX_AddrAcked`. -/
def execXTxeMtxAddrAcked (_ : Handle) (_ : State) : Host.Outcome State Fault Refusal := refuseDispatch .mtxAddrAcked .txe

/-- `X.STOP.MTX_AddrAcked`. -/
def execXStopMtxAddrAcked (_ : Handle) (_ : State) : Host.Outcome State Fault Refusal := refuseDispatch .mtxAddrAcked .stop

/-- `X.RX.MTX`. -/
def execXRxMtx (_ : Handle) (_ : State) : Host.Outcome State Fault Refusal := refuseDispatch .mtx .rx

/-- `X.SB.MTX`. -/
def execXSbMtx (_ : Handle) (_ : State) : Host.Outcome State Fault Refusal := refuseDispatch .mtx .sb

/-- `X.ADDR.MTX`. -/
def execXAddrMtx (_ : Handle) (_ : State) : Host.Outcome State Fault Refusal := refuseDispatch .mtx .addr

/-- `X.STOP.MTX`. -/
def execXStopMtx (_ : Handle) (_ : State) : Host.Outcome State Fault Refusal := refuseDispatch .mtx .stop

/-- `X.NACK.SRX`. -/
def execXNackSrx (_ : Handle) (_ : State) : Host.Outcome State Fault Refusal := refuseDispatch .srx .nack

/-- `X.SB.SRX`. -/
def execXSbSrx (_ : Handle) (_ : State) : Host.Outcome State Fault Refusal := refuseDispatch .srx .sb

/-- `X.ADDR.SRX`. -/
def execXAddrSrx (_ : Handle) (_ : State) : Host.Outcome State Fault Refusal := refuseDispatch .srx .addr

/-- `X.TXE.SRX`. -/
def execXTxeSrx (_ : Handle) (_ : State) : Host.Outcome State Fault Refusal := refuseDispatch .srx .txe

/-- `X.RX.MRX_StartSent`. -/
def execXRxMrxStartSent (_ : Handle) (_ : State) : Host.Outcome State Fault Refusal := refuseDispatch .mrxStartSent .rx

/-- `X.ADDR.MRX_StartSent`. -/
def execXAddrMrxStartSent (_ : Handle) (_ : State) : Host.Outcome State Fault Refusal := refuseDispatch .mrxStartSent .addr

/-- `X.TXE.MRX_StartSent`. -/
def execXTxeMrxStartSent (_ : Handle) (_ : State) : Host.Outcome State Fault Refusal := refuseDispatch .mrxStartSent .txe

/-- `X.STOP.MRX_StartSent`. -/
def execXStopMrxStartSent (_ : Handle) (_ : State) : Host.Outcome State Fault Refusal := refuseDispatch .mrxStartSent .stop

/-- `X.RX.MRX_AddrAcked`. -/
def execXRxMrxAddrAcked (_ : Handle) (_ : State) : Host.Outcome State Fault Refusal := refuseDispatch .mrxAddrAcked .rx

/-- `X.SB.MRX_AddrAcked`. -/
def execXSbMrxAddrAcked (_ : Handle) (_ : State) : Host.Outcome State Fault Refusal := refuseDispatch .mrxAddrAcked .sb

/-- `X.TXE.MRX_AddrAcked`. -/
def execXTxeMrxAddrAcked (_ : Handle) (_ : State) : Host.Outcome State Fault Refusal := refuseDispatch .mrxAddrAcked .txe

/-- `X.STOP.MRX_AddrAcked`. -/
def execXStopMrxAddrAcked (_ : Handle) (_ : State) : Host.Outcome State Fault Refusal := refuseDispatch .mrxAddrAcked .stop

/-- `X.SB.MRX`. -/
def execXSbMrx (_ : Handle) (_ : State) : Host.Outcome State Fault Refusal := refuseDispatch .mrx .sb

/-- `X.ADDR.MRX`. -/
def execXAddrMrx (_ : Handle) (_ : State) : Host.Outcome State Fault Refusal := refuseDispatch .mrx .addr

/-- `X.TXE.MRX`. -/
def execXTxeMrx (_ : Handle) (_ : State) : Host.Outcome State Fault Refusal := refuseDispatch .mrx .txe

/-- `X.STOP.MRX`. -/
def execXStopMrx (_ : Handle) (_ : State) : Host.Outcome State Fault Refusal := refuseDispatch .mrx .stop

/-- `X.RX.STX`. -/
def execXRxStx (_ : Handle) (_ : State) : Host.Outcome State Fault Refusal := refuseDispatch .stx .rx

/-- `X.SB.STX`. -/
def execXSbStx (_ : Handle) (_ : State) : Host.Outcome State Fault Refusal := refuseDispatch .stx .sb

/-- `X.ADDR.STX`. -/
def execXAddrStx (_ : Handle) (_ : State) : Host.Outcome State Fault Refusal := refuseDispatch .stx .addr

/-- `X.STOP.STX`. -/
def execXStopStx (_ : Handle) (_ : State) : Host.Outcome State Fault Refusal := refuseDispatch .stx .stop

end Sys2Proof.Machine
end

