-- ==== Sys2Proof/Machine/Interrupt.lean ====
section
/-! DEFINITION. The interrupt entry and the event dispatch (41_event_dispatch.md): `OnInterrupt` (rule R100) and
`IRQ.NONE` (rule R102). -/

namespace Sys2Proof.Machine

/-- `IRQ.NONE` (rule R102): no flag was set, no handler runs; the handle must be live (rule R152). -/
def execIrqNone (h : Handle) (s : State) : Host.Outcome State Fault Refusal :=
  match s.session? h with
  | none => .refused (.deadHandle h)
  | some _ => .next s

/-- The operation of a (status, event) pair, performed (the grid of 30_encoding.md section 4). `dispatchInstr` gives the
same operation as syntax. -/
def performDispatch (st : Status) (ev : Event) (h : Handle) (s : State) : Host.Outcome State Fault Refusal :=
  match st, ev with
  | .idle, .nack => execXNackIdle h s
  | .idle, .rx => execXRxIdle h s
  | .idle, .sb => execXSbIdle h s
  | .idle, .addr => execAddrIdle h s
  | .idle, .txe => execXTxeIdle h s
  | .idle, .stop => execXStopIdle h s
  | .mtxStartSent, .nack => execNackMtxStartSent h s
  | .mtxStartSent, .rx => execXRxMtxStartSent h s
  | .mtxStartSent, .sb => execSbMtxStartSent h s
  | .mtxStartSent, .addr => execXAddrMtxStartSent h s
  | .mtxStartSent, .txe => execXTxeMtxStartSent h s
  | .mtxStartSent, .stop => execXStopMtxStartSent h s
  | .mtxAddrAcked, .nack => execNackMtxAddrAcked h s
  | .mtxAddrAcked, .rx => execXRxMtxAddrAcked h s
  | .mtxAddrAcked, .sb => execXSbMtxAddrAcked h s
  | .mtxAddrAcked, .addr => execAddrMtxAddrAcked h s
  | .mtxAddrAcked, .txe => execXTxeMtxAddrAcked h s
  | .mtxAddrAcked, .stop => execXStopMtxAddrAcked h s
  | .mtx, .nack => execNackMtx h s
  | .mtx, .rx => execXRxMtx h s
  | .mtx, .sb => execXSbMtx h s
  | .mtx, .addr => execXAddrMtx h s
  | .mtx, .txe => execTxeMtx h s
  | .mtx, .stop => execXStopMtx h s
  | .srx, .nack => execXNackSrx h s
  | .srx, .rx => execRxSrx h s
  | .srx, .sb => execXSbSrx h s
  | .srx, .addr => execXAddrSrx h s
  | .srx, .txe => execXTxeSrx h s
  | .srx, .stop => execStopSrx h s
  | .mrxStartSent, .nack => execNackMrxStartSent h s
  | .mrxStartSent, .rx => execXRxMrxStartSent h s
  | .mrxStartSent, .sb => execSbMrxStartSent h s
  | .mrxStartSent, .addr => execXAddrMrxStartSent h s
  | .mrxStartSent, .txe => execXTxeMrxStartSent h s
  | .mrxStartSent, .stop => execXStopMrxStartSent h s
  | .mrxAddrAcked, .nack => execNackMrxAddrAcked h s
  | .mrxAddrAcked, .rx => execXRxMrxAddrAcked h s
  | .mrxAddrAcked, .sb => execXSbMrxAddrAcked h s
  | .mrxAddrAcked, .addr => execAddrMrxAddrAcked h s
  | .mrxAddrAcked, .txe => execXTxeMrxAddrAcked h s
  | .mrxAddrAcked, .stop => execXStopMrxAddrAcked h s
  | .mrx, .nack => execNackMrx h s
  | .mrx, .rx => execRxMrx h s
  | .mrx, .sb => execXSbMrx h s
  | .mrx, .addr => execXAddrMrx h s
  | .mrx, .txe => execXTxeMrx h s
  | .mrx, .stop => execXStopMrx h s
  | .stx, .nack => execNackStx h s
  | .stx, .rx => execXRxStx h s
  | .stx, .sb => execXSbStx h s
  | .stx, .addr => execXAddrStx h s
  | .stx, .txe => execTxeStx h s
  | .stx, .stop => execXStopStx h s

/-- `OnInterrupt(handle)` (rule R100): form the dispatch word from the status and the presented flags, select one event by
priority (rule R101), perform that event's operation for the current status, return. -/
def execOnInterrupt (h : Handle) (s : State) : Host.Outcome State Fault Refusal :=
  match s.session? h with
  | none => .refused (.deadHandle h)
  | some x =>
    let dw := interruptEntry s h x
    match statusOfCode (dw.extractLsb' 6 4).toNat with
    | none => .refused (.undecodable .notAStatus)
    | some st =>
      match selectEvent (dw.extractLsb' 0 6) with
      | none => execIrqNone h s
      | some ev => performDispatch st ev h s

end Sys2Proof.Machine
end

