-- ==== Sys2Proof/Machine/Agents.lean ====
section
/-! DEFINITION. Who takes the next step (00_scope.md rule R6, 20_memory.md rules R61 and R63): the host in application
context, the engine in interrupt context, or the environment, as the script orders them; a host command run micro-step
by micro-step; and what can still happen while a handler is held (42_master_transmit.md rule R114). -/

namespace Sys2Proof.Machine

/-- The first environment action of the script, and the script without it. -/
def firstEnvironment : List Input → Option (Handle × Port × List Input)
  | [] => none
  | .environment h p :: rest => some (h, p, rest)
  | .invoke ctx w answers :: rest =>
    match firstEnvironment rest with
    | some (h, p, others) => some (h, p, .invoke ctx w answers :: others)
    | none => none
  | .begin w :: rest =>
    match firstEnvironment rest with
    | some (h, p, others) => some (h, p, .begin w :: others)
    | none => none
  | .micro :: rest =>
    match firstEnvironment rest with
    | some (h, p, others) => some (h, p, .micro :: others)
    | none => none

/-- Who moves next. While the core spins (rule R36) only the environment can act: "no host command and no other handler
runs on the core" (rule R114), whatever `P_CROSS_NEST` is (notes/assumptions/21.md). Commands and invocations of the
script cannot begin: they wait, they are not refused. Otherwise the script's next input is taken; an application command
waits until the host command in progress has run its remaining micro-steps, while an interrupt does not
(rule R63). notes/assumptions/8.md. -/
def nextTurn (s : State) : Turn :=
  match s.irqPhase with
  | .spinTC h =>
    if (s.port h).tc then .release h
    else
      match firstEnvironment s.inputs with
      | some (h', p, rest) => .environment h' p rest
      | none => .idle
  | .notInIrq =>
    match s.inputs with
    | [] => if s.host.isSome then .micro [] else .idle
    | .environment h p :: rest => .environment h p rest
    | .micro :: rest => .micro rest
    | .begin w :: rest => if s.host.isSome then .micro s.inputs else .begin w rest
    | .invoke .interrupt w answers :: rest => .invoke .interrupt w answers rest
    | .invoke .application w answers :: rest =>
      if s.host.isSome then .micro s.inputs else .invoke .application w answers rest

/-- A host command may not be issued in interrupt context, that is from inside a callback (41_event_dispatch.md rule
R106, 60_exceptions.md rule R172); OnInterrupt may be invoked in either (notes/assumptions/23.md). -/
def admitted (ctx : Context) (i : Instr) : Bool :=
  match ctx with
  | .application => true
  | .interrupt =>
    match i with
    | .onInterrupt _ => true
    | _ => false

/-- The host command in progress ends and hands its result to the host. -/
def State.hostReturns (s : State) (r : Option HostResult) : State :=
  (s.withHost none).withResult r

/-- The host command in progress goes on to the rest of its micro-steps, or returns nothing when none is left. -/
def State.afterMicro (s : State) (h : Handle) (todo : List Micro) : State :=
  if todo = [] then s.hostReturns none else s.withHost (some (.micros h todo))

/-- One micro-step of the host command in progress (rule R63); P1 to P3 are Pop's (40_ring_buffer.md rule R91). -/
def microStep (s : State) : Host.Outcome State Fault Refusal :=
  match s.host with
  | none => .next s
  | some (.micros h todo) =>
    match todo with
    | [] => .next (s.hostReturns none)
    | m :: rest =>
      match onSession h s (fun f => .next (m.apply f)) with
      | .next t => .next (t.afterMicro h rest)
      | .fault r => .fault r
      | .refused r => .refused r
  | some (.popCount h) =>
    match s.session? h with
    | none => .refused (.deadHandle h)
    | some x =>
      if x.unreadCount = 0 then .next (s.hostReturns (some (.popped false 0x00#8)))
      else .next (s.withHost (some (.popRead h x.unreadCount)))
  | some (.popRead h u) =>
    match s.session? h with
    | none => .refused (.deadHandle h)
    | some x =>
      let rd := popByte u (s.focus h x)
      .next ((s.put h rd.2).withHost (some (.popFinish h u rd.1)))
  | some (.popFinish h u b) =>
    match s.session? h with
    | none => .refused (.deadHandle h)
    | some x => .next ((s.put h (popCountBack u (s.focus h x))).hostReturns (some (.popped true b)))

/-- A transfer command begins: refused as in one step, a size of 0 returns at once, else its micro-steps are to run. -/
def beginTransfer (h : Handle) (address7 size : Nat) (todo : List Micro) (s : State) :
    Host.Outcome State Fault Refusal :=
  match s.session? h with
  | none => .refused (.deadHandle h)
  | some _ =>
    match transferGuard s.params address7 size with
    | some r => .refused r
    | none => if size = 0 then .next (s.withResult none) else .next (s.withHost (some (.micros h todo)))

/-- A command with other micro-steps begins. -/
def beginRun (h : Handle) (run : HostRun) (s : State) : Host.Outcome State Fault Refusal :=
  match s.session? h with
  | none => .refused (.deadHandle h)
  | some _ => .next (s.withHost (some run))

/-- How a host command begins that runs micro-step by micro-step (rule R63). `none` for the operations that are single
steps: CreateSession, DestroySession, OnInterrupt and every dispatch. -/
def beginHost (i : Instr) (s : State) : Option (Host.Outcome State Fault Refusal) :=
  match i with
  | .masterTransmit h a bytes => some (beginTransfer h a bytes.length (transmitMicros a bytes) s)
  | .masterReceive h a size => some (beginTransfer h a size (receiveMicros a size) s)
  | .setSlaveTransmitBuffer h bytes => some (beginRun h (.micros h (slaveBufferMicros bytes)) s)
  | .pop h => some (beginRun h (.popCount h) s)
  | _ => none

/-- A session ready for a transfer of one byte in either direction: what `withFetchWord` installs where the handle of
the word has no live session. notes/assumptions/5.md, DESIGN CHOICE. -/
def loadedSession (p : Params) : Session :=
  { status := .idle, slaveAddress := 0x00#8, busPeriodLength := p.busPeriod, ringCap := 1, ring := Memory.zeros 1,
    writeIndex := 0, unreadCount := 0, mtxBuffer := Memory.ofBytes [0x00#8], mtxSize := 1, mtxCount := 0,
    stxBuffer := none, stxCount := 0, mrxBuffer := [], mrxSize := 1, mrxCount := 0,
    callbacks := ⟨none, none, none, none⟩, ackNext := .ack, stretch := .on, enabled := true, trace := [] }

/-- The state with a live session of the handle: its own, or else the loaded one. -/
def State.withLiveSession (s : State) (h : Handle) : State :=
  match s.session? h with
  | some _ => s
  | none => { s with registry := tableInsert h (loadedSession s.params) s.registry }

/-- The state with the status of a live session set: bits `[9:6]` of the dispatch word (rule R73). -/
def State.withStatus (s : State) (h : Handle) (st : Status) : State :=
  match s.session? h with
  | some x => { s with registry := tableInsert h { x with status := st } s.registry }
  | none => s

/-- The state in which the next step takes the given invocation: the core is not held and no host command is in
progress. -/
def State.withInvocation (s : State) (ctx : Context) (w : CmdWord) : State :=
  { s with irqPhase := .notInIrq, host := none, inputs := .invoke ctx w [] :: s.inputs }

/-- The context a command word is issued in: OnInterrupt in interrupt context, every other in application context
(60_exceptions.md rule R171). -/
def contextOfCode (code : BitVec 3) : Context := if code = 5#3 then .interrupt else .application

/-- A raw operation placed where the next step fetches it. A command word is the script's next invocation; every command
but CreateSession needs a live session (rule R152). A dispatch word stands in the session's status and the presented
flags, and an OnInterrupt invocation reads it from there (rule R100). A dispatch word with a status field above 8 is no
operation (rule R79) and no session can have such a status: the next invocation is then one that is refused, the reserved
command code 7 (DESIGN CHOICE, notes/assumptions/5.md). -/
def State.placeRaw (s : State) : RawOp → State
  | .cmd w =>
    let t := if w.code = 0#3 then s else s.withLiveSession i2c1
    t.withInvocation (contextOfCode w.code) w
  | .dsp h dw =>
    match statusOfCode (dw.extractLsb' 6 4).toNat with
    | some st =>
      let u := (s.withLiveSession h).withStatus h st
      (u.present h { u.port h with flags := dw.extractLsb' 0 6 }).withInvocation .interrupt ⟨5#3, .handle h⟩
    | none => s.withInvocation .interrupt ⟨7#3, .handle h⟩

end Sys2Proof.Machine
end

