-- ==== Sys2Proof/Machine/Dispatch.lean ====
section
/-! DEFINITION. `exec`: one arm per operation of spec/opcode_table.json, each one call of its meaning. -/

namespace Sys2Proof.Machine

/-- What each operation does. -/
def exec (i : Instr) (s : State) : Host.Outcome State Fault Refusal :=
  match i with
  | .createSession id ringCapacity callbacks => Sys2Proof.Machine.execCreateSession id ringCapacity callbacks s
  | .destroySession h => Sys2Proof.Machine.execDestroySession h s
  | .masterTransmit h address7 bytes => Sys2Proof.Machine.execMasterTransmit h address7 bytes s
  | .masterReceive h address7 size => Sys2Proof.Machine.execMasterReceive h address7 size s
  | .pop h => Sys2Proof.Machine.execPop h s
  | .onInterrupt h => Sys2Proof.Machine.execOnInterrupt h s
  | .setSlaveTransmitBuffer h bytes => Sys2Proof.Machine.execSetSlaveTransmitBuffer h bytes s
  | .irqNone h => Sys2Proof.Machine.execIrqNone h s
  | .xNackIdle h => Sys2Proof.Machine.execXNackIdle h s
  | .xRxIdle h => Sys2Proof.Machine.execXRxIdle h s
  | .xSbIdle h => Sys2Proof.Machine.execXSbIdle h s
  | .addrIdle h => Sys2Proof.Machine.execAddrIdle h s
  | .xTxeIdle h => Sys2Proof.Machine.execXTxeIdle h s
  | .xStopIdle h => Sys2Proof.Machine.execXStopIdle h s
  | .nackMtxStartSent h => Sys2Proof.Machine.execNackMtxStartSent h s
  | .xRxMtxStartSent h => Sys2Proof.Machine.execXRxMtxStartSent h s
  | .sbMtxStartSent h => Sys2Proof.Machine.execSbMtxStartSent h s
  | .xAddrMtxStartSent h => Sys2Proof.Machine.execXAddrMtxStartSent h s
  | .xTxeMtxStartSent h => Sys2Proof.Machine.execXTxeMtxStartSent h s
  | .xStopMtxStartSent h => Sys2Proof.Machine.execXStopMtxStartSent h s
  | .nackMtxAddrAcked h => Sys2Proof.Machine.execNackMtxAddrAcked h s
  | .xRxMtxAddrAcked h => Sys2Proof.Machine.execXRxMtxAddrAcked h s
  | .xSbMtxAddrAcked h => Sys2Proof.Machine.execXSbMtxAddrAcked h s
  | .addrMtxAddrAcked h => Sys2Proof.Machine.execAddrMtxAddrAcked h s
  | .xTxeMtxAddrAcked h => Sys2Proof.Machine.execXTxeMtxAddrAcked h s
  | .xStopMtxAddrAcked h => Sys2Proof.Machine.execXStopMtxAddrAcked h s
  | .nackMtx h => Sys2Proof.Machine.execNackMtx h s
  | .xRxMtx h => Sys2Proof.Machine.execXRxMtx h s
  | .xSbMtx h => Sys2Proof.Machine.execXSbMtx h s
  | .xAddrMtx h => Sys2Proof.Machine.execXAddrMtx h s
  | .txeMtx h => Sys2Proof.Machine.execTxeMtx h s
  | .xStopMtx h => Sys2Proof.Machine.execXStopMtx h s
  | .xNackSrx h => Sys2Proof.Machine.execXNackSrx h s
  | .rxSrx h => Sys2Proof.Machine.execRxSrx h s
  | .xSbSrx h => Sys2Proof.Machine.execXSbSrx h s
  | .xAddrSrx h => Sys2Proof.Machine.execXAddrSrx h s
  | .xTxeSrx h => Sys2Proof.Machine.execXTxeSrx h s
  | .stopSrx h => Sys2Proof.Machine.execStopSrx h s
  | .nackMrxStartSent h => Sys2Proof.Machine.execNackMrxStartSent h s
  | .xRxMrxStartSent h => Sys2Proof.Machine.execXRxMrxStartSent h s
  | .sbMrxStartSent h => Sys2Proof.Machine.execSbMrxStartSent h s
  | .xAddrMrxStartSent h => Sys2Proof.Machine.execXAddrMrxStartSent h s
  | .xTxeMrxStartSent h => Sys2Proof.Machine.execXTxeMrxStartSent h s
  | .xStopMrxStartSent h => Sys2Proof.Machine.execXStopMrxStartSent h s
  | .nackMrxAddrAcked h => Sys2Proof.Machine.execNackMrxAddrAcked h s
  | .xRxMrxAddrAcked h => Sys2Proof.Machine.execXRxMrxAddrAcked h s
  | .xSbMrxAddrAcked h => Sys2Proof.Machine.execXSbMrxAddrAcked h s
  | .addrMrxAddrAcked h => Sys2Proof.Machine.execAddrMrxAddrAcked h s
  | .xTxeMrxAddrAcked h => Sys2Proof.Machine.execXTxeMrxAddrAcked h s
  | .xStopMrxAddrAcked h => Sys2Proof.Machine.execXStopMrxAddrAcked h s
  | .nackMrx h => Sys2Proof.Machine.execNackMrx h s
  | .rxMrx h => Sys2Proof.Machine.execRxMrx h s
  | .xSbMrx h => Sys2Proof.Machine.execXSbMrx h s
  | .xAddrMrx h => Sys2Proof.Machine.execXAddrMrx h s
  | .xTxeMrx h => Sys2Proof.Machine.execXTxeMrx h s
  | .xStopMrx h => Sys2Proof.Machine.execXStopMrx h s
  | .nackStx h => Sys2Proof.Machine.execNackStx h s
  | .xRxStx h => Sys2Proof.Machine.execXRxStx h s
  | .xSbStx h => Sys2Proof.Machine.execXSbStx h s
  | .xAddrStx h => Sys2Proof.Machine.execXAddrStx h s
  | .txeStx h => Sys2Proof.Machine.execTxeStx h s
  | .xStopStx h => Sys2Proof.Machine.execXStopStx h s

end Sys2Proof.Machine
end

