-- ==== Sys2Proof/Machine/Step.lean ====
section
/-! DEFINITION. One step of the machine: whoever `nextTurn` says moves, moves. A command word of the script is decoded
and performed by `exec`. -/

namespace Sys2Proof.Machine

/-- The invoked word is decoded, admitted in its context, and performed. -/
def invokeWord (ctx : Context) (w : CmdWord) (s : State) : Host.Outcome State Fault Refusal :=
  match decodeCommand w with
  | .error e => .refused (.undecodable e)
  | .ok i => if admitted ctx i then exec i s else .refused .commandInInterruptContext

/-- A host command begins micro-step by micro-step; an operation that is a single step is performed. -/
def beginWord (w : CmdWord) (s : State) : Host.Outcome State Fault Refusal :=
  match decodeCommand w with
  | .error e => .refused (.undecodable e)
  | .ok i =>
    match beginHost i s with
    | some o => o
    | none => exec i s

/-- One step. -/
def step (s : State) : Host.Outcome State Fault Refusal :=
  match nextTurn s with
  | .idle => .next s
  | .release h => releaseHold h s
  | .environment h p rest => .next ((s.withInputs rest).present h p)
  | .micro rest => microStep (s.withInputs rest)
  | .invoke ctx w answers rest => invokeWord ctx w ((s.withInputs rest).presentAll answers)
  | .begin w rest => beginWord w (s.withInputs rest)

/-- The state with the instruction of a table word placed so that the very next step runs it (the host's fixed name):
notes/assumptions/5.md. A word of neither format changes nothing. -/
def State.withFetchWord (s : State) (nbits w : Nat) : State :=
  match rawOfTableWord nbits w with
  | some raw => s.placeRaw raw
  | none => s

end Sys2Proof.Machine
end

