-- ==== Sys2Proof/Safety.lean ====
section
/-! DEFINITION. What counts as a sound state and as a finished run, and the terms the statements are made in. -/

namespace Sys2Proof.Machine

/-- A sound session: the invariants of 10_state.md rules R25 and R31(b), canonical byte spaces, and the shadow field of a
live session (rule R30). -/
abbrev Session.Ok (x : Session) : Prop :=
  1 ≤ x.ringCap ∧ x.ring.map Prod.fst = List.range x.ringCap ∧ x.writeIndex < x.ringCap ∧ x.unreadCount ≤ x.ringCap ∧
  Memory.wf x.mtxBuffer = true ∧ Memory.wf x.mrxBuffer = true ∧ Memory.wf (x.space .stx) = true ∧ x.enabled = true

/-- The host command in progress acts on a live session, has something left to do, and a Pop in progress holds a count
that P1 could have read (40_ring_buffer.md rule R91). -/
def State.hostOk (s : State) : Bool :=
  match s.host with
  | none => true
  | some (.micros h todo) => (s.session? h).isSome && !todo.isEmpty
  | some (.popCount h) => (s.session? h).isSome
  | some (.popRead h u) =>
    match s.session? h with
    | some x => decide (1 ≤ u) && decide (u ≤ x.ringCap)
    | none => false
  | some (.popFinish h u _) =>
    match s.session? h with
    | some x => decide (1 ≤ u) && decide (u ≤ x.ringCap)
    | none => false

/-- While the core is held, the held session is live with `status = MTX` and `mtxCount = mtxSize`
(42_master_transmit.md rule R114). -/
def State.holdOk (s : State) : Bool :=
  match s.irqPhase with
  | .notInIrq => true
  | .spinTC h =>
    match s.session? h with
    | some x => decide (x.status = .mtx) && decide (x.mtxCount = x.mtxSize)
    | none => false

/-- The invariant of the machine: canonical tables, only identifiers valid for the target, sound sessions, a sound host
command in progress, a sound hold. -/
abbrev State.Inv (s : State) : Prop :=
  tableSorted s.registry = true ∧ tableSorted s.ports = true ∧ (∀ e ∈ s.ports, e.2 ≠ Port.quiet) ∧
  (∀ e ∈ s.registry, e.1 ∈ s.params.periphIds ∧ Session.Ok e.2) ∧ s.hostOk = true ∧ s.holdOk = true

/-- Outside the session and the port of one handle, and outside the hidden core state, the draw counter and the last
result, nothing has changed. -/
def SameElsewhere (h : Handle) (s t : State) : Prop :=
  (∀ h', h' ≠ h → t.session? h' = s.session? h' ∧ t.port h' = s.port h') ∧
  t.params = s.params ∧ t.host = s.host ∧ t.closedTraces = s.closedTraces ∧ t.inputs = s.inputs

/-- What a dispatch did that completed: a next state in which the session of the handle is `y`, its port is `p`, the hidden
core state is `irq`, and nothing else has changed. -/
def Leaves (h : Handle) (s : State) (o : Host.Outcome State Fault Refusal) (y : Session) (p : Port) (irq : IrqPhase) :
    Prop :=
  ∃ t, o = .next t ∧ t.session? h = some y ∧ t.port h = p ∧ t.irqPhase = irq ∧ SameElsewhere h s t ∧
    t.draws = s.draws ∧ t.result = s.result

/-- What a host command did that completed: a next state in which the session of the handle is `y`, the host has got the
result `r` (`none`: nothing), and nothing else has changed. -/
def Hands (h : Handle) (s : State) (o : Host.Outcome State Fault Refusal) (y : Session) (r : Option HostResult) : Prop :=
  ∃ t, o = .next t ∧ t.session? h = some y ∧ t.result = r ∧ t.port h = s.port h ∧ t.irqPhase = s.irqPhase ∧
    SameElsewhere h s t ∧ t.draws = s.draws

/-- The DSP operation `mk` has the row (mask, match) of spec/opcode_table.json: the words that decode to it are exactly
those that fit it (30_encoding.md rule R74). -/
def HasRow (mk : Handle → Instr) (mask fit : Nat) : Prop :=
  ∀ h dw, decodeDispatch h dw = .ok (mk h) ↔ dw.toNat &&& mask = fit

/-- Neither a byte space nor a ring field of the session has changed (40_ring_buffer.md: the ring is `ringCap`, `ring`,
`writeIndex`, `unreadCount`). -/
def SameBuffers (x y : Session) : Prop :=
  (∀ sp i, y.cell sp i = x.cell sp i) ∧ y.ringCap = x.ringCap ∧ y.writeIndex = x.writeIndex ∧
  y.unreadCount = x.unreadCount ∧ y.stxBuffer.isSome = x.stxBuffer.isSome

/-- The unread bytes of the ring, oldest first: the cells at `(writeIndex - unreadCount) mod ringCap` up to
`(writeIndex - 1) mod ringCap` (40_ring_buffer.md rule R92). -/
def Session.unread (x : Session) : List (Option Byte) :=
  (List.range x.unreadCount).map fun j => x.cell .ring (x.oldestIndex (x.unreadCount - j))

/-- The last `n` elements of a list. -/
def lastOf {α : Type} (n : Nat) (l : List α) : List α := l.drop (l.length - n)

/-- The writes of `status` an existing session can see (10_state.md rule R22, the transition table), as (from, to). -/
def statusEdge (a b : Status) : Bool :=
  match b with
  | .mtxStartSent | .mrxStartSent => true
  | .mtxAddrAcked => decide (a = .mtxStartSent)
  | .mrxAddrAcked => decide (a = .mrxStartSent)
  | .mtx => decide (a = .mtxAddrAcked)
  | .mrx => decide (a = .mrxAddrAcked)
  | .srx | .stx => decide (a = .idle)
  | .idle => true

/-- The micro-steps of the host command in progress, run until it returns, with nothing in between (at most `n`). -/
def runHost : Nat → State → Host.Outcome State Fault Refusal
  | 0, s => .next s
  | n + 1, s =>
    match s.host with
    | none => .next s
    | some _ =>
      match microStep s with
      | .next t => runHost n t
      | .fault r => .fault r
      | .refused r => .refused r

/-- The same operation `n` times, each from the state the one before left. -/
def execTimes (i : Instr) : Nat → State → Host.Outcome State Fault Refusal
  | 0, s => .next s
  | n + 1, s =>
    match exec i s with
    | .next t => execTimes i n t
    | .fault r => .fault r
    | .refused r => .refused r

/-- A slave receive of several bytes: before each `RX.SRX` the environment presents the next byte (rule R85). -/
def receiveBytes (h : Handle) : List Byte → State → Host.Outcome State Fault Refusal
  | [], s => .next s
  | b :: bs, s =>
    match exec (.rxSrx h) (s.present h { s.port h with data := b }) with
    | .next t => receiveBytes h bs t
    | .fault r => .fault r
    | .refused r => .refused r

/-- What successive Pops return. -/
def popResults (h : Handle) : Nat → State → List (Option HostResult)
  | 0, _ => []
  | n + 1, s =>
    match exec (.pop h) s with
    | .next t => t.result :: popResults h n t
    | .fault _ => []
    | .refused _ => []

/-- `ackNext` is NACK exactly when the next byte is the last one (43_master_receive.md rule R124). -/
abbrev Session.armed (x : Session) : Prop :=
  x.mrxCount < x.mrxSize ∧ (x.ackNext = .nack ↔ x.mrxCount + 1 = x.mrxSize)

/-- The script is exhausted (70_reset_and_hazards.md rule R205). -/
abbrev State.exhausted (s : State) : Prop := s.inputs = [] ∧ s.host = none

/-- A finished run: the script is exhausted, the core is in no handler, every session that exists is Idle (rule R205). -/
abbrev State.finished (s : State) : Prop :=
  s.exhausted ∧ s.irqPhase = .notInIrq ∧ ∀ e ∈ s.registry, e.2.status = .idle

/-- An open run: exhausted, in no handler, with a session in another status (rule R205). -/
abbrev State.opened (s : State) : Prop :=
  s.exhausted ∧ s.irqPhase = .notInIrq ∧ ∃ e ∈ s.registry, e.2.status ≠ .idle

/-- A hang: a handler is held and nothing of the script can release it (rule R205): `TC` is not presented, and what is left
of the script is commands and invocations that cannot begin (95_test_vectors.md VM2, the Pop of step 6). -/
abbrev State.hung (s : State) : Prop := s.irqPhase ≠ .notInIrq ∧ nextTurn s = .idle

/-- The next step performs the operation `i` at the state `u`, which is `s` with the input consumed and the answers of the
environment presented; an operation with micro-steps that is begun only begins. -/
def State.performs (s : State) (i : Instr) (u : State) : Prop :=
  ∃ w rest, decodeCommand w = .ok i ∧
    ((nextTurn s = .begin w rest ∧ u = s.withInputs rest) ∨
     ∃ ctx answers, nextTurn s = .invoke ctx w answers rest ∧ u = (s.withInputs rest).presentAll answers)

/-- The next step is an OnInterrupt of the handle that selects the event (rule R100). -/
def State.dispatches (s : State) (h : Handle) (e : Event) : Prop :=
  ∃ u, s.performs (.onInterrupt h) u ∧ selectEvent (u.port h).flags = some e

/-- The next step is this micro-step of a host command in progress on the handle (20_memory.md rule R63). -/
def State.runsMicro (s : State) (h : Handle) (m : Micro) : Prop :=
  ∃ todo rest, s.host = some (.micros h (m :: todo)) ∧ nextTurn s = .micro rest

/-- The next step is the rest of the held TXE handler of the handle, after the hold (rule R114). -/
def State.releases (s : State) (h : Handle) : Prop := nextTurn s = .release h

/-- The state under the other choice of `P_CROSS_NEST`. -/
def State.withCrossNest (s : State) (b : Bool) : State := { s with params := { s.params with crossNest := b } }

end Sys2Proof.Machine
end

