-- ==== Sys2Proof/Certificates/Slice0/Obligations.lean ====
section
/-! DEFINITION. The statements about the block, one definition each. Every statement quantifies over all states and over
all parameters (the field `params`); a premise about a session or a counter is the condition the cited rule puts on it. -/

open Sys2Proof Sys2Proof.Machine

/-- After power-on no session exists and the core is in no handler (R180). -/
def Obligations.PowerOnRegistryEmpty : Prop :=
  (∀ id, State.reset.session? id = none) ∧ State.reset.irqPhase = .notInIrq ∧ step State.reset = .next State.reset

/-- The machine invariant holds after power-on (10_state.md rule R39; 70_reset_and_hazards.md rule R180). -/
def Obligations.InvariantAtReset : Prop :=
  State.Inv State.reset

/-- Every step keeps the machine invariant (10_state.md rule R25; 10_state.md rule R31; 42_master_transmit.md rule R114; 20_memory.md rule R51). -/
def Obligations.StepKeepsInvariant : Prop :=
  ∀ s t : State, s.Inv → step s = .next t → t.Inv

/-- No step changes the parameters of the implementation (00_scope.md rule R7; notes/assumptions/3.md). -/
def Obligations.ParametersNeverChange : Prop :=
  ∀ s t : State, step s = .next t → t.params = s.params

/-- Decode and encode agree, and every word that decodes fits its row of the table (30_encoding.md rule R70; 30_encoding.md rule R73; 30_encoding.md rule R74; 30_encoding.md rule R75; 30_encoding.md rule R76). -/
def Obligations.DecodeAndEncodeAgree : Prop :=
  (∀ i : Instr, i.wellFormed = true → decode (encode i) = .ok i) ∧
  (∀ (raw : RawOp) (i : Instr), decode raw = .ok i →
    i.wellFormed = true ∧ raw.bits &&& i.tableMask = i.tableMatch ∧ (∀ w, raw = .cmd w → encode i = raw) ∧
    (∀ h dw, raw = .dsp h dw → i.handle = h ∧ ∃ w, encode i = .dsp h w))

/-- A dispatch word decodes to exactly the operation whose mask and match it fits (30_encoding.md rule R74; 30_encoding.md rule R79; spec/opcode_table.json). -/
def Obligations.DecoderFollowsTableRows : Prop :=
  ∀ (h : Handle) (dw : DispatchWord) (i : Instr),
    (decodeDispatch h dw = .ok i ↔
      (∃ w, encode i = .dsp h w) ∧ dw.toNat / 64 ≤ 8 ∧ dw.toNat &&& i.tableMask = i.tableMatch) ∧
    (decodeDispatch h dw = .error .notAStatus ↔ 8 < dw.toNat / 64)

/-- Words written out from the spec decode to the operations they stand for (30_encoding.md rule R75; 95_test_vectors.md VE1; 95_test_vectors.md VE2). -/
def Obligations.KnownWordsDecode : Prop :=
  ∀ h : Handle,
    decode (.dsp h 0b0011010000#10) = .ok (.txeMtx h) ∧ decode (.dsp h 0b0011010001#10) = .ok (.nackMtx h) ∧
    decode (.dsp h 0b0000001000#10) = .ok (.addrIdle h) ∧ decode (.dsp h 0b0001000100#10) = .ok (.sbMtxStartSent h) ∧
    decode (.dsp h 0b0100100010#10) = .ok (.rxSrx h) ∧ decode (.dsp h 0b0100100000#10) = .ok (.stopSrx h) ∧
    decode (.dsp h 0b0110001000#10) = .ok (.addrMrxAddrAcked h) ∧ decode (.dsp h 0b0111111110#10) = .ok (.rxMrx h) ∧
    decode (.dsp h 0b1000010000#10) = .ok (.txeStx h) ∧ decode (.dsp h 0b1000000001#10) = .ok (.nackStx h) ∧
    decode (.dsp h 0b0000100000#10) = .ok (.xStopIdle h) ∧ decode (.dsp h 0b0111000000#10) = .ok (.irqNone h) ∧
    decode (.cmd ⟨1#3, .handle h⟩) = .ok (.destroySession h) ∧ decode (.cmd ⟨4#3, .handle h⟩) = .ok (.pop h) ∧
    decode (.cmd ⟨5#3, .handle h⟩) = .ok (.onInterrupt h) ∧
    decode (.cmd ⟨2#3, .transmit h 0x20 [1#8]⟩) = .ok (.masterTransmit h 0x20 [1#8]) ∧
    decode (.cmd ⟨2#3, .transmit h 128 [1#8]⟩) = .error .addressNotSevenBits ∧
    decode (.cmd ⟨7#3, .handle h⟩) = .error .reservedCommand

/-- The address byte is the 7-bit address shifted left with the direction in bit 0 (R76). -/
def Obligations.AddressByteAssembly : Prop :=
  (∀ (a : Nat) (dir : BitVec 1), a < 128 → (addressByte a dir).toNat = 2 * a + dir.toNat) ∧
  writeDirection = 0#1 ∧ readDirection = 1#1 ∧
  (∀ (h : Handle) (a : Nat) (bytes : List Byte) (n : Nat) (s : State) (x : Session), 128 ≤ a → s.session? h = some x →
    exec (.masterTransmit h a bytes) s = .refused .addressNotSevenBits ∧
    exec (.masterReceive h a n) s = .refused .addressNotSevenBits ∧
    decodeCommand ⟨2#3, .transmit h a bytes⟩ = .error .addressNotSevenBits ∧
    decodeCommand ⟨3#3, .receive h a n⟩ = .error .addressNotSevenBits)

/-- A step performs the operation that the next word of the script decodes to (30_encoding.md rule R70; 30_encoding.md rule R84; 60_exceptions.md rule R172). -/
def Obligations.StepRunsDecodedWord : Prop :=
  ∀ (s : State) (ctx : Context) (w : CmdWord) (answers : List (Handle × Port)) (rest : List Input) (i : Instr),
    s.irqPhase = .notInIrq → s.inputs = .invoke ctx w answers :: rest → decodeCommand w = .ok i →
    (ctx = .application ∧ s.host = none ∨ ctx = .interrupt ∧ ∃ h, i = .onInterrupt h) →
    step s = exec i ((s.withInputs rest).presentAll answers)

/-- The instruction of a table word that withFetchWord placed is what the very next step performs (notes/assumptions/5.md; 41_event_dispatch.md rule R100). -/
def Obligations.FetchedWordRunsNext : Prop :=
  ∀ (s : State) (nbits w : Nat) (raw : RawOp) (i : Instr), rawOfTableWord nbits w = some raw → decode raw = .ok i →
    step (s.withFetchWord nbits w) = exec i ((s.withFetchWord nbits w).withInputs s.inputs)

/-- A host command issued in interrupt context is refused; OnInterrupt runs in either context (application context: log entry 23) (60_exceptions.md rule R172; 41_event_dispatch.md rule R106; notes/assumptions/23.md). -/
def Obligations.ContextRule : Prop :=
  ∀ (s : State) (w : CmdWord) (answers : List (Handle × Port)) (rest : List Input) (i : Instr),
    s.irqPhase = .notInIrq → decodeCommand w = .ok i →
    (s.inputs = .invoke .interrupt w answers :: rest →
      ((∀ h, i ≠ .onInterrupt h) → step s = .refused .commandInInterruptContext) ∧
      (∀ h, i = .onInterrupt h → step s = exec i ((s.withInputs rest).presentAll answers))) ∧
    (s.inputs = .invoke .application w answers :: rest → s.host = none →
      step s = exec i ((s.withInputs rest).presentAll answers))

/-- The selected event is the first of the priority list whose flag is set (R101). -/
def Obligations.EventPriorityFirstMatchWins : Prop :=
  (∀ (flags : FlagVec) (e : Event), selectEvent flags = some e ↔
    flags.getLsbD e.bit = true ∧ ∀ e' : Event, e'.bit < e.bit → flags.getLsbD e'.bit = false) ∧
  (∀ flags : FlagVec, selectEvent flags = none ↔ flags = 0#6) ∧
  Event.bit .nack < Event.bit .rx ∧ Event.bit .rx < Event.bit .sb ∧ Event.bit .sb < Event.bit .addr ∧
  Event.bit .addr < Event.bit .txe ∧ Event.bit .txe < Event.bit .stop ∧
  (∀ (h : Handle) (s : State) (x : Session) (e : Event), s.session? h = some x →
    selectEvent (s.port h).flags = some e → exec (.onInterrupt h) s = exec (dispatchInstr x.status e h) s ∧
    ∀ t, exec (.onInterrupt h) s = .next t → ∀ e', e' ≠ e → (t.port h).flag e' = (s.port h).flag e')

/-- OnInterrupt performs the operation its dispatch word decodes to (R100). -/
def Obligations.OnInterruptPerformsSelectedDispatch : Prop :=
  ∀ (h : Handle) (s : State),
    (∀ x, s.session? h = some x → ∃ i, decodeDispatch h (dispatchWord x.status (s.port h).flags) = .ok i ∧
      i.handle = h ∧ exec (.onInterrupt h) s = exec i s) ∧
    (s.session? h = none → exec (.onInterrupt h) s = .refused (.deadHandle h)) ∧
    decodeCommand ⟨5#3, .handle h⟩ = .ok (.onInterrupt h)

/-- OnInterrupt completes on every defined dispatch (41_event_dispatch.md rule R100; 30_encoding.md section 4). -/
def Obligations.OnInterruptCompletes : Prop :=
  ∀ (h : Handle) (s : State) (x : Session), s.session? h = some x →
    (selectEvent (s.port h).flags = none ∨
      ∃ e, selectEvent (s.port h).flags = some e ∧
        (x.status, e) ∈ ([(.idle, .addr), (.mtxStartSent, .nack), (.mtxStartSent, .sb), (.mtxAddrAcked, .nack), (.mtxAddrAcked, .addr), (.mtx, .nack),
          (.mtx, .txe), (.srx, .rx), (.srx, .stop), (.mrxStartSent, .nack), (.mrxStartSent, .sb), (.mrxAddrAcked, .nack),
          (.mrxAddrAcked, .addr), (.mrx, .nack), (.mrx, .rx), (.stx, .nack), (.stx, .txe)] : List (Status × Event))) →
    (x.status = .mtx → selectEvent (s.port h).flags = some .txe → fitsCounter s.params (x.mtxCount + 1) = true) →
    (x.status = .stx → selectEvent (s.port h).flags = some .txe → x.stxBuffer ≠ none →
      fitsCounter s.params (x.stxCount + 1) = true) →
    (x.status = .mrx → selectEvent (s.port h).flags = some .rx →
      fitsCounter s.params (x.mrxCount + 1) = true ∧ x.mrxCount < x.mrxSize) →
    ∃ t, exec (.onInterrupt h) s = .next t

/-- An invocation that finds no flag set changes nothing: an inference of the spec (rule R102, derived from rule R101) (41_event_dispatch.md rule R102; 41_event_dispatch.md rule R101; 30_encoding.md rule R82). -/
def Obligations.NoFlagNoEffect : Prop :=
  ∀ (h : Handle) (s : State) (x : Session), s.session? h = some x →
    exec (.irqNone h) s = .next s ∧
    ((s.port h).flags = 0#6 → exec (.onInterrupt h) s = .next s) ∧
    (∀ dw : DispatchWord, dw.toNat / 64 ≤ 8 → (decodeDispatch h dw = .ok (.irqNone h) ↔ dw.toNat &&& 0x03F = 0x000))

/-- Each of the 37 unspecified dispatches is refused with its status and event (R103; R81). -/
def Obligations.UnspecifiedDispatchesRefused : Prop :=
  ∀ (h : Handle) (s : State),
    ∀ p ∈ ([
      (.xNackIdle h, .idle, .nack), (.xRxIdle h, .idle, .rx), (.xSbIdle h, .idle, .sb),
      (.xTxeIdle h, .idle, .txe), (.xStopIdle h, .idle, .stop), (.xRxMtxStartSent h, .mtxStartSent, .rx),
      (.xAddrMtxStartSent h, .mtxStartSent, .addr), (.xTxeMtxStartSent h, .mtxStartSent, .txe), (.xStopMtxStartSent h, .mtxStartSent, .stop),
      (.xRxMtxAddrAcked h, .mtxAddrAcked, .rx), (.xSbMtxAddrAcked h, .mtxAddrAcked, .sb), (.xTxeMtxAddrAcked h, .mtxAddrAcked, .txe),
      (.xStopMtxAddrAcked h, .mtxAddrAcked, .stop), (.xRxMtx h, .mtx, .rx), (.xSbMtx h, .mtx, .sb),
      (.xAddrMtx h, .mtx, .addr), (.xStopMtx h, .mtx, .stop), (.xNackSrx h, .srx, .nack),
      (.xSbSrx h, .srx, .sb), (.xAddrSrx h, .srx, .addr), (.xTxeSrx h, .srx, .txe),
      (.xRxMrxStartSent h, .mrxStartSent, .rx), (.xAddrMrxStartSent h, .mrxStartSent, .addr), (.xTxeMrxStartSent h, .mrxStartSent, .txe),
      (.xStopMrxStartSent h, .mrxStartSent, .stop), (.xRxMrxAddrAcked h, .mrxAddrAcked, .rx), (.xSbMrxAddrAcked h, .mrxAddrAcked, .sb),
      (.xTxeMrxAddrAcked h, .mrxAddrAcked, .txe), (.xStopMrxAddrAcked h, .mrxAddrAcked, .stop), (.xSbMrx h, .mrx, .sb),
      (.xAddrMrx h, .mrx, .addr), (.xTxeMrx h, .mrx, .txe), (.xStopMrx h, .mrx, .stop),
      (.xRxStx h, .stx, .rx), (.xSbStx h, .stx, .sb), (.xAddrStx h, .stx, .addr),
      (.xStopStx h, .stx, .stop)] : List (Instr × Status × Event)),
      exec p.1 s = .refused (.unspecifiedDispatch p.2.1 p.2.2) ∧ dispatchInstr p.2.1 p.2.2 h = p.1 ∧
      ∀ dw, decodeDispatch h dw = .ok p.1 ↔ dw.toNat &&& p.1.tableMask = p.1.tableMatch

/-- CreateSession makes a new session with the creation values (R150). -/
def Obligations.CreateSessionMakesFreshSession : Prop :=
  (∀ (id : Handle) (cap : Nat) (cbs : Callbacks) (s : State), id ∈ s.params.periphIds → s.session? id = none →
    1 ≤ cap → fitsCounter s.params cap = true →
    ∃ t y, exec (.createSession id cap cbs) s = .next t ∧ t.session? id = some y ∧ t.result = some (.handle id) ∧
      y.status = .idle ∧ y.ringCap = cap ∧
      (∀ i, y.cell .ring i = if i < cap then some 0x00#8 else none) ∧ y.writeIndex = 0 ∧ y.unreadCount = 0 ∧
      y.stxBuffer = none ∧ y.callbacks = cbs ∧ y.busPeriodLength = s.params.busPeriod ∧
      y.ackNext = .ack ∧ y.stretch = .on ∧ y.enabled = true ∧ y.trace = [.pen, .stretchOn, .ackNext] ∧
      t.port id = s.port id ∧ t.irqPhase = s.irqPhase ∧ SameElsewhere id s t) ∧
  (∀ (id : Handle) (cap : Nat) (cbs : Callbacks) (s : State), id ∉ s.params.periphIds →
    exec (.createSession id cap cbs) s = .next (s.withResult (some (.error .invalidPeripheral)))) ∧
  (∀ (id : Handle) (cap : Nat) (cbs : Callbacks) (s : State) (x : Session), id ∈ s.params.periphIds →
    s.session? id = some x → exec (.createSession id cap cbs) s = .refused (.slotOccupied id)) ∧
  (∀ (id : Handle) (cbs : Callbacks) (s : State), id ∈ s.params.periphIds → s.session? id = none →
    exec (.createSession id 0 cbs) s = .refused .zeroCapacity) ∧
  (∀ (id : Handle) (cap : Nat) (cbs : Callbacks),
    decodeCommand ⟨0#3, .create id cap cbs⟩ = .ok (.createSession id cap cbs))

/-- An unknown identifier is returned as the error InvalidPeripheral and changes nothing (R161). -/
def Obligations.InvalidPeripheralIsAReturnValue : Prop :=
  (∀ (id : Handle) (cap : Nat) (cbs : Callbacks) (s : State), id ∉ s.params.periphIds →
    exec (.createSession id cap cbs) s = .next (s.withResult (some (.error .invalidPeripheral)))) ∧
  errorCode (some .invalidPeripheral) = 1 ∧
  (∀ (i : Instr) (s t : State) (e : HostError), exec i s = .next t → t.result = some (.error e) →
    t.result = s.result ∨ (e = .invalidPeripheral ∧ ∃ cap cbs, i = .createSession i.handle cap cbs ∧
      i.handle ∉ s.params.periphIds))

/-- DestroySession disables the peripheral, ends the trace with PDIS and frees the slot (R151). -/
def Obligations.DestroySessionReleasesSlot : Prop :=
  ∀ (h : Handle) (s : State),
    (∀ x, s.session? h = some x → ∃ t, exec (.destroySession h) s = .next t ∧ t.session? h = none ∧
      t.closedTraces = s.closedTraces ++ [(h, x.trace ++ [.pdis])] ∧ t.result = none ∧
      (∀ h', h' ≠ h → t.session? h' = s.session? h') ∧ (∀ h', t.port h' = s.port h') ∧
      t.params = s.params ∧ t.irqPhase = s.irqPhase ∧ t.host = s.host ∧ t.draws = s.draws ∧ t.inputs = s.inputs) ∧
    (s.session? h = none → exec (.destroySession h) s = .refused (.deadHandle h)) ∧
    decodeCommand ⟨1#3, .handle h⟩ = .ok (.destroySession h)

/-- Every operation but CreateSession on a handle that is not live is refused (R152). -/
def Obligations.DeadHandleRefusesEverything : Prop :=
  (∀ (i : Instr) (s : State), (∀ id cap cbs, i ≠ .createSession id cap cbs) → s.session? i.handle = none →
    ∃ r, exec i s = .refused r) ∧
  (∀ (h : Handle) (a n : Nat) (bytes : List Byte) (buf : Option (List Byte)) (s : State), s.session? h = none →
    ∀ i ∈ ([.destroySession h, .masterTransmit h a bytes, .masterReceive h a n, .pop h, .onInterrupt h,
      .setSlaveTransmitBuffer h buf] : List Instr), exec i s = .refused (.deadHandle h))

/-- Create, destroy, create on one identifier gives a fresh session (46_session_registry.md rule R153; 10_state.md rule R39; notes/assumptions/11.md). -/
def Obligations.RecreationGivesFreshSession : Prop :=
  (∀ (h : Handle) (cap : Nat) (cbs : Callbacks) (s : State) (x : Session), s.session? h = some x →
    h ∈ s.params.periphIds → 1 ≤ cap → fitsCounter s.params cap = true →
    ∃ t u y, exec (.destroySession h) s = .next t ∧ exec (.createSession h cap cbs) t = .next u ∧
      u.session? h = some y ∧ u.result = some (.handle h) ∧ y.status = .idle ∧ y.ringCap = cap ∧
      (∀ i, y.cell .ring i = if i < cap then some 0x00#8 else none) ∧ y.writeIndex = 0 ∧ y.unreadCount = 0 ∧
      y.stxBuffer = none ∧ y.callbacks = cbs ∧ y.ackNext = .ack ∧ y.stretch = .on ∧
      y.trace = [.pen, .stretchOn, .ackNext]) ∧
  (∀ (h : Handle) (cap : Nat) (cbs : Callbacks) (s s' t t' u u' : State), s.params = s'.params → s.draws = s'.draws →
    exec (.destroySession h) s = .next t → exec (.destroySession h) s' = .next t' →
    exec (.createSession h cap cbs) t = .next u → exec (.createSession h cap cbs) t' = .next u' →
    u.session? h = u'.session? h ∧ u.result = u'.result)

/-- MasterTransmit stores the transfer, enters MTX_StartSent and issues Start, whatever the status (R110). -/
def Obligations.MasterTransmitStartsTransfer : Prop :=
  ∀ (h : Handle) (a : Nat) (bytes : List Byte) (s : State) (x : Session), s.session? h = some x →
    (a < 128 → fitsCounter s.params bytes.length = true → bytes ≠ [] →
      Hands h s (exec (.masterTransmit h a bytes) s)
        { x with stretch := .off, mtxBuffer := Memory.ofBytes bytes, mtxSize := bytes.length, mtxCount := 0,
                 slaveAddress := addressByte a 0#1, status := .mtxStartSent,
                 trace := x.trace ++ [.stretchOff, .start] } none) ∧
    (a < 128 → fitsCounter s.params 0 = true → exec (.masterTransmit h a []) s = .next (s.withResult none)) ∧
    (128 ≤ a → exec (.masterTransmit h a bytes) s = .refused .addressNotSevenBits) ∧
    (∀ h', s.session? h' = none → exec (.masterTransmit h' a bytes) s = .refused (.deadHandle h')) ∧
    transmitMicros a bytes = [.disableClockStretch, .storeTransmit bytes, .zeroTransmitCount,
      .setAddress (addressByte a 0#1), .enterTransmit, .issueStart] ∧
    (a < 128 → decodeCommand ⟨2#3, .transmit h a bytes⟩ = .ok (.masterTransmit h a bytes))

/-- The start-sent handlers write slaveAddress and await the address acknowledgement (R111; R121). -/
def Obligations.StartSentWritesAddressByte : Prop :=
  HasRow .sbMtxStartSent 0x3C7 0x044 ∧ HasRow .sbMrxStartSent 0x3C7 0x144 ∧
  ∀ (h : Handle) (s : State) (x : Session), s.session? h = some x →
    Leaves h s (exec (.sbMtxStartSent h) s)
      { x with status := .mtxAddrAcked, trace := x.trace ++ [.w x.slaveAddress] } (s.port h) s.irqPhase ∧
    Leaves h s (exec (.sbMrxStartSent h) s)
      { x with status := .mrxAddrAcked, trace := x.trace ++ [.w x.slaveAddress] } (s.port h) s.irqPhase

/-- ADDR.MTX_AddrAcked enters MTX and clears ADDR last (R112). -/
def Obligations.AddressAckedEntersTransmit : Prop :=
  HasRow .addrMtxAddrAcked 0x3CF 0x088 ∧
  ∀ (h : Handle) (s : State) (x : Session), s.session? h = some x →
    Leaves h s (exec (.addrMtxAddrAcked h) s)
      { x with status := .mtx, trace := x.trace ++ [.clr .addr] } ((s.port h).clear .addr) s.irqPhase ∧
    ((s.port h).clear .addr).flag .addr = false ∧
    (∀ e, e ≠ .addr → ((s.port h).clear .addr).flag e = (s.port h).flag e)

/-- TXE.MTX writes the next byte and completes or holds on the last (R113). -/
def Obligations.TransmitNextByte : Prop :=
  HasRow .txeMtx 0x3DF 0x0D0 ∧
  ∀ (h : Handle) (s : State) (x : Session), s.session? h = some x → fitsCounter s.params (x.mtxCount + 1) = true →
    (∀ b, x.cell .mtx x.mtxCount = some b →
      (x.mtxCount + 1 ≠ x.mtxSize →
        Leaves h s (exec (.txeMtx h) s)
          { x with mtxCount := x.mtxCount + 1, trace := x.trace ++ [.w b] } (s.port h) s.irqPhase) ∧
      (x.mtxCount + 1 = x.mtxSize → (s.port h).tc = false →
        Leaves h s (exec (.txeMtx h) s)
          { x with mtxCount := x.mtxCount + 1, trace := x.trace ++ [.w b] } (s.port h) (.spinTC h) ∧
        ∀ t, exec (.txeMtx h) s = .next t →
          Leaves h (t.present h { s.port h with tc := true }) (step (t.present h { s.port h with tc := true }))
            { x with mtxCount := x.mtxCount + 1, stretch := .on, status := .idle,
                     trace := x.trace ++ [.w b] ++ [.stop, .stretchOn] ++
                       callItems x.callbacks .onMasterTransmitDone }
            { s.port h with tc := true } .notInIrq) ∧
      (x.mtxCount + 1 = x.mtxSize → (s.port h).tc = true →
        Leaves h s (exec (.txeMtx h) s)
          { x with mtxCount := x.mtxCount + 1, stretch := .on, status := .idle,
                   trace := x.trace ++ [.w b] ++ [.stop, .stretchOn] ++ callItems x.callbacks .onMasterTransmitDone }
          (s.port h) s.irqPhase))

/-- While held in SpinTC only TC releases the handler and nothing else of the block runs (R114). -/
def Obligations.HeldHandlerWaitsForTC : Prop :=
  ∀ (h : Handle) (s : State), s.irqPhase = .spinTC h →
    ((s.port h).tc = false → ∃ t, step s = .next t ∧ t.registry = s.registry ∧ t.closedTraces = s.closedTraces ∧
      t.result = s.result ∧ t.host = s.host ∧ t.draws = s.draws ∧ t.params = s.params ∧ t.irqPhase = s.irqPhase ∧
      (∀ i ∈ s.inputs, (∀ h' p, i ≠ .environment h' p) → i ∈ t.inputs)) ∧
    (∀ x, s.session? h = some x → (s.port h).tc = true →
      Leaves h s (step s)
        { x with stretch := .on, status := .idle,
                 trace := x.trace ++ [.stop, .stretchOn] ++ callItems x.callbacks .onMasterTransmitDone }
        (s.port h) .notInIrq) ∧
    (s.Inv → ∃ x, s.session? h = some x ∧ x.status = .mtx ∧ x.mtxCount = x.mtxSize)

/-- A run held in SpinTC that nothing left in the script can release stays where it is for ever (70_reset_and_hazards.md rule R190; 70_reset_and_hazards.md rule R205; 10_state.md rule R36; 95_test_vectors.md VM2). -/
def Obligations.HangNeverEnds : Prop :=
  ∀ (h : Handle) (s : State), s.irqPhase = .spinTC h →
    (s.hung ↔ (s.port h).tc = false ∧ ∀ i ∈ s.inputs, ∀ h' p, i ≠ .environment h' p) ∧
    (s.hung → ∀ n, Sys2Proof.core.run n s = .next s)

/-- The data phase of a master transmit writes every byte in order and ends in Idle, at once or after the hold for TC (42_master_transmit.md rule R113; 42_master_transmit.md rule R114; 20_memory.md rule R52; 95_test_vectors.md V1). -/
def Obligations.TransmitDataPhaseWritesAllBytes : Prop :=
  ∀ (h : Handle) (s : State) (x : Session) (bytes : List Byte), s.session? h = some x → bytes ≠ [] →
    x.mtxBuffer = Memory.ofBytes bytes → x.mtxSize = bytes.length → x.mtxCount = 0 →
    fitsCounter s.params bytes.length = true →
    ((s.port h).tc = true →
      Leaves h s (execTimes (.txeMtx h) bytes.length s)
        { x with mtxCount := bytes.length, stretch := .on, status := .idle,
                 trace := x.trace ++ bytes.map .w ++ [.stop, .stretchOn] ++ callItems x.callbacks .onMasterTransmitDone }
        (s.port h) s.irqPhase) ∧
    ((s.port h).tc = false →
      Leaves h s (execTimes (.txeMtx h) bytes.length s)
        { x with mtxCount := bytes.length, trace := x.trace ++ bytes.map .w } (s.port h) (.spinTC h) ∧
      ∀ t, execTimes (.txeMtx h) bytes.length s = .next t →
        Leaves h (t.present h { s.port h with tc := true }) (step (t.present h { s.port h with tc := true }))
          { x with mtxCount := bytes.length, stretch := .on, status := .idle,
                   trace := x.trace ++ bytes.map .w ++ [.stop, .stretchOn] ++
                     callItems x.callbacks .onMasterTransmitDone }
          { s.port h with tc := true } .notInIrq)

/-- MasterReceive sets the receive up, pre-arms NACK for one byte, and issues Start (R120). -/
def Obligations.MasterReceiveStartsTransfer : Prop :=
  ∀ (h : Handle) (a n : Nat) (s : State) (x : Session), s.session? h = some x →
    (a < 128 → fitsCounter s.params n = true → n ≠ 0 →
      Hands h s (exec (.masterReceive h a n) s)
        { x with stretch := .off, mrxBuffer := [], mrxSize := n, mrxCount := 0,
                 slaveAddress := addressByte a 1#1, status := .mrxStartSent,
                 ackNext := if n = 1 then .nack else x.ackNext,
                 trace := x.trace ++ ([.stretchOff] ++ (if n = 1 then [.nackNext] else []) ++ [.start]) } none) ∧
    (a < 128 → fitsCounter s.params 0 = true → exec (.masterReceive h a 0) s = .next (s.withResult none)) ∧
    (128 ≤ a → exec (.masterReceive h a n) s = .refused .addressNotSevenBits) ∧
    (∀ h', s.session? h' = none → exec (.masterReceive h' a n) s = .refused (.deadHandle h')) ∧
    receiveMicros a n = [.disableClockStretch, .newReceive n, .zeroReceiveCount, .setAddress (addressByte a 1#1),
      .preArmNack n, .enterReceive, .issueStart] ∧
    (a < 128 → decodeCommand ⟨3#3, .receive h a n⟩ = .ok (.masterReceive h a n))

/-- ADDR.MRX_AddrAcked pre-arms NACK for one byte, enters MRX and clears ADDR last (R122). -/
def Obligations.AddressAckedEntersReceive : Prop :=
  HasRow .addrMrxAddrAcked 0x3CF 0x188 ∧
  ∀ (h : Handle) (s : State) (x : Session), s.session? h = some x →
    Leaves h s (exec (.addrMrxAddrAcked h) s)
      { x with ackNext := if x.mrxSize = 1 then .nack else x.ackNext, status := .mrx,
               trace := x.trace ++ ((if x.mrxSize = 1 then [.nackNext] else []) ++ [.clr .addr]) }
      ((s.port h).clear .addr) s.irqPhase

/-- RX.MRX stores the byte, arms NACK one byte early, and completes on the last (R123). -/
def Obligations.ReceiveNextByte : Prop :=
  HasRow .rxMrx 0x3C3 0x1C2 ∧
  ∀ (h : Handle) (s : State) (x : Session), s.session? h = some x → x.mrxCount < x.mrxSize →
    fitsCounter s.params (x.mrxCount + 1) = true →
    (x.mrxCount + 1 < x.mrxSize - 1 →
      Leaves h s (exec (.rxMrx h) s)
        { x with mrxBuffer := x.mrxBuffer.write x.mrxCount (s.port h).data, mrxCount := x.mrxCount + 1,
                 trace := x.trace ++ [.r (s.port h).data] } (s.port h) s.irqPhase) ∧
    (x.mrxCount + 1 = x.mrxSize - 1 →
      Leaves h s (exec (.rxMrx h) s)
        { x with mrxBuffer := x.mrxBuffer.write x.mrxCount (s.port h).data, mrxCount := x.mrxCount + 1,
                 ackNext := .nack, trace := x.trace ++ [.r (s.port h).data, .nackNext] } (s.port h) s.irqPhase) ∧
    (x.mrxCount + 1 = x.mrxSize →
      Leaves h s (exec (.rxMrx h) s)
        { x with mrxBuffer := x.mrxBuffer.write x.mrxCount (s.port h).data, mrxCount := x.mrxCount + 1,
                 ackNext := .ack, stretch := .on, status := .idle,
                 trace := x.trace ++ [.r (s.port h).data, .stop, .stretchOn, .ackNext] ++
                   callItems x.callbacks .onMasterReceiveDone } (s.port h) s.irqPhase)

/-- RX.MRX with no cell left to store in is refused by name (the model's choice, log entry 12) (20_memory.md rule R54; 20_memory.md rule R57; 00_scope.md rule R11; notes/assumptions/12.md). -/
def Obligations.ReceiveOutsideBufferStops : Prop :=
  ∀ (h : Handle) (s : State) (x : Session), s.session? h = some x → x.mrxSize ≤ x.mrxCount →
    exec (.rxMrx h) s = .refused (.mrxOverrun h)

/-- In a master receive NACK is armed exactly when the next byte is the last (43_master_receive.md rule R124). -/
def Obligations.NackArmedExactlyOnLastByte : Prop :=
  (∀ (h : Handle) (a n : Nat) (s : State) (x : Session), s.session? h = some x → a < 128 →
    fitsCounter s.params n = true → n ≠ 0 → x.ackNext = .ack →
    ∃ t y, exec (.masterReceive h a n) s = .next t ∧ t.session? h = some y ∧ y.armed) ∧
  (∀ (h : Handle) (s : State) (x : Session), s.session? h = some x → x.armed →
    ∀ i ∈ ([.sbMrxStartSent h, .addrMrxAddrAcked h] : List Instr),
      ∃ t y, exec i s = .next t ∧ t.session? h = some y ∧ y.armed) ∧
  (∀ (h : Handle) (s : State) (x : Session), s.session? h = some x → x.armed →
    fitsCounter s.params (x.mrxCount + 1) = true →
    ∃ t y, exec (.rxMrx h) s = .next t ∧ t.session? h = some y ∧
      (x.mrxCount + 1 < x.mrxSize → y.armed ∧ y.status = x.status) ∧
      (x.mrxCount + 1 = x.mrxSize → y.ackNext = .ack ∧ y.status = .idle))

/-- ADDR.Idle enters SRX or STX by the direction bit (R130). -/
def Obligations.AddressMatchEntersSlaveRole : Prop :=
  HasRow .addrIdle 0x3CF 0x008 ∧
  ∀ (h : Handle) (s : State) (x : Session), s.session? h = some x →
    ((s.port h).dir = 0#1 →
      Leaves h s (exec (.addrIdle h) s)
        { x with status := .srx, trace := x.trace ++ [.dir 0#1, .clr .addr] } ((s.port h).clear .addr) s.irqPhase) ∧
    ((s.port h).dir = 1#1 →
      Leaves h s (exec (.addrIdle h) s)
        { x with stxCount := 0, status := .stx, trace := x.trace ++ [.dir 1#1, .clr .addr] }
        ((s.port h).clear .addr) s.irqPhase)

/-- RX.SRX pushes the received byte into the ring and counts unread up to the capacity (R90; R131). -/
def Obligations.SlaveReceivePushesByte : Prop :=
  HasRow .rxSrx 0x3C3 0x102 ∧
  ∀ (h : Handle) (s : State) (x : Session), s.session? h = some x →
    Leaves h s (exec (.rxSrx h) s)
      { x with ring := x.ring.write x.writeIndex (s.port h).data, writeIndex := (x.writeIndex + 1) % x.ringCap,
               unreadCount := min (x.unreadCount + 1) x.ringCap, trace := x.trace ++ [.r (s.port h).data] }
      (s.port h) s.irqPhase

/-- STOP.SRX clears STOP, notifies and returns to Idle (R132). -/
def Obligations.StopEndsSlaveReceive : Prop :=
  HasRow .stopSrx 0x3FF 0x120 ∧
  ∀ (h : Handle) (s : State) (x : Session), s.session? h = some x →
    Leaves h s (exec (.stopSrx h) s)
      { x with status := .idle, trace := x.trace ++ [.clr .stop] ++ callItems x.callbacks .onSlaveReceive }
      ((s.port h).clear .stop) s.irqPhase

/-- TXE.STX writes the next byte of stxBuffer, an unspecified byte beyond it, zero when unset (R133). -/
def Obligations.SlaveTransmitNextByte : Prop :=
  HasRow .txeStx 0x3DF 0x210 ∧
  ∀ (h : Handle) (s : State) (x : Session), s.session? h = some x →
    (x.stxBuffer = none →
      Leaves h s (exec (.txeStx h) s) { x with trace := x.trace ++ [.w 0x00#8] } (s.port h) s.irqPhase) ∧
    (∀ bytes, x.stxBuffer = some (Memory.ofBytes bytes) → fitsCounter s.params (x.stxCount + 1) = true →
      (∀ b, bytes[x.stxCount]? = some b →
        Leaves h s (exec (.txeStx h) s)
          { x with stxCount := x.stxCount + 1, trace := x.trace ++ [.w b] } (s.port h) s.irqPhase) ∧
      (bytes.length ≤ x.stxCount → ∃ (t : State) (b : Byte), exec (.txeStx h) s = .next t ∧
        t.session? h = some { x with stxCount := x.stxCount + 1, trace := x.trace ++ [.w b] } ∧
        t.port h = s.port h ∧ t.irqPhase = s.irqPhase ∧ t.result = s.result ∧ SameElsewhere h s t))

/-- SetSlaveTransmitBuffer installs the buffer, or unsets it, and touches nothing else (R134). -/
def Obligations.SetSlaveTransmitBufferInstalls : Prop :=
  ∀ (h : Handle) (bytes : Option (List Byte)) (s : State),
    (∀ x, s.session? h = some x →
      Hands h s (exec (.setSlaveTransmitBuffer h bytes) s) { x with stxBuffer := bytes.map Memory.ofBytes } none) ∧
    (s.session? h = none → exec (.setSlaveTransmitBuffer h bytes) s = .refused (.deadHandle h)) ∧
    slaveBufferMicros bytes = [.storeSlaveBuffer bytes] ∧
    decodeCommand ⟨6#3, .buffer h bytes⟩ = .ok (.setSlaveTransmitBuffer h bytes)

/-- NACK.STX clears NACK, writes the terminal zero byte, notifies and returns to Idle (R141). -/
def Obligations.NackEndsSlaveTransmit : Prop :=
  HasRow .nackStx 0x3C1 0x201 ∧
  ∀ (h : Handle) (s : State) (x : Session), s.session? h = some x →
    Leaves h s (exec (.nackStx h) s)
      { x with status := .idle, trace := x.trace ++ [.clr .nack, .w 0x00#8] ++ callItems x.callbacks .onSlaveTransmitDone }
      ((s.port h).clear .nack) s.irqPhase

/-- A NACK in a master status clears NACK, fires the role's callback and returns to Idle, and nothing else (45_nack_abort.md rule R140; 45_nack_abort.md rule R142; 45_nack_abort.md rule R143; 45_nack_abort.md rule R144; 45_nack_abort.md rule R145; 45_nack_abort.md rule R146; 45_nack_abort.md rule R147; 92_eei_decisions.md D11; 92_eei_decisions.md D12). -/
def Obligations.NackAbortsMasterTransfer : Prop :=
  HasRow .nackMtxStartSent 0x3C1 0x041 ∧ HasRow .nackMtxAddrAcked 0x3C1 0x081 ∧ HasRow .nackMtx 0x3C1 0x0C1 ∧
  HasRow .nackMrxStartSent 0x3C1 0x141 ∧ HasRow .nackMrxAddrAcked 0x3C1 0x181 ∧ HasRow .nackMrx 0x3C1 0x1C1 ∧
  ∀ (h : Handle) (s : State) (x : Session), s.session? h = some x → s.params.nackMasterStop = false →
    (∀ i ∈ ([.nackMtxStartSent h, .nackMtxAddrAcked h, .nackMtx h] : List Instr),
      Leaves h s (exec i s)
        { x with status := .idle, trace := x.trace ++ [.clr .nack] ++ callItems x.callbacks .onMasterTransmitDone }
        ((s.port h).clear .nack) s.irqPhase) ∧
    (∀ i ∈ ([.nackMrxStartSent h, .nackMrxAddrAcked h, .nackMrx h] : List Instr),
      Leaves h s (exec i s)
        { x with status := .idle, trace := x.trace ++ [.clr .nack] ++ callItems x.callbacks .onMasterReceiveDone }
        ((s.port h).clear .nack) s.irqPhase)

/-- With P_NACK_MASTER_STOP true a master abort also issues Stop and re-enables stretching (70_reset_and_hazards.md rule R196; 93_implementation_defined.md U21; notes/assumptions/16.md). -/
def Obligations.NackAbortCanRestoreStretching : Prop :=
  ∀ (h : Handle) (s : State) (x : Session), s.session? h = some x → s.params.nackMasterStop = true →
    ∀ i ∈ ([(.nackMtxStartSent h, .onMasterTransmitDone), (.nackMtxAddrAcked h, .onMasterTransmitDone),
      (.nackMtx h, .onMasterTransmitDone), (.nackMrxStartSent h, .onMasterReceiveDone),
      (.nackMrxAddrAcked h, .onMasterReceiveDone), (.nackMrx h, .onMasterReceiveDone)] : List (Instr × CallbackName)),
      Leaves h s (exec i.1 s)
        { x with status := .idle, stretch := .on,
                 trace := x.trace ++ [.clr .nack, .stop, .stretchOn] ++ callItems x.callbacks i.2 }
        ((s.port h).clear .nack) s.irqPhase

/-- Pop returns the oldest unread byte, or (false, 0x00) when nothing is unread (R91). -/
def Obligations.PopReturnsOldestByte : Prop :=
  ∀ (h : Handle) (s : State),
    (∀ x, s.session? h = some x → Session.Ok x → 1 ≤ x.unreadCount →
      ∃ b, x.cell .ring (subMod x.writeIndex x.unreadCount x.ringCap) = some b ∧
        Hands h s (exec (.pop h) s) { x with unreadCount := x.unreadCount - 1 } (some (.popped true b))) ∧
    (∀ x, s.session? h = some x → x.unreadCount = 0 →
      exec (.pop h) s = .next (s.withResult (some (.popped false 0x00#8)))) ∧
    (s.session? h = none → exec (.pop h) s = .refused (.deadHandle h)) ∧
    (∀ x, s.session? h = some x → s.host = some (.popCount h) → microStep s = .next
      (if x.unreadCount = 0 then s.hostReturns (some (.popped false 0x00#8))
       else s.withHost (some (.popRead h x.unreadCount)))) ∧
    (∀ x u b, s.session? h = some x → s.host = some (.popRead h u) →
      x.cell .ring (subMod x.writeIndex u x.ringCap) = some b →
      ∃ t, microStep s = .next t ∧ t.host = some (.popFinish h u b) ∧ t.session? h = some x ∧ t.result = s.result) ∧
    (∀ x u b, s.session? h = some x → s.host = some (.popFinish h u b) →
      ∃ t, microStep s = .next t ∧ t.host = none ∧ t.session? h = some { x with unreadCount := u - 1 } ∧
        t.result = some (.popped true b)) ∧
    decodeCommand ⟨4#3, .handle h⟩ = .ok (.pop h)

/-- PUSH appends at the young end and drops the oldest when full; Pop takes the oldest: an inference of the spec from rules R90 and R91 (40_ring_buffer.md rule R92; 40_ring_buffer.md rule R90; 40_ring_buffer.md rule R91). -/
def Obligations.UnreadBytesFollowPositionLaw : Prop :=
  (∀ (x : Session) (b : Byte), Session.Ok x → Session.Ok (x.push b) ∧
    (x.push b).unread = lastOf x.ringCap (x.unread ++ [some b])) ∧
  (∀ (h : Handle) (s : State) (x : Session), s.session? h = some x → Session.Ok x → 1 ≤ x.unreadCount →
    ∃ t y b, exec (.pop h) s = .next t ∧ t.session? h = some y ∧ t.result = some (.popped true b) ∧
      x.unread = some b :: y.unread)

/-- Pushing N bytes into an empty ring and draining gives the last capacity bytes in order, then empty (40_ring_buffer.md rule R93; 40_ring_buffer.md rule R92). -/
def Obligations.RingFifoLaw : Prop :=
  ∀ (h : Handle) (s : State) (x : Session) (bytes : List Byte), s.session? h = some x → Session.Ok x →
    x.unreadCount = 0 →
    ∃ t, receiveBytes h bytes s = .next t ∧
      popResults h (min bytes.length x.ringCap + 1) t =
        (lastOf x.ringCap bytes).map (fun b => some (.popped true b)) ++ [some (.popped false 0x00#8)]

/-- A push inside a Pop makes exactly one byte undelivered (70_reset_and_hazards.md rule R187; 40_ring_buffer.md rule R91; notes/assumptions/31.md). -/
def Obligations.PopRaceLosesOneByte : Prop :=
  ∀ (h : Handle) (s : State) (x : Session) (d : Byte), s.session? h = some x → Session.Ok x → 1 ≤ x.unreadCount →
    s.host = some (.popCount h) → (s.port h).data = d →
    (∃ s1 s2 s3 s4 y b, microStep s = .next s1 ∧ exec (.rxSrx h) s1 = .next s2 ∧ microStep s2 = .next s3 ∧
      microStep s3 = .next s4 ∧ s4.host = none ∧ s4.result = some (.popped true b) ∧ s4.session? h = some y ∧
      (x.unread ++ [some d]).tail = some b :: y.unread) ∧
    (∃ s1 s2 s3 s4 y b c, microStep s = .next s1 ∧ microStep s1 = .next s2 ∧ exec (.rxSrx h) s2 = .next s3 ∧
      microStep s3 = .next s4 ∧ s4.host = none ∧ s4.result = some (.popped true b) ∧ s4.session? h = some y ∧
      x.unread ++ [some d] = some b :: c :: y.unread)

/-- A host command run micro-step by micro-step without interruption is the command (20_memory.md rule R63; 92_eei_decisions.md D22). -/
def Obligations.UninterruptedMicroStepsAreTheCommand : Prop :=
  ∀ (i : Instr) (s t : State), s.host = none → beginHost i s ≠ none → exec i s = .next t →
    ∃ s0, beginHost i s = some (.next s0) ∧ runHost 8 s0 = .next t

/-- An operation changes no other session and no other port (20_memory.md rule R65; 41_event_dispatch.md rule R107). -/
def Obligations.OperationsTouchOnlyTheirSession : Prop :=
  ∀ (i : Instr) (s t : State), exec i s = .next t →
    (∀ h, h ≠ i.handle → t.session? h = s.session? h ∧ t.port h = s.port h) ∧
    t.params = s.params ∧ t.host = s.host ∧ t.inputs = s.inputs ∧
    ((∀ h, i ≠ .destroySession h) → t.closedTraces = s.closedTraces)

/-- What an operation does depends on no other session (20_memory.md rule R65; 41_event_dispatch.md rule R107; notes/assumptions/11.md). -/
def Obligations.OperationsReadOnlyTheirSession : Prop :=
  (∀ (i : Instr) (s s' : State), s.params = s'.params → s.session? i.handle = s'.session? i.handle →
    s.port i.handle = s'.port i.handle → s.draws = s'.draws → s.irqPhase = s'.irqPhase → s.result = s'.result →
    match exec i s, exec i s' with
    | .next t, .next t' => t.session? i.handle = t'.session? i.handle ∧ t.port i.handle = t'.port i.handle ∧
        t.draws = t'.draws ∧ t.irqPhase = t'.irqPhase ∧ t.result = t'.result
    | .fault r, .fault r' => r = r'
    | .refused r, .refused r' => r = r'
    | _, _ => False) ∧
  (∀ (i : Instr) (s t : State), exec i s = .next t → ∀ h, h ≠ i.handle → t.session? h = s.session? h) ∧
  (∀ (h : Handle) (s t : State), s.irqPhase = .spinTC h → (s.port h).tc = false → step s = .next t →
    t.registry = s.registry ∧ t.host = s.host)

/-- Only CreateSession and DestroySession change which handles are live (10_state.md rule R20). -/
def Obligations.OnlyRegistryCommandsChangeLiveness : Prop :=
  (∀ (i : Instr) (s t : State), exec i s = .next t → (∀ id cap cbs, i ≠ .createSession id cap cbs) →
    (∀ h, i ≠ .destroySession h) → ∀ h, (t.session? h).isSome = (s.session? h).isSome) ∧
  (∀ s t : State, step s = .next t → (∀ id cap cbs u, ¬ s.performs (.createSession id cap cbs) u) →
    (∀ h u, ¬ s.performs (.destroySession h) u) → ∀ h, (t.session? h).isSome = (s.session? h).isSome)

/-- A step changes a status only along the transition graph (10_state.md rule R22). -/
def Obligations.StatusFollowsTransitionGraph : Prop :=
  ∀ (s t : State) (h : Handle) (x y : Session), step s = .next t → s.session? h = some x → t.session? h = some y →
    y.status = x.status ∨ statusEdge x.status y.status = true

/-- Transfer counters never decrease within a transfer (10_state.md rule R31). -/
def Obligations.TransferCountersOnlyRestartAtTransferStart : Prop :=
  (∀ (i : Instr) (s t : State) (h : Handle) (x y : Session), exec i s = .next t → s.session? h = some x →
    t.session? h = some y →
    (x.mtxCount ≤ y.mtxCount ∨ (y.mtxCount = 0 ∧ ∃ a bytes, i = .masterTransmit h a bytes)) ∧
    (x.mrxCount ≤ y.mrxCount ∨ (y.mrxCount = 0 ∧ ∃ a n, i = .masterReceive h a n)) ∧
    (x.stxCount ≤ y.stxCount ∨ (y.stxCount = 0 ∧ y.status = .stx ∧
      (i = .addrIdle h ∨ (i = .onInterrupt h ∧ x.status = .idle))))) ∧
  (∀ (s t : State) (h : Handle) (x y : Session), step s = .next t → s.session? h = some x → t.session? h = some y →
    (x.mtxCount ≤ y.mtxCount ∨ (y.mtxCount = 0 ∧
      ((∃ a bytes u, s.performs (.masterTransmit h a bytes) u) ∨ s.runsMicro h .zeroTransmitCount))) ∧
    (x.mrxCount ≤ y.mrxCount ∨ (y.mrxCount = 0 ∧
      ((∃ a n u, s.performs (.masterReceive h a n) u) ∨ s.runsMicro h .zeroReceiveCount))) ∧
    (x.stxCount ≤ y.stxCount ∨ (y.stxCount = 0 ∧ y.status = .stx ∧ x.status = .idle ∧ s.dispatches h .addr)))

/-- Callbacks and capacity are fixed for the session's life; only the master commands write slaveAddress (10_state.md rule R29; 10_state.md rule R25; 10_state.md rule R24; 10_state.md rule R23). -/
def Obligations.SessionConstantsAndAddressWriters : Prop :=
  (∀ (i : Instr) (s t : State) (h : Handle) (x y : Session), exec i s = .next t → s.session? h = some x →
    t.session? h = some y →
    y.callbacks = x.callbacks ∧ y.ringCap = x.ringCap ∧ y.busPeriodLength = x.busPeriodLength ∧
    y.enabled = x.enabled ∧
    (y.slaveAddress = x.slaveAddress ∨ (∃ a bytes, i = .masterTransmit h a bytes) ∨ ∃ a n, i = .masterReceive h a n)) ∧
  (∀ (s t : State) (h : Handle) (x y : Session), step s = .next t → s.session? h = some x → t.session? h = some y →
    y.callbacks = x.callbacks ∧ y.ringCap = x.ringCap ∧ y.busPeriodLength = x.busPeriodLength ∧
    y.enabled = x.enabled ∧
    (y.slaveAddress = x.slaveAddress ∨
      (∃ a bytes u, s.performs (.masterTransmit h a bytes) u ∧ y.slaveAddress = addressByte a 0#1) ∨
      (∃ a n u, s.performs (.masterReceive h a n) u ∧ y.slaveAddress = addressByte a 1#1) ∨
      s.runsMicro h (.setAddress y.slaveAddress)))

/-- Clock stretching and the ACK arm change only where the table of rule R30 says (10_state.md rule R30). -/
def Obligations.ShadowFieldWriters : Prop :=
  (∀ (i : Instr) (s t : State) (h : Handle) (x y : Session), exec i s = .next t → s.session? h = some x →
    t.session? h = some y → i ≠ .onInterrupt h →
    (y.stretch = x.stretch ∨
      (y.stretch = .off ∧ ((∃ a bytes, i = .masterTransmit h a bytes) ∨ ∃ a n, i = .masterReceive h a n)) ∨
      (y.stretch = .on ∧ (i = .txeMtx h ∨ i = .rxMrx h ∨ (s.params.nackMasterStop = true ∧
        i ∈ ([.nackMtxStartSent h, .nackMtxAddrAcked h, .nackMtx h, .nackMrxStartSent h, .nackMrxAddrAcked h,
          .nackMrx h] : List Instr))))) ∧
    (y.ackNext = x.ackNext ∨ (y.ackNext = .nack ∧ ((∃ a, i = .masterReceive h a 1) ∨ i = .addrMrxAddrAcked h)) ∨
      i = .rxMrx h)) ∧
  (∀ (s t : State) (h : Handle) (x y : Session), step s = .next t → s.session? h = some x → t.session? h = some y →
    (y.stretch = x.stretch ∨
      (y.stretch = .off ∧ ((∃ a bytes u, s.performs (.masterTransmit h a bytes) u) ∨
        (∃ a n u, s.performs (.masterReceive h a n) u) ∨ s.runsMicro h .disableClockStretch)) ∨
      (y.stretch = .on ∧ (s.releases h ∨ (s.dispatches h .txe ∧ x.status = .mtx ∧ x.mtxCount + 1 = x.mtxSize) ∨
        (s.dispatches h .rx ∧ x.status = .mrx ∧ x.mrxCount + 1 = x.mrxSize) ∨
        (s.params.nackMasterStop = true ∧ s.dispatches h .nack ∧
          x.status ∈ ([.mtxStartSent, .mtxAddrAcked, .mtx, .mrxStartSent, .mrxAddrAcked, .mrx] : List Status))))) ∧
    (y.ackNext = x.ackNext ∨
      (y.ackNext = .nack ∧ ((∃ a u, s.performs (.masterReceive h a 1) u) ∨ s.runsMicro h (.preArmNack 1) ∨
        (s.dispatches h .addr ∧ x.status = .mrxAddrAcked ∧ x.mrxSize = 1) ∨
        (s.dispatches h .rx ∧ x.status = .mrx ∧ x.mrxCount + 1 = x.mrxSize - 1))) ∨
      (y.ackNext = .ack ∧ s.dispatches h .rx ∧ x.status = .mrx ∧ x.mrxCount + 1 = x.mrxSize)))

/-- A trace is only ever appended to (10_state.md rule R38; 00_scope.md rule R12). -/
def Obligations.TracesOnlyGrow : Prop :=
  (∀ (i : Instr) (s t : State), exec i s = .next t → s.closedTraces <+: t.closedTraces ∧
    ∀ (h : Handle) (x y : Session), s.session? h = some x → t.session? h = some y → x.trace <+: y.trace) ∧
  (∀ (s t : State), step s = .next t → s.closedTraces <+: t.closedTraces ∧
    ∀ (h : Handle) (x y : Session), s.session? h = some x → t.session? h = some y → x.trace <+: y.trace)

/-- Frame of the handlers that store no byte: every cell of every space reads as before (20_memory.md rule R50; 20_memory.md rule R60; 41_event_dispatch.md rule R107). -/
def Obligations.HandlersThatStoreNothing : Prop :=
  ∀ (h : Handle) (s t : State) (x y : Session),
    ∀ i ∈ ([.irqNone h, .addrIdle h, .nackMtxStartSent h, .sbMtxStartSent h, .nackMtxAddrAcked h,
      .addrMtxAddrAcked h, .nackMtx h, .txeMtx h, .stopSrx h, .nackMrxStartSent h,
      .sbMrxStartSent h, .nackMrxAddrAcked h, .addrMrxAddrAcked h, .nackMrx h, .nackStx h, .txeStx h] : List Instr),
    exec i s = .next t → s.session? h = some x → t.session? h = some y →
    SameBuffers x y ∧ y.mtxSize = x.mtxSize ∧ y.mrxSize = x.mrxSize ∧ y.slaveAddress = x.slaveAddress ∧
    y.callbacks = x.callbacks ∧ y.busPeriodLength = x.busPeriodLength ∧ y.enabled = x.enabled ∧
    y.mrxCount = x.mrxCount ∧ (i ≠ .txeMtx h → y.mtxCount = x.mtxCount) ∧
    (i ≠ .txeStx h → i ≠ .addrIdle h → y.stxCount = x.stxCount) ∧ SameElsewhere h s t

/-- Frame of the operations that store bytes: every other cell reads as before (20_memory.md rule R50; 20_memory.md rule R51; 20_memory.md rule R54). -/
def Obligations.StoresGoOnlyWhereTheyShould : Prop :=
  ∀ (h : Handle) (s t : State) (x y : Session), s.session? h = some x → t.session? h = some y →
    (exec (.rxSrx h) s = .next t → y.cell .ring x.writeIndex = some (s.port h).data ∧
      ∀ sp i, ¬ (sp = .ring ∧ i = x.writeIndex) → y.cell sp i = x.cell sp i) ∧
    (exec (.rxMrx h) s = .next t → y.cell .mrx x.mrxCount = some (s.port h).data ∧
      ∀ sp i, ¬ (sp = .mrx ∧ i = x.mrxCount) → y.cell sp i = x.cell sp i) ∧
    (∀ a bytes, exec (.masterTransmit h a bytes) s = .next t → bytes ≠ [] →
      (∀ i, y.cell .mtx i = bytes[i]?) ∧ ∀ sp i, sp ≠ .mtx → y.cell sp i = x.cell sp i) ∧
    (∀ a n, exec (.masterReceive h a n) s = .next t → n ≠ 0 →
      (∀ i, y.cell .mrx i = none) ∧ ∀ sp i, sp ≠ .mrx → y.cell sp i = x.cell sp i) ∧
    (∀ bytes, exec (.setSlaveTransmitBuffer h bytes) s = .next t →
      (∀ i, y.cell .stx i = (bytes.getD [])[i]?) ∧ ∀ sp i, sp ≠ .stx → y.cell sp i = x.cell sp i) ∧
    (exec (.pop h) s = .next t → ∀ sp i, y.cell sp i = x.cell sp i)

/-- With a finite P_CNT_W, a size or counter that reaches 2^P_CNT_W is refused (00_scope.md rule R7; 92_eei_decisions.md D21; 93_implementation_defined.md U14). -/
def Obligations.CounterWidthRefused : Prop :=
  ∀ (h : Handle) (s : State) (w : Nat), s.params.cntWidth = some w →
    (∀ x a n, s.session? h = some x → a < 128 → 2 ^ w ≤ n →
      exec (.masterReceive h a n) s = .refused .counterWidth) ∧
    (∀ x a bytes, s.session? h = some x → a < 128 → 2 ^ w ≤ bytes.length →
      exec (.masterTransmit h a bytes) s = .refused .counterWidth) ∧
    (∀ cap cbs, h ∈ s.params.periphIds → s.session? h = none → 2 ^ w ≤ cap →
      exec (.createSession h cap cbs) s = .refused .counterWidth) ∧
    (∀ x m, s.session? h = some x → x.stxBuffer = some m → 2 ^ w ≤ x.stxCount + 1 →
      exec (.txeStx h) s = .refused .counterWidth) ∧
    (∀ x, s.session? h = some x → 2 ^ w ≤ x.mtxCount + 1 → exec (.txeMtx h) s = .refused .counterWidth) ∧
    (∀ x, s.session? h = some x → x.mrxCount < x.mrxSize → 2 ^ w ≤ x.mrxCount + 1 →
      exec (.rxMrx h) s = .refused .counterWidth)

/-- TXE.MTX with no cell of MTX at mtxCount writes some byte and goes on as ever (the model's choice, log entry 13) (20_memory.md rule R52; 42_master_transmit.md rule R113; 00_scope.md rule R9; notes/assumptions/13.md). -/
def Obligations.TransmitWithoutCell : Prop :=
  ∀ (h : Handle) (s : State) (x : Session), s.session? h = some x → fitsCounter s.params (x.mtxCount + 1) = true →
    x.cell .mtx x.mtxCount = none →
    ∃ (t : State) (y : Session) (b : Byte), exec (.txeMtx h) s = .next t ∧ t.session? h = some y ∧
      t.port h = s.port h ∧ t.result = s.result ∧ SameElsewhere h s t ∧
      (x.mtxCount + 1 ≠ x.mtxSize → t.irqPhase = s.irqPhase ∧
        y = { x with mtxCount := x.mtxCount + 1, trace := x.trace ++ [.w b] }) ∧
      (x.mtxCount + 1 = x.mtxSize → (s.port h).tc = false → t.irqPhase = .spinTC h ∧
        y = { x with mtxCount := x.mtxCount + 1, trace := x.trace ++ [.w b] }) ∧
      (x.mtxCount + 1 = x.mtxSize → (s.port h).tc = true → t.irqPhase = s.irqPhase ∧
        y = { x with mtxCount := x.mtxCount + 1, stretch := .on, status := .idle,
                     trace := x.trace ++ [.w b] ++ [.stop, .stretchOn] ++
                       callItems x.callbacks .onMasterTransmitDone })

/-- One micro-step of a host command changes its part of the session and nothing else (20_memory.md rule R63; 70_reset_and_hazards.md rule R200; 42_master_transmit.md rule R110; 43_master_receive.md rule R120; 44_slave.md rule R134). -/
def Obligations.EachMicroStepLeavesItsPart : Prop :=
  ∀ (h : Handle) (m : Micro) (todo : List Micro) (s : State) (x : Session), s.session? h = some x →
    s.host = some (.micros h (m :: todo)) →
    (∀ rest, s.irqPhase = .notInIrq → s.inputs = .micro :: rest → step s = microStep (s.withInputs rest)) ∧
    ∃ t, microStep s = .next t ∧
      t.host = (if todo = [] then none else some (.micros h todo)) ∧
      t.result = (if todo = [] then none else s.result) ∧
      t.session? h = some (match m with
        | .disableClockStretch => { x with stretch := .off, trace := x.trace ++ [.stretchOff] }
        | .storeTransmit bytes => { x with mtxBuffer := Memory.ofBytes bytes, mtxSize := bytes.length }
        | .zeroTransmitCount => { x with mtxCount := 0 }
        | .newReceive size => { x with mrxBuffer := [], mrxSize := size }
        | .zeroReceiveCount => { x with mrxCount := 0 }
        | .setAddress b => { x with slaveAddress := b }
        | .preArmNack size => if size = 1 then { x with ackNext := .nack, trace := x.trace ++ [.nackNext] } else x
        | .enterTransmit => { x with status := .mtxStartSent }
        | .enterReceive => { x with status := .mrxStartSent }
        | .issueStart => { x with trace := x.trace ++ [.start] }
        | .storeSlaveBuffer bytes => { x with stxBuffer := bytes.map Memory.ofBytes }) ∧
      (∀ h', h' ≠ h → t.session? h' = s.session? h') ∧ (∀ h', t.port h' = s.port h') ∧ t.irqPhase = s.irqPhase ∧
      t.draws = s.draws ∧ t.params = s.params ∧ t.closedTraces = s.closedTraces ∧ t.inputs = s.inputs

/-- No step depends on P_CROSS_NEST (20_memory.md rule R65; 00_scope.md rule R7; 92_eei_decisions.md D28; notes/assumptions/21.md). -/
def Obligations.NoRuleDependsOnCrossNesting : Prop :=
  ∀ (s : State) (b : Bool), step (s.withCrossNest b) =
    match step s with
    | .next t => .next (t.withCrossNest b)
    | .fault r => .fault r
    | .refused r => .refused r
end

