-- ==== Sys2Proof/Laws/Table.lean ====
section
/-! SUPPORT. What the table operations do, and that each keeps the canonical form. -/

namespace Sys2Proof.Machine

variable {β : Type}

@[simp] theorem tableFind_insert_same (k : Nat) (v : β) (t : List (Nat × β)) :
    tableFind k (tableInsert k v t) = some v := by
  induction t with
  | nil => simp [tableInsert, tableFind]
  | cons e t ih =>
    obtain ⟨j, w⟩ := e
    simp only [tableInsert]
    split
    · simp [tableFind]
    · split
      · simp [tableFind]
      · have : j ≠ k := by omega
        simp [tableFind, this, ih]

@[simp] theorem tableFind_insert_ne {j k : Nat} (v : β) (t : List (Nat × β)) (h : j ≠ k) :
    tableFind j (tableInsert k v t) = tableFind j t := by
  induction t with
  | nil => simp [tableInsert, tableFind, Ne.symm h]
  | cons e t ih =>
    obtain ⟨i, w⟩ := e
    simp only [tableInsert]
    split
    · simp [tableFind, Ne.symm h]
    · split
      · subst_vars; simp [tableFind, Ne.symm h]
      · simp only [tableFind, ih]

theorem tableFind_insert (j k : Nat) (v : β) (t : List (Nat × β)) :
    tableFind j (tableInsert k v t) = if j = k then some v else tableFind j t := by
  by_cases h : j = k
  · subst h; simp
  · simp [h]

@[simp] theorem tableFind_erase_same (k : Nat) (t : List (Nat × β)) : tableFind k (tableErase k t) = none := by
  induction t with
  | nil => rfl
  | cons e t ih =>
    obtain ⟨j, w⟩ := e
    simp only [tableErase]
    split
    · exact ih
    · rename_i hj; simp [tableFind, hj, ih]

@[simp] theorem tableFind_erase_ne {j k : Nat} (t : List (Nat × β)) (h : j ≠ k) :
    tableFind j (tableErase k t) = tableFind j t := by
  induction t with
  | nil => rfl
  | cons e t ih =>
    obtain ⟨i, w⟩ := e
    simp only [tableErase]
    split
    · subst_vars; simp [tableFind, Ne.symm h, ih]
    · simp only [tableFind, ih]

theorem tableAbove_iff (k : Nat) (t : List (Nat × β)) : tableAbove k t = true ↔ ∀ e ∈ t, k < e.1 := by
  induction t with
  | nil => simp [tableAbove]
  | cons e t ih => obtain ⟨j, w⟩ := e; simp [tableAbove, ih]

/-- The entries of a table after an insertion. -/
theorem mem_tableInsert {k : Nat} {v : β} {t : List (Nat × β)} {e : Nat × β} (h : e ∈ tableInsert k v t) :
    e = (k, v) ∨ e ∈ t := by
  induction t with
  | nil => simpa [tableInsert] using h
  | cons a t ih =>
    obtain ⟨j, w⟩ := a
    simp only [tableInsert] at h
    split at h
    · simpa using h
    · split at h
      · rcases List.mem_cons.1 h with h | h
        · exact .inl h
        · exact .inr (List.mem_cons_of_mem _ h)
      · rcases List.mem_cons.1 h with h | h
        · exact .inr (by simp [h])
        · exact (ih h).imp_right (List.mem_cons_of_mem _)

/-- The entries of a table after an erasure. -/
theorem mem_tableErase {k : Nat} {t : List (Nat × β)} {e : Nat × β} (h : e ∈ tableErase k t) : e ∈ t := by
  induction t with
  | nil => exact h
  | cons a t ih =>
    obtain ⟨j, w⟩ := a
    simp only [tableErase] at h
    split at h
    · exact List.mem_cons_of_mem _ (ih h)
    · rcases List.mem_cons.1 h with h | h
      · simp [h]
      · exact List.mem_cons_of_mem _ (ih h)

theorem tableSorted_insert (k : Nat) (v : β) (t : List (Nat × β)) (h : tableSorted t = true) :
    tableSorted (tableInsert k v t) = true := by
  induction t with
  | nil => rfl
  | cons a t ih =>
    obtain ⟨j, w⟩ := a
    simp only [tableSorted, Bool.and_eq_true, tableAbove_iff] at h
    simp only [tableInsert]
    split
    · rename_i hkj
      simp only [tableSorted, tableAbove, Bool.and_eq_true, tableAbove_iff, decide_eq_true_eq]
      exact ⟨⟨hkj, fun e he => lt_trans hkj (h.1 e he)⟩, h.1, h.2⟩
    · split
      · subst_vars
        simp only [tableSorted, Bool.and_eq_true, tableAbove_iff]
        exact h
      · simp only [tableSorted, Bool.and_eq_true, tableAbove_iff]
        refine ⟨fun e he => ?_, ih h.2⟩
        rcases mem_tableInsert he with rfl | he
        · simp only; omega
        · exact h.1 e he

theorem tableSorted_erase (k : Nat) (t : List (Nat × β)) (h : tableSorted t = true) :
    tableSorted (tableErase k t) = true := by
  induction t with
  | nil => rfl
  | cons a t ih =>
    obtain ⟨j, w⟩ := a
    simp only [tableSorted, Bool.and_eq_true, tableAbove_iff] at h
    simp only [tableErase]
    split
    · exact ih h.2
    · simp only [tableSorted, Bool.and_eq_true, tableAbove_iff]
      exact ⟨fun e he => h.1 e (mem_tableErase he), ih h.2⟩

/-- A listed value is an entry. -/
theorem mem_of_tableFind {k : Nat} {v : β} {t : List (Nat × β)} (h : tableFind k t = some v) : (k, v) ∈ t := by
  induction t with
  | nil => simp [tableFind] at h
  | cons a t ih =>
    obtain ⟨j, w⟩ := a
    simp only [tableFind] at h
    split at h
    · simp_all
    · exact List.mem_cons_of_mem _ (ih h)

/-- In canonical form, an entry is what its key finds. -/
theorem tableFind_of_mem {k : Nat} {v : β} {t : List (Nat × β)} (hs : tableSorted t = true) (h : (k, v) ∈ t) :
    tableFind k t = some v := by
  induction t with
  | nil => simp at h
  | cons a t ih =>
    obtain ⟨j, w⟩ := a
    simp only [tableSorted, Bool.and_eq_true, tableAbove_iff] at hs
    rcases List.mem_cons.1 h with h | h
    · simp_all [tableFind]
    · have := hs.1 _ h
      simp only at this
      simp [tableFind, Nat.ne_of_lt this, ih hs.2 h]

/-- What the environment presents after it changed one port. -/
@[simp] theorem tableFind_portStore_same (h : Handle) (p : Port) (t : List (Handle × Port)) :
    (tableFind h (portStore h p t)).getD Port.quiet = p := by
  unfold portStore
  split
  · simp_all
  · simp

@[simp] theorem tableFind_portStore_ne {j h : Handle} (p : Port) (t : List (Handle × Port)) (hj : j ≠ h) :
    tableFind j (portStore h p t) = tableFind j t := by
  unfold portStore
  split <;> simp [hj]

/-- Storing a port keeps the table canonical: rising, and without entries equal to what an unlisted port reads as. -/
theorem portStore_canonical (h : Handle) (p : Port) (t : List (Handle × Port)) (hs : tableSorted t = true)
    (hq : ∀ e ∈ t, e.2 ≠ Port.quiet) :
    tableSorted (portStore h p t) = true ∧ ∀ e ∈ portStore h p t, e.2 ≠ Port.quiet := by
  unfold portStore
  split
  · exact ⟨tableSorted_erase _ _ hs, fun e he => hq e (mem_tableErase he)⟩
  · refine ⟨tableSorted_insert _ _ _ hs, fun e he => ?_⟩
    rcases mem_tableInsert he with rfl | he
    · assumption
    · exact hq e he

/-! ### Byte spaces -/

@[simp] theorem Memory.read_write_same (m : Memory) (i : Nat) (b : Byte) : (m.write i b).read i = some b :=
  tableFind_insert_same i b m

@[simp] theorem Memory.read_write_ne (m : Memory) {i j : Nat} (b : Byte) (h : j ≠ i) :
    (m.write i b).read j = m.read j := tableFind_insert_ne b m h

/-- A store keeps the canonical form. -/
theorem Memory.wf_write (m : Memory) (i : Nat) (b : Byte) (h : m.wf = true) : (m.write i b).wf = true :=
  tableSorted_insert i b m h

@[simp] theorem Memory.read_nil (i : Nat) : Memory.read [] i = none := rfl

theorem bytesFrom_above (bytes : List Byte) (k i : Nat) (h : i < k) : tableAbove i (bytesFrom k bytes) = true := by
  induction bytes generalizing k with
  | nil => rfl
  | cons b bs ih => simp [bytesFrom, tableAbove, h, ih (k + 1) (by omega)]

theorem bytesFrom_sorted (bytes : List Byte) (k : Nat) : tableSorted (bytesFrom k bytes) = true := by
  induction bytes generalizing k with
  | nil => rfl
  | cons b bs ih => simp [bytesFrom, tableSorted, bytesFrom_above bs (k + 1) k (by omega), ih (k + 1)]

/-- Every byte sequence is a canonical byte space. -/
@[simp] theorem Memory.wf_ofBytes (bytes : List Byte) : (Memory.ofBytes bytes).wf = true := bytesFrom_sorted bytes 0

theorem tableFind_bytesFrom (bytes : List Byte) (k i : Nat) :
    tableFind (k + i) (bytesFrom k bytes) = bytes[i]? := by
  induction bytes generalizing k i with
  | nil => simp [bytesFrom, tableFind]
  | cons b bs ih =>
    cases i with
    | zero => simp [bytesFrom, tableFind]
    | succ i =>
      have := ih (k + 1) i
      have e : k + (i + 1) = k + 1 + i := by omega
      simp [bytesFrom, tableFind, e, this]
      omega

/-- Reading a byte sequence laid out as a byte space. -/
@[simp] theorem Memory.read_ofBytes (bytes : List Byte) (i : Nat) : (Memory.ofBytes bytes).read i = bytes[i]? := by
  have := tableFind_bytesFrom bytes 0 i
  simpa [Memory.read, Memory.ofBytes] using this

@[simp] theorem bytesFrom_length (bytes : List Byte) (k : Nat) : (bytesFrom k bytes).length = bytes.length := by
  induction bytes generalizing k with
  | nil => rfl
  | cons b bs ih => simp [bytesFrom, ih]

@[simp] theorem Memory.length_ofBytes (bytes : List Byte) : (Memory.ofBytes bytes).length = bytes.length :=
  bytesFrom_length bytes 0

theorem bytesFrom_keys (bytes : List Byte) (k : Nat) :
    (bytesFrom k bytes).map Prod.fst = List.range' k bytes.length := by
  induction bytes generalizing k with
  | nil => rfl
  | cons b bs ih => simp [bytesFrom, ih, List.range'_succ]

/-- A freshly zeroed ring lists exactly its cells. -/
theorem Memory.zeros_keys (n : Nat) : (Memory.zeros n).map Prod.fst = List.range n := by
  simp [Memory.zeros, Memory.ofBytes, bytesFrom_keys, List.range_eq_range']

theorem Memory.read_zeros (n i : Nat) : (Memory.zeros n).read i = if i < n then some 0x00#8 else none := by
  simp [Memory.zeros, List.getElem?_replicate]

/-- A cell is listed exactly if its index is a key. -/
theorem tableFind_isSome (k : Nat) (t : List (Nat × β)) : (tableFind k t).isSome = true ↔ k ∈ t.map Prod.fst := by
  induction t with
  | nil => simp [tableFind]
  | cons a t ih =>
    obtain ⟨j, w⟩ := a
    by_cases h : j = k
    · simp [tableFind, h]
    · simp only [tableFind, h, if_false, ih, List.map_cons, List.mem_cons]
      constructor
      · exact .inr
      · rintro (h' | h')
        · exact absurd h'.symm h
        · exact h'

/-- Storing to a listed cell changes no key. -/
theorem tableInsert_keys (k : Nat) (v : β) (t : List (Nat × β)) (hs : tableSorted t = true)
    (h : k ∈ t.map Prod.fst) : (tableInsert k v t).map Prod.fst = t.map Prod.fst := by
  induction t with
  | nil => simp at h
  | cons a t ih =>
    obtain ⟨j, w⟩ := a
    simp only [tableSorted, Bool.and_eq_true, tableAbove_iff] at hs
    simp only [tableInsert]
    rcases List.mem_cons.1 (by simpa using h : k ∈ j :: t.map Prod.fst) with rfl | h'
    · simp
    · obtain ⟨e, he, rfl⟩ := List.mem_map.1 h'
      have := hs.1 e he
      rw [if_neg (by omega), if_neg (by omega)]
      simp [ih hs.2 h']

theorem sorted_of_keys (n : Nat) (m : Memory) (k : Nat) (h : m.map Prod.fst = List.range' k n) :
    tableSorted m = true ∧ ∀ i, i < k → tableAbove i m = true := by
  induction n generalizing m k with
  | zero => cases m <;> simp_all [tableSorted, tableAbove]
  | succ n ih =>
    cases m with
    | nil => simp [List.range'_succ] at h
    | cons a t =>
      obtain ⟨j, w⟩ := a
      simp only [List.map_cons, List.range'_succ, List.cons.injEq] at h
      obtain ⟨h1, h2⟩ := ih t (k + 1) h.2
      refine ⟨?_, fun i hi => ?_⟩
      · simp [tableSorted, h1, h.1, h2 k (by omega)]
      · have := h.1
        simp [tableAbove, h2 i (by omega)]; omega

/-- A byte space whose keys are `0 .. n-1` is canonical. -/
theorem Memory.wf_of_keys {m : Memory} {n : Nat} (h : m.map Prod.fst = List.range n) : m.wf = true :=
  (sorted_of_keys n m 0 (by simpa [List.range_eq_range'] using h)).1

end Sys2Proof.Machine
end

