-- ==== Sys2Proof/Laws/State.lean ====
section
/-! SUPPORT. What each named update leaves in each field, so that no proof unfolds a record update. -/

namespace Sys2Proof.Machine

/-! ### `State.put`: what the handler of a session leaves -/

@[simp] theorem put_params (s : State) (h : Handle) (f : Focus) : (s.put h f).params = s.params := rfl
@[simp] theorem put_registry (s : State) (h : Handle) (f : Focus) : (s.put h f).registry = tableInsert h f.session s.registry := rfl
@[simp] theorem put_ports (s : State) (h : Handle) (f : Focus) : (s.put h f).ports = portStore h f.port s.ports := rfl
@[simp] theorem put_irqPhase (s : State) (h : Handle) (f : Focus) : (s.put h f).irqPhase = f.irqPhase := rfl
@[simp] theorem put_host (s : State) (h : Handle) (f : Focus) : (s.put h f).host = s.host := rfl
@[simp] theorem put_result (s : State) (h : Handle) (f : Focus) : (s.put h f).result = s.result := rfl
@[simp] theorem put_closedTraces (s : State) (h : Handle) (f : Focus) : (s.put h f).closedTraces = s.closedTraces := rfl
@[simp] theorem put_draws (s : State) (h : Handle) (f : Focus) : (s.put h f).draws = f.draws := rfl
@[simp] theorem put_inputs (s : State) (h : Handle) (f : Focus) : (s.put h f).inputs = s.inputs := rfl

@[simp] theorem session?_put_same (s : State) (h : Handle) (f : Focus) : (s.put h f).session? h = some f.session :=
  tableFind_insert_same h f.session s.registry

@[simp] theorem session?_put_ne (s : State) {h h' : Handle} (f : Focus) (hh : h' ≠ h) :
    (s.put h f).session? h' = s.session? h' := tableFind_insert_ne f.session s.registry hh

@[simp] theorem port_put_same (s : State) (h : Handle) (f : Focus) : (s.put h f).port h = f.port :=
  tableFind_portStore_same h f.port s.ports

@[simp] theorem port_put_ne (s : State) {h h' : Handle} (f : Focus) (hh : h' ≠ h) :
    (s.put h f).port h' = s.port h' := by
  simp [State.port, hh]

/-! ### `State.focus`: what the handler sees -/

@[simp] theorem focus_session (s : State) (h : Handle) (x : Session) : (s.focus h x).session = x := rfl
@[simp] theorem focus_port (s : State) (h : Handle) (x : Session) : (s.focus h x).port = s.port h := rfl
@[simp] theorem focus_draws (s : State) (h : Handle) (x : Session) : (s.focus h x).draws = s.draws := rfl
@[simp] theorem focus_irqPhase (s : State) (h : Handle) (x : Session) : (s.focus h x).irqPhase = s.irqPhase := rfl

/-! ### `withResult`, `withInputs`, `withHost`, `closeSession` -/

@[simp] theorem withResult_params (s : State) (r : Option HostResult) : (s.withResult r).params = s.params := rfl
@[simp] theorem withResult_registry (s : State) (r : Option HostResult) : (s.withResult r).registry = s.registry := rfl
@[simp] theorem withResult_ports (s : State) (r : Option HostResult) : (s.withResult r).ports = s.ports := rfl
@[simp] theorem withResult_irqPhase (s : State) (r : Option HostResult) : (s.withResult r).irqPhase = s.irqPhase := rfl
@[simp] theorem withResult_host (s : State) (r : Option HostResult) : (s.withResult r).host = s.host := rfl
@[simp] theorem withResult_result (s : State) (r : Option HostResult) : (s.withResult r).result = r := rfl
@[simp] theorem withResult_closedTraces (s : State) (r : Option HostResult) : (s.withResult r).closedTraces = s.closedTraces := rfl
@[simp] theorem withResult_draws (s : State) (r : Option HostResult) : (s.withResult r).draws = s.draws := rfl
@[simp] theorem withResult_inputs (s : State) (r : Option HostResult) : (s.withResult r).inputs = s.inputs := rfl
@[simp] theorem session?_withResult (s : State) (r : Option HostResult) (h : Handle) : (s.withResult r).session? h = s.session? h := rfl
@[simp] theorem port_withResult (s : State) (r : Option HostResult) (h : Handle) : (s.withResult r).port h = s.port h := rfl
@[simp] theorem withInputs_params (s : State) (r : List Input) : (s.withInputs r).params = s.params := rfl
@[simp] theorem withInputs_registry (s : State) (r : List Input) : (s.withInputs r).registry = s.registry := rfl
@[simp] theorem withInputs_ports (s : State) (r : List Input) : (s.withInputs r).ports = s.ports := rfl
@[simp] theorem withInputs_irqPhase (s : State) (r : List Input) : (s.withInputs r).irqPhase = s.irqPhase := rfl
@[simp] theorem withInputs_host (s : State) (r : List Input) : (s.withInputs r).host = s.host := rfl
@[simp] theorem withInputs_result (s : State) (r : List Input) : (s.withInputs r).result = s.result := rfl
@[simp] theorem withInputs_closedTraces (s : State) (r : List Input) : (s.withInputs r).closedTraces = s.closedTraces := rfl
@[simp] theorem withInputs_draws (s : State) (r : List Input) : (s.withInputs r).draws = s.draws := rfl
@[simp] theorem withInputs_inputs (s : State) (r : List Input) : (s.withInputs r).inputs = r := rfl
@[simp] theorem session?_withInputs (s : State) (r : List Input) (h : Handle) : (s.withInputs r).session? h = s.session? h := rfl
@[simp] theorem port_withInputs (s : State) (r : List Input) (h : Handle) : (s.withInputs r).port h = s.port h := rfl
@[simp] theorem withHost_params (s : State) (r : Option HostRun) : (s.withHost r).params = s.params := rfl
@[simp] theorem withHost_registry (s : State) (r : Option HostRun) : (s.withHost r).registry = s.registry := rfl
@[simp] theorem withHost_ports (s : State) (r : Option HostRun) : (s.withHost r).ports = s.ports := rfl
@[simp] theorem withHost_irqPhase (s : State) (r : Option HostRun) : (s.withHost r).irqPhase = s.irqPhase := rfl
@[simp] theorem withHost_host (s : State) (r : Option HostRun) : (s.withHost r).host = r := rfl
@[simp] theorem withHost_result (s : State) (r : Option HostRun) : (s.withHost r).result = s.result := rfl
@[simp] theorem withHost_closedTraces (s : State) (r : Option HostRun) : (s.withHost r).closedTraces = s.closedTraces := rfl
@[simp] theorem withHost_draws (s : State) (r : Option HostRun) : (s.withHost r).draws = s.draws := rfl
@[simp] theorem withHost_inputs (s : State) (r : Option HostRun) : (s.withHost r).inputs = s.inputs := rfl
@[simp] theorem session?_withHost (s : State) (r : Option HostRun) (h : Handle) : (s.withHost r).session? h = s.session? h := rfl
@[simp] theorem port_withHost (s : State) (r : Option HostRun) (h : Handle) : (s.withHost r).port h = s.port h := rfl
@[simp] theorem closeSession_params (s : State) (h : Handle) (l : List TraceItem) : (s.closeSession h l).params = s.params := rfl
@[simp] theorem closeSession_registry (s : State) (h : Handle) (l : List TraceItem) : (s.closeSession h l).registry = tableErase h s.registry := rfl
@[simp] theorem closeSession_ports (s : State) (h : Handle) (l : List TraceItem) : (s.closeSession h l).ports = s.ports := rfl
@[simp] theorem closeSession_irqPhase (s : State) (h : Handle) (l : List TraceItem) : (s.closeSession h l).irqPhase = s.irqPhase := rfl
@[simp] theorem closeSession_host (s : State) (h : Handle) (l : List TraceItem) : (s.closeSession h l).host = s.host := rfl
@[simp] theorem closeSession_result (s : State) (h : Handle) (l : List TraceItem) : (s.closeSession h l).result = s.result := rfl
@[simp] theorem closeSession_closedTraces (s : State) (h : Handle) (l : List TraceItem) : (s.closeSession h l).closedTraces = s.closedTraces ++ [(h, l)] := rfl
@[simp] theorem closeSession_draws (s : State) (h : Handle) (l : List TraceItem) : (s.closeSession h l).draws = s.draws := rfl
@[simp] theorem closeSession_inputs (s : State) (h : Handle) (l : List TraceItem) : (s.closeSession h l).inputs = s.inputs := rfl
@[simp] theorem session?_closeSession_same (s : State) (h : Handle) (l : List TraceItem) :
    (s.closeSession h l).session? h = none := tableFind_erase_same h s.registry
@[simp] theorem session?_closeSession_ne (s : State) {h h' : Handle} (l : List TraceItem) (hh : h' ≠ h) :
    (s.closeSession h l).session? h' = s.session? h' := tableFind_erase_ne s.registry hh
@[simp] theorem port_closeSession (s : State) (h h' : Handle) (l : List TraceItem) :
    (s.closeSession h l).port h' = s.port h' := rfl

/-! ### `State.present`: the environment acts -/

@[simp] theorem present_params (s : State) (h : Handle) (p : Port) : (s.present h p).params = s.params := rfl
@[simp] theorem present_registry (s : State) (h : Handle) (p : Port) : (s.present h p).registry = s.registry := rfl
@[simp] theorem present_irqPhase (s : State) (h : Handle) (p : Port) : (s.present h p).irqPhase = s.irqPhase := rfl
@[simp] theorem present_host (s : State) (h : Handle) (p : Port) : (s.present h p).host = s.host := rfl
@[simp] theorem present_result (s : State) (h : Handle) (p : Port) : (s.present h p).result = s.result := rfl
@[simp] theorem present_closedTraces (s : State) (h : Handle) (p : Port) : (s.present h p).closedTraces = s.closedTraces := rfl
@[simp] theorem present_draws (s : State) (h : Handle) (p : Port) : (s.present h p).draws = s.draws := rfl
@[simp] theorem present_inputs (s : State) (h : Handle) (p : Port) : (s.present h p).inputs = s.inputs := rfl
@[simp] theorem session?_present (s : State) (h h' : Handle) (p : Port) :
    (s.present h p).session? h' = s.session? h' := rfl
@[simp] theorem port_present_same (s : State) (h : Handle) (p : Port) : (s.present h p).port h = p :=
  tableFind_portStore_same h p s.ports
@[simp] theorem port_present_ne (s : State) {h h' : Handle} (p : Port) (hh : h' ≠ h) :
    (s.present h p).port h' = s.port h' := by
  simp [State.present, State.port, hh]

@[simp] theorem presentAll_params (s : State) (l : List (Handle × Port)) : (s.presentAll l).params = s.params := by
  induction l generalizing s with
  | nil => rfl
  | cons e l ih => exact ih _
@[simp] theorem presentAll_registry (s : State) (l : List (Handle × Port)) : (s.presentAll l).registry = s.registry := by
  induction l generalizing s with
  | nil => rfl
  | cons e l ih => exact ih _
@[simp] theorem presentAll_irqPhase (s : State) (l : List (Handle × Port)) : (s.presentAll l).irqPhase = s.irqPhase := by
  induction l generalizing s with
  | nil => rfl
  | cons e l ih => exact ih _
@[simp] theorem presentAll_host (s : State) (l : List (Handle × Port)) : (s.presentAll l).host = s.host := by
  induction l generalizing s with
  | nil => rfl
  | cons e l ih => exact ih _
@[simp] theorem presentAll_result (s : State) (l : List (Handle × Port)) : (s.presentAll l).result = s.result := by
  induction l generalizing s with
  | nil => rfl
  | cons e l ih => exact ih _
@[simp] theorem presentAll_closedTraces (s : State) (l : List (Handle × Port)) : (s.presentAll l).closedTraces = s.closedTraces := by
  induction l generalizing s with
  | nil => rfl
  | cons e l ih => exact ih _
@[simp] theorem presentAll_draws (s : State) (l : List (Handle × Port)) : (s.presentAll l).draws = s.draws := by
  induction l generalizing s with
  | nil => rfl
  | cons e l ih => exact ih _
@[simp] theorem presentAll_inputs (s : State) (l : List (Handle × Port)) : (s.presentAll l).inputs = s.inputs := by
  induction l generalizing s with
  | nil => rfl
  | cons e l ih => exact ih _
@[simp] theorem session?_presentAll (s : State) (l : List (Handle × Port)) (h : Handle) :
    (s.presentAll l).session? h = s.session? h := by
  simp [State.session?]

/-! ### The interface commands, field by field of the focus -/

@[simp] theorem emit_session (f : Focus) (t : TraceItem) : (f.emit t).session = { f.session with trace := f.session.trace ++ [t] } := rfl
@[simp] theorem emit_port (f : Focus) (t : TraceItem) : (f.emit t).port = f.port := rfl
@[simp] theorem emit_draws (f : Focus) (t : TraceItem) : (f.emit t).draws = f.draws := rfl
@[simp] theorem emit_irqPhase (f : Focus) (t : TraceItem) : (f.emit t).irqPhase = f.irqPhase := rfl
@[simp] theorem writeData_session (f : Focus) (b : Byte) : (f.writeData b).session = { f.session with trace := f.session.trace ++ [.w b] } := rfl
@[simp] theorem writeData_port (f : Focus) (b : Byte) : (f.writeData b).port = f.port := rfl
@[simp] theorem writeData_draws (f : Focus) (b : Byte) : (f.writeData b).draws = f.draws := rfl
@[simp] theorem writeData_irqPhase (f : Focus) (b : Byte) : (f.writeData b).irqPhase = f.irqPhase := rfl
@[simp] theorem issueStart_session (f : Focus) : (f.issueStart).session = { f.session with trace := f.session.trace ++ [.start] } := rfl
@[simp] theorem issueStart_port (f : Focus) : (f.issueStart).port = f.port := rfl
@[simp] theorem issueStart_draws (f : Focus) : (f.issueStart).draws = f.draws := rfl
@[simp] theorem issueStart_irqPhase (f : Focus) : (f.issueStart).irqPhase = f.irqPhase := rfl
@[simp] theorem issueStop_session (f : Focus) : (f.issueStop).session = { f.session with trace := f.session.trace ++ [.stop] } := rfl
@[simp] theorem issueStop_port (f : Focus) : (f.issueStop).port = f.port := rfl
@[simp] theorem issueStop_draws (f : Focus) : (f.issueStop).draws = f.draws := rfl
@[simp] theorem issueStop_irqPhase (f : Focus) : (f.issueStop).irqPhase = f.irqPhase := rfl
@[simp] theorem setAckNext_session (f : Focus) : (f.setAckNext).session = { f.session with ackNext := .ack, trace := f.session.trace ++ [.ackNext] } := rfl
@[simp] theorem setAckNext_port (f : Focus) : (f.setAckNext).port = f.port := rfl
@[simp] theorem setAckNext_draws (f : Focus) : (f.setAckNext).draws = f.draws := rfl
@[simp] theorem setAckNext_irqPhase (f : Focus) : (f.setAckNext).irqPhase = f.irqPhase := rfl
@[simp] theorem setNackNext_session (f : Focus) : (f.setNackNext).session = { f.session with ackNext := .nack, trace := f.session.trace ++ [.nackNext] } := rfl
@[simp] theorem setNackNext_port (f : Focus) : (f.setNackNext).port = f.port := rfl
@[simp] theorem setNackNext_draws (f : Focus) : (f.setNackNext).draws = f.draws := rfl
@[simp] theorem setNackNext_irqPhase (f : Focus) : (f.setNackNext).irqPhase = f.irqPhase := rfl
@[simp] theorem enableClockStretch_session (f : Focus) : (f.enableClockStretch).session = { f.session with stretch := .on, trace := f.session.trace ++ [.stretchOn] } := rfl
@[simp] theorem enableClockStretch_port (f : Focus) : (f.enableClockStretch).port = f.port := rfl
@[simp] theorem enableClockStretch_draws (f : Focus) : (f.enableClockStretch).draws = f.draws := rfl
@[simp] theorem enableClockStretch_irqPhase (f : Focus) : (f.enableClockStretch).irqPhase = f.irqPhase := rfl
@[simp] theorem disableClockStretch_session (f : Focus) : (f.disableClockStretch).session = { f.session with stretch := .off, trace := f.session.trace ++ [.stretchOff] } := rfl
@[simp] theorem disableClockStretch_port (f : Focus) : (f.disableClockStretch).port = f.port := rfl
@[simp] theorem disableClockStretch_draws (f : Focus) : (f.disableClockStretch).draws = f.draws := rfl
@[simp] theorem disableClockStretch_irqPhase (f : Focus) : (f.disableClockStretch).irqPhase = f.irqPhase := rfl
@[simp] theorem enablePeripheral_session (f : Focus) : (f.enablePeripheral).session = { f.session with enabled := true, trace := f.session.trace ++ [.pen] } := rfl
@[simp] theorem enablePeripheral_port (f : Focus) : (f.enablePeripheral).port = f.port := rfl
@[simp] theorem enablePeripheral_draws (f : Focus) : (f.enablePeripheral).draws = f.draws := rfl
@[simp] theorem enablePeripheral_irqPhase (f : Focus) : (f.enablePeripheral).irqPhase = f.irqPhase := rfl
@[simp] theorem disablePeripheral_session (f : Focus) : (f.disablePeripheral).session = { f.session with enabled := false, trace := f.session.trace ++ [.pdis] } := rfl
@[simp] theorem disablePeripheral_port (f : Focus) : (f.disablePeripheral).port = f.port := rfl
@[simp] theorem disablePeripheral_draws (f : Focus) : (f.disablePeripheral).draws = f.draws := rfl
@[simp] theorem disablePeripheral_irqPhase (f : Focus) : (f.disablePeripheral).irqPhase = f.irqPhase := rfl
@[simp] theorem clearFlag_session (f : Focus) (e : Event) : (f.clearFlag e).session = { f.session with trace := f.session.trace ++ [.clr e] } := rfl
@[simp] theorem clearFlag_port (f : Focus) (e : Event) : (f.clearFlag e).port = f.port.clear e := rfl
@[simp] theorem clearFlag_draws (f : Focus) (e : Event) : (f.clearFlag e).draws = f.draws := rfl
@[simp] theorem clearFlag_irqPhase (f : Focus) (e : Event) : (f.clearFlag e).irqPhase = f.irqPhase := rfl
@[simp] theorem call_session (f : Focus) (x : CallbackName) : (f.call x).session = { f.session with trace := f.session.trace ++ callItems f.session.callbacks x } := rfl
@[simp] theorem call_port (f : Focus) (x : CallbackName) : (f.call x).port = f.port := rfl
@[simp] theorem call_draws (f : Focus) (x : CallbackName) : (f.call x).draws = f.draws := rfl
@[simp] theorem call_irqPhase (f : Focus) (x : CallbackName) : (f.call x).irqPhase = f.irqPhase := rfl
@[simp] theorem setStatus_session (f : Focus) (st : Status) : (f.setStatus st).session = { f.session with status := st } := rfl
@[simp] theorem setStatus_port (f : Focus) (st : Status) : (f.setStatus st).port = f.port := rfl
@[simp] theorem setStatus_draws (f : Focus) (st : Status) : (f.setStatus st).draws = f.draws := rfl
@[simp] theorem setStatus_irqPhase (f : Focus) (st : Status) : (f.setStatus st).irqPhase = f.irqPhase := rfl
@[simp] theorem handlerReturn_session (f : Focus) : (f.handlerReturn).session = f.session := rfl
@[simp] theorem handlerReturn_port (f : Focus) : (f.handlerReturn).port = f.port := rfl
@[simp] theorem handlerReturn_draws (f : Focus) : (f.handlerReturn).draws = f.draws := rfl
@[simp] theorem handlerReturn_irqPhase (f : Focus) : (f.handlerReturn).irqPhase = .notInIrq := rfl
@[simp] theorem holdForTC_session (f : Focus) (h : Handle) : (f.holdForTC h).session = f.session := rfl
@[simp] theorem holdForTC_port (f : Focus) (h : Handle) : (f.holdForTC h).port = f.port := rfl
@[simp] theorem holdForTC_draws (f : Focus) (h : Handle) : (f.holdForTC h).draws = f.draws := rfl
@[simp] theorem holdForTC_irqPhase (f : Focus) (h : Handle) : (f.holdForTC h).irqPhase = .spinTC h := rfl

@[simp] theorem readData_fst (f : Focus) : f.readData.1 = f.port.data := rfl
@[simp] theorem readData_snd (f : Focus) : f.readData.2 = f.emit (.r f.port.data) := rfl
@[simp] theorem direction_fst (f : Focus) : f.direction.1 = f.port.dir := rfl
@[simp] theorem direction_snd (f : Focus) : f.direction.2 = f.emit (.dir f.port.dir) := rfl
@[simp] theorem drawByte_fst (f : Focus) : f.drawByte.1 = Config.freeByte f.draws := rfl
@[simp] theorem drawByte_session (f : Focus) : f.drawByte.2.session = f.session := rfl
@[simp] theorem drawByte_port (f : Focus) : f.drawByte.2.port = f.port := rfl
@[simp] theorem drawByte_irqPhase (f : Focus) : f.drawByte.2.irqPhase = f.irqPhase := rfl
@[simp] theorem drawByte_draws (f : Focus) : f.drawByte.2.draws = f.draws + 1 := rfl

/-! ### The ports -/

@[simp] theorem clear_tc (p : Port) (e : Event) : (p.clear e).tc = p.tc := rfl
@[simp] theorem clear_dir (p : Port) (e : Event) : (p.clear e).dir = p.dir := rfl
@[simp] theorem clear_data (p : Port) (e : Event) : (p.clear e).data = p.data := rfl

/-- Clearing a flag clears that flag (rule R55). -/
@[simp] theorem flag_clear_same (p : Port) (e : Event) : (p.clear e).flag e = false := by
  cases e <;> simp [Port.flag, Port.clear, Event.bit, Event.only]

/-- Clearing a flag leaves every other flag presented (rule R32). -/
theorem flag_clear_ne (p : Port) {e e' : Event} (h : e' ≠ e) : (p.clear e).flag e' = p.flag e' := by
  cases e <;> cases e' <;> first | exact absurd rfl h |
    (simp [Port.flag, Port.clear, Event.bit, Event.only]; try decide)

/-! ### `Session.push` -/

@[simp] theorem push_ring (x : Session) (b : Byte) : (x.push b).ring = x.ring.write x.writeIndex b := rfl
@[simp] theorem push_writeIndex (x : Session) (b : Byte) : (x.push b).writeIndex = nextRingIndex x.writeIndex x.ringCap := rfl
@[simp] theorem push_unreadCount (x : Session) (b : Byte) : (x.push b).unreadCount = cappedUnread x.unreadCount x.ringCap := rfl
@[simp] theorem push_status (x : Session) (b : Byte) : (x.push b).status = x.status := rfl
@[simp] theorem push_slaveAddress (x : Session) (b : Byte) : (x.push b).slaveAddress = x.slaveAddress := rfl
@[simp] theorem push_busPeriodLength (x : Session) (b : Byte) : (x.push b).busPeriodLength = x.busPeriodLength := rfl
@[simp] theorem push_ringCap (x : Session) (b : Byte) : (x.push b).ringCap = x.ringCap := rfl
@[simp] theorem push_mtxBuffer (x : Session) (b : Byte) : (x.push b).mtxBuffer = x.mtxBuffer := rfl
@[simp] theorem push_mtxSize (x : Session) (b : Byte) : (x.push b).mtxSize = x.mtxSize := rfl
@[simp] theorem push_mtxCount (x : Session) (b : Byte) : (x.push b).mtxCount = x.mtxCount := rfl
@[simp] theorem push_stxBuffer (x : Session) (b : Byte) : (x.push b).stxBuffer = x.stxBuffer := rfl
@[simp] theorem push_stxCount (x : Session) (b : Byte) : (x.push b).stxCount = x.stxCount := rfl
@[simp] theorem push_mrxBuffer (x : Session) (b : Byte) : (x.push b).mrxBuffer = x.mrxBuffer := rfl
@[simp] theorem push_mrxSize (x : Session) (b : Byte) : (x.push b).mrxSize = x.mrxSize := rfl
@[simp] theorem push_mrxCount (x : Session) (b : Byte) : (x.push b).mrxCount = x.mrxCount := rfl
@[simp] theorem push_callbacks (x : Session) (b : Byte) : (x.push b).callbacks = x.callbacks := rfl
@[simp] theorem push_ackNext (x : Session) (b : Byte) : (x.push b).ackNext = x.ackNext := rfl
@[simp] theorem push_stretch (x : Session) (b : Byte) : (x.push b).stretch = x.stretch := rfl
@[simp] theorem push_enabled (x : Session) (b : Byte) : (x.push b).enabled = x.enabled := rfl
@[simp] theorem push_trace (x : Session) (b : Byte) : (x.push b).trace = x.trace := rfl

end Sys2Proof.Machine
end

