-- ==== Sys2Proof/Laws/Ops.lean ====
section
/-! SUPPORT. One lemma per shared operation: everything it can do. -/

namespace Sys2Proof.Machine

/-- An operation on a live session is its effect on the focus. -/
theorem onSession_live {h : Handle} {s : State} {x : Session} (hx : s.session? h = some x) (act : Focus → Effect) :
    onSession h s act = match act (s.focus h x) with
      | .next f => .next (s.put h f)
      | .fault r => .fault r
      | .refused r => .refused r := by
  cases hs : act (s.focus h x) <;> simp [onSession, hx, hs]

/-- An operation on a live session whose effect is a next focus. -/
theorem onSession_of_next {h : Handle} {s : State} {x : Session} {act : Focus → Effect} {f : Focus}
    (hx : s.session? h = some x) (hf : act (s.focus h x) = .next f) : onSession h s act = .next (s.put h f) := by
  rw [onSession_live hx, hf]

/-- On a dead handle every such operation is refused (rule R152). -/
theorem onSession_dead {h : Handle} {s : State} (hx : s.session? h = none) (act : Focus → Effect) :
    onSession h s act = .refused (.deadHandle h) := by
  simp [onSession, hx]

/-- If an operation on a session answers a next state, the session was live and the state is what its effect left. -/
theorem onSession_next {h : Handle} {s t : State} {act : Focus → Effect} (hn : onSession h s act = .next t) :
    ∃ x f, s.session? h = some x ∧ act (s.focus h x) = .next f ∧ t = s.put h f := by
  unfold onSession at hn
  split at hn
  · cases hn
  · rename_i x hx
    split at hn
    · rename_i f hf
      cases hn
      exact ⟨x, f, hx, hf, rfl⟩
    · cases hn
    · cases hn

/-- A host command's result, and nothing else, is added to what it did. -/
theorem returning_next {r : Option HostResult} {o : Host.Outcome State Fault Refusal} {t : State}
    (hn : returning r o = .next t) : ∃ u, o = .next u ∧ t = u.withResult r := by
  cases o with
  | next u => exact ⟨u, rfl, by simpa [returning] using hn.symm⟩
  | fault e => simp [returning] at hn
  | refused e => simp [returning] at hn

@[simp] theorem returning_of_next (r : Option HostResult) (u : State) :
    returning r (.next u) = .next (u.withResult r) := rfl

/-- `MemRead` reads the cell, or draws where there is no value; it changes only the draw counter. -/
theorem memRead_cases (f : Focus) (sp : Space) (i : Nat) :
    (∃ b, f.session.cell sp i = some b ∧ f.memRead sp i = (b, f)) ∨
    (f.session.cell sp i = none ∧ f.memRead sp i = f.drawByte) := by
  unfold Focus.memRead
  split
  · rename_i b hb; exact .inl ⟨b, hb, rfl⟩
  · rename_i hb; exact .inr ⟨hb, rfl⟩

theorem memRead_of_cell {f : Focus} {sp : Space} {i : Nat} {b : Byte} (h : f.session.cell sp i = some b) :
    f.memRead sp i = (b, f) := by
  simp [Focus.memRead, h]

theorem memRead_of_none {f : Focus} {sp : Space} {i : Nat} (h : f.session.cell sp i = none) :
    f.memRead sp i = f.drawByte := by
  simp [Focus.memRead, h]

@[simp] theorem memRead_session (f : Focus) (sp : Space) (i : Nat) : (f.memRead sp i).2.session = f.session := by
  rcases memRead_cases f sp i with ⟨b, -, h⟩ | ⟨-, h⟩ <;> simp [h]

@[simp] theorem memRead_port (f : Focus) (sp : Space) (i : Nat) : (f.memRead sp i).2.port = f.port := by
  rcases memRead_cases f sp i with ⟨b, -, h⟩ | ⟨-, h⟩ <;> simp [h]

@[simp] theorem memRead_irqPhase (f : Focus) (sp : Space) (i : Nat) : (f.memRead sp i).2.irqPhase = f.irqPhase := by
  rcases memRead_cases f sp i with ⟨b, -, h⟩ | ⟨-, h⟩ <;> simp [h]

/-- A counter that can be counted up is counted up by one. -/
theorem countUp_eq_some {p : Params} {n m : Nat} (h : countUp p n = some m) : m = n + 1 ∧ fitsCounter p (n + 1) = true := by
  unfold countUp at h
  split at h
  · rename_i hf; simp only [Option.some.injEq] at h; exact ⟨h.symm, hf⟩
  · cases h

@[simp] theorem countUp_of_fits {p : Params} {n : Nat} (h : fitsCounter p (n + 1) = true) : countUp p n = some (n + 1) := by
  simp [countUp, h]

/-- With an unbounded width every counter fits (decision D21). -/
theorem fitsCounter_unbounded {p : Params} (h : p.cntWidth = none) (n : Nat) : fitsCounter p n = true := by
  simp [fitsCounter, h]

/-- The guard of a transfer passes exactly a 7-bit address and a size a counter can hold. -/
theorem transferGuard_eq_none {p : Params} {a n : Nat} :
    transferGuard p a n = none ↔ a < 128 ∧ fitsCounter p n = true := by
  unfold transferGuard fitsAddr7
  by_cases h1 : a < 128 <;> by_cases h2 : fitsCounter p n = true <;> simp [h1, h2]

/-- The micro-steps change neither the port nor the draws nor the hidden core state. -/
theorem apply_frame (m : Micro) (f : Focus) :
    (m.apply f).port = f.port ∧ (m.apply f).draws = f.draws ∧ (m.apply f).irqPhase = f.irqPhase := by
  cases m with
  | preArmNack n => by_cases h : n = 1 <;> simp [Micro.apply, h]
  | _ => exact ⟨rfl, rfl, rfl⟩

theorem runMicros_frame (l : List Micro) (f : Focus) :
    (runMicros l f).port = f.port ∧ (runMicros l f).draws = f.draws ∧ (runMicros l f).irqPhase = f.irqPhase := by
  induction l generalizing f with
  | nil => exact ⟨rfl, rfl, rfl⟩
  | cons m l ih =>
    obtain ⟨h1, h2, h3⟩ := apply_frame m f
    obtain ⟨g1, g2, g3⟩ := ih (m.apply f)
    exact ⟨g1.trans h1, g2.trans h2, g3.trans h3⟩

/-- The session after MasterTransmit's micro-steps (rule R110). -/
theorem runMicros_transmit (a : Nat) (bytes : List Byte) (f : Focus) :
    (runMicros (transmitMicros a bytes) f).session =
      { f.session with stretch := .off, mtxBuffer := Memory.ofBytes bytes, mtxSize := bytes.length, mtxCount := 0,
                       slaveAddress := addressByte a writeDirection, status := .mtxStartSent,
                       trace := f.session.trace ++ [.stretchOff, .start] } := by
  simp [runMicros, transmitMicros, Micro.apply]

/-- The session after MasterReceive's micro-steps (rule R120). -/
theorem runMicros_receive (a n : Nat) (f : Focus) :
    (runMicros (receiveMicros a n) f).session =
      { f.session with stretch := .off, mrxBuffer := [], mrxSize := n, mrxCount := 0,
                       slaveAddress := addressByte a readDirection, status := .mrxStartSent,
                       ackNext := if n = 1 then .nack else f.session.ackNext,
                       trace := f.session.trace ++ ([.stretchOff] ++ (if n = 1 then [.nackNext] else []) ++ [.start]) } := by
  by_cases h : n = 1 <;> simp [runMicros, receiveMicros, Micro.apply, h]

/-- The session after SetSlaveTransmitBuffer's micro-step (rule R134). -/
theorem runMicros_slaveBuffer (bytes : Option (List Byte)) (f : Focus) :
    (runMicros (slaveBufferMicros bytes) f).session = { f.session with stxBuffer := bytes.map Memory.ofBytes } := rfl

/-- If a transfer answers a next state: the handle was live and the guard passed; then either the size was 0 and only the
result changed, or the micro-steps ran. -/
theorem transfer_next {h : Handle} {a n : Nat} {todo : List Micro} {s t : State} (hn : transfer h a n todo s = .next t) :
    ∃ x, s.session? h = some x ∧ transferGuard s.params a n = none ∧
      ((n = 0 ∧ t = s.withResult none) ∨
       (n ≠ 0 ∧ t = (s.put h (runMicros todo (s.focus h x))).withResult none)) := by
  unfold transfer at hn
  split at hn
  · cases hn
  · rename_i x hx
    split at hn
    · cases hn
    · rename_i hg
      split at hn
      · cases hn; exact ⟨x, hx, hg, .inl ⟨by assumption, rfl⟩⟩
      · cases hn; exact ⟨x, hx, hg, .inr ⟨by assumption, rfl⟩⟩

/-- The ring index of the oldest unread byte lies in the ring (20_memory.md rule R51). -/
theorem subMod_lt (a b n : Nat) (h : 0 < n) : subMod a b n < n := by
  unfold subMod
  have h1 : (0 : Int) < n := by exact_mod_cast h
  have h2 := Int.emod_lt_of_pos ((a : Int) - b) h1
  have h3 := Int.emod_nonneg ((a : Int) - b) (ne_of_gt h1)
  omega

/-- Everything an operation did outside its session: the frame that `State.put` gives. -/
theorem sameElsewhere_put (s : State) (h : Handle) (f : Focus) (r : Option HostResult) :
    SameElsewhere h s ((s.put h f).withResult r) ∧ SameElsewhere h s (s.put h f) := by
  constructor <;> exact ⟨fun h' hh => ⟨by simp [hh], by simp [hh]⟩, rfl, rfl, rfl, rfl⟩

/-- A handler whose effect on the session it found is a next focus: what it leaves. -/
theorem leaves_of_effect {h : Handle} {s : State} {x : Session} {act : Focus → Effect} {f : Focus} {y : Session}
    {p : Port} {irq : IrqPhase} (hx : s.session? h = some x) (hf : act (s.focus h x) = .next f)
    (h1 : f.session = y) (h2 : f.port = p) (h3 : f.irqPhase = irq) (h4 : f.draws = s.draws) :
    Leaves h s (onSession h s act) y p irq := by
  refine ⟨s.put h f, onSession_of_next hx hf, ?_, ?_, h3, (sameElsewhere_put s h f none).2, h4, rfl⟩
  · simp [h1]
  · simp [h2]

/-- A host command that leaves a focus in place of the session it found, and a result. -/
theorem hands_of_put {h : Handle} {s : State} {f : Focus} {y : Session} {r : Option HostResult} (h1 : f.session = y)
    (h2 : f.port = s.port h) (h3 : f.irqPhase = s.irqPhase) (h4 : f.draws = s.draws) :
    Hands h s (.next ((s.put h f).withResult r)) y r := by
  refine ⟨_, rfl, ?_, rfl, ?_, h3, (sameElsewhere_put s h f r).1, h4⟩
  · simp [h1]
  · simp [h2]

end Sys2Proof.Machine
end

