-- ==== Sys2Proof/Laws/Handlers.lean ====
section
/-! SUPPORT. What the handlers with cases do, each written as one expression over the session they find; the provers cite
these instead of unfolding the meanings. -/

namespace Sys2Proof.Machine

/-- What `TXE.MTX` does, by its read and its count (rule R113). -/
theorem transmitNext_eq (p : Params) (h : Handle) (f : Focus) :
    transmitNext p h f =
      let rd := f.memRead .mtx f.session.mtxCount
      if fitsCounter p (f.session.mtxCount + 1) then
        let g : Focus :=
          { rd.2 with session := { f.session with mtxCount := f.session.mtxCount + 1,
                                                  trace := f.session.trace ++ [.w rd.1] } }
        if f.session.mtxCount + 1 = f.session.mtxSize then
          (if f.port.tc then .next g.finishTransmit else .next (g.holdForTC h))
        else .next g
      else .refused .counterWidth := by
  unfold transmitNext countUp
  by_cases hf : fitsCounter p (f.session.mtxCount + 1) = true
  · simp [hf]
  · simp [hf]

theorem finishTransmit_session (f : Focus) : f.finishTransmit.session =
    { f.session with stretch := .on, status := .idle,
                     trace := f.session.trace ++ [.stop, .stretchOn] ++
                       callItems f.session.callbacks .onMasterTransmitDone } := by
  simp [Focus.finishTransmit]

theorem finishTransmit_frame (f : Focus) :
    f.finishTransmit.port = f.port ∧ f.finishTransmit.draws = f.draws ∧ f.finishTransmit.irqPhase = f.irqPhase :=
  by simp [Focus.finishTransmit]

theorem finishReceive_session (f : Focus) : f.finishReceive.session =
    { f.session with ackNext := .ack, stretch := .on, status := .idle,
                     trace := f.session.trace ++ [.stop, .stretchOn, .ackNext] ++
                       callItems f.session.callbacks .onMasterReceiveDone } := by
  simp [Focus.finishReceive]

theorem finishReceive_frame (f : Focus) :
    f.finishReceive.port = f.port ∧ f.finishReceive.draws = f.draws ∧ f.finishReceive.irqPhase = f.irqPhase :=
  by simp [Focus.finishReceive]

/-- What `RX.MRX` does (rule R123): outside the buffer it stops; inside, it stores and counts, arms NACK one byte early,
and completes on the last byte. -/
theorem receiveNext_eq (p : Params) (h : Handle) (f : Focus) :
    receiveNext p h f =
      if f.session.mrxCount < f.session.mrxSize then
        if fitsCounter p (f.session.mrxCount + 1) then
          let g : Focus :=
            { f with session :=
                { f.session with mrxBuffer := f.session.mrxBuffer.write f.session.mrxCount f.port.data,
                                 mrxCount := f.session.mrxCount + 1,
                                 trace := f.session.trace ++ [.r f.port.data] } }
          if f.session.mrxCount + 1 = f.session.mrxSize then .next g.finishReceive
          else if f.session.mrxCount + 1 = f.session.mrxSize - 1 then .next g.setNackNext
          else .next g
        else .refused .counterWidth
      else .refused (.mrxOverrun h) := by
  unfold receiveNext countUp
  by_cases h1 : f.session.mrxCount < f.session.mrxSize
  · by_cases h2 : fitsCounter p (f.session.mrxCount + 1) = true
    · by_cases h3 : f.session.mrxCount + 1 = f.session.mrxSize
      · have h4 : ¬ f.session.mrxCount + 1 = f.session.mrxSize - 1 := by omega
        simp [h1, h2, eq_true h3, eq_false h4, Focus.emit]
      · by_cases h4 : f.session.mrxCount + 1 = f.session.mrxSize - 1
        · simp [h1, h2, eq_false h3, eq_true h4, Focus.emit]
        · simp [h1, h2, eq_false h3, eq_false h4, Focus.emit]
    · simp [h1, h2]
  · simp [h1]

/-- What `TXE.STX` does (rule R133). -/
theorem slaveTransmitNext_unset {p : Params} {f : Focus} (h : f.session.stxBuffer = none) :
    slaveTransmitNext p f = .next (f.writeData 0x00#8) := by
  simp [slaveTransmitNext, h]

/-- What `TXE.STX` does with a buffer set (rule R133): some byte, the buffer's own inside it, and the count. -/
theorem slaveTransmitNext_set {p : Params} {f : Focus} {m : Memory} (h : f.session.stxBuffer = some m) :
    slaveTransmitNext p f =
      let rd := if f.session.stxCount < m.length then f.memRead .stx f.session.stxCount else f.drawByte
      if fitsCounter p (f.session.stxCount + 1) then
        .next { rd.2 with session := { f.session with stxCount := f.session.stxCount + 1,
                                                      trace := f.session.trace ++ [.w rd.1] } }
      else .refused .counterWidth := by
  unfold slaveTransmitNext countUp
  by_cases hf : fitsCounter p (f.session.stxCount + 1) = true <;>
    by_cases hl : f.session.stxCount < m.length <;> simp [h, hf, hl]

/-- What `ADDR.Idle` does (rule R130). -/
theorem addressMatched_session (f : Focus) : (addressMatched f).session =
    if f.port.dir = 0#1 then
      { f.session with status := .srx, trace := f.session.trace ++ [.dir f.port.dir, .clr .addr] }
    else
      { f.session with stxCount := 0, status := .stx, trace := f.session.trace ++ [.dir f.port.dir, .clr .addr] } := by
  unfold addressMatched
  by_cases h : f.port.dir = 0#1 <;> simp [h]

theorem addressMatched_frame (f : Focus) :
    (addressMatched f).port = f.port.clear .addr ∧ (addressMatched f).draws = f.draws ∧
    (addressMatched f).irqPhase = f.irqPhase := by
  unfold addressMatched
  by_cases h : f.port.dir = 0#1 <;> simp [h]

/-- What a master-side abort does (rules R142 to R147). -/
theorem masterAbort_session (p : Params) (x : CallbackName) (f : Focus) : (masterAbort p x f).session =
    { f.session with
        status := .idle
        stretch := if p.nackMasterStop then .on else f.session.stretch
        trace := f.session.trace ++ ([.clr .nack] ++ (if p.nackMasterStop then [.stop, .stretchOn] else [])) ++
          callItems f.session.callbacks x } := by
  unfold masterAbort restoreAfterAbort
  by_cases h : p.nackMasterStop = true <;> simp [h]

theorem masterAbort_frame (p : Params) (x : CallbackName) (f : Focus) :
    (masterAbort p x f).port = f.port.clear .nack ∧ (masterAbort p x f).draws = f.draws ∧
    (masterAbort p x f).irqPhase = f.irqPhase := by
  unfold masterAbort restoreAfterAbort
  by_cases h : p.nackMasterStop = true <;> simp [h]

end Sys2Proof.Machine
end

