-- ==== Sys2Proof/Laws/Step.lean ====
section
/-! SUPPORT. What a whole operation, a micro-step and a step can have done: one inversion lemma for each, from which
statements over every step are derived by short case analyses. -/

namespace Sys2Proof.Machine

/-- The operation a grid entry performs is the operation it is as syntax. -/
theorem performDispatch_eq (st : Status) (ev : Event) (h : Handle) (s : State) :
    performDispatch st ev h s = exec (dispatchInstr st ev h) s := by
  cases st <;> cases ev <;> rfl

/-- A status is read back from its code (rule R71). -/
@[simp] theorem statusOfCode_code (st : Status) : statusOfCode st.code.toNat = some st := by cases st <;> rfl

/-- Bits `[9:6]` of a dispatch word are the status (rule R73). -/
@[simp] theorem dispatchWord_status (st : Status) (fl : FlagVec) : (dispatchWord st fl).extractLsb' 6 4 = st.code := by
  cases st <;> revert fl <;> decide

/-- Bits `[5:0]` of a dispatch word are the flags (rule R73). -/
@[simp] theorem dispatchWord_flags (st : Status) (fl : FlagVec) : (dispatchWord st fl).extractLsb' 0 6 = fl := by
  cases st <;> revert fl <;> decide

/-- OnInterrupt on a live session performs the selected dispatch, or nothing (rules R100, R102). -/
theorem execOnInterrupt_live {h : Handle} {s : State} {x : Session} (hx : s.session? h = some x) :
    execOnInterrupt h s = match selectEvent (s.port h).flags with
      | none => .next s
      | some e => exec (dispatchInstr x.status e h) s := by
  unfold execOnInterrupt
  simp only [hx, interruptEntry, dispatchWord_status, dispatchWord_flags, statusOfCode_code, performDispatch_eq]
  cases selectEvent (s.port h).flags <;> simp [execIrqNone, hx]

/-- A dispatch acts on the session of the handle it was formed for. -/
@[simp] theorem dispatchInstr_handle (st : Status) (ev : Event) (h : Handle) : (dispatchInstr st ev h).handle = h := by
  cases st <;> cases ev <;> rfl

/-- What an operation that completes can have done: nothing but the result; or a new session; or one session less; or
what a handler or command left of the session it found. -/
theorem exec_next {i : Instr} {s t : State} (hn : exec i s = .next t) :
    (∃ r, t = s.withResult r) ∨
    (∃ id cap cbs f r, i = .createSession id cap cbs ∧ s.session? id = none ∧ f.port = s.port id ∧
      f.irqPhase = s.irqPhase ∧ t = (s.put id f).withResult r) ∨
    (∃ h l, i = .destroySession h ∧ (∃ x, s.session? h = some x) ∧ t = (s.closeSession h l).withResult none) ∨
    (∃ x f r, s.session? i.handle = some x ∧ t = (s.put i.handle f).withResult r) := by
  have dsp : ∀ {h : Handle} {act : Focus → Effect}, i.handle = h → onSession h s act = .next t →
      (∃ x f r, s.session? i.handle = some x ∧ t = (s.put i.handle f).withResult r) := by
    intro h act hh ha
    obtain ⟨x, f, hx, -, rfl⟩ := onSession_next ha
    exact ⟨x, f, s.result, hh ▸ hx, hh ▸ rfl⟩
  have irq : ∀ {h : Handle}, execIrqNone h s = .next t → ∃ r, t = s.withResult r := by
    intro h ha
    unfold execIrqNone at ha
    split at ha
    · cases ha
    · cases ha; exact ⟨s.result, rfl⟩
  have main : ∀ {st ev h}, performDispatch st ev h s = .next t → i.handle = h →
      (∃ x f r, s.session? i.handle = some x ∧ t = (s.put i.handle f).withResult r) := by
    intro st ev h ha hh
    rw [performDispatch_eq] at ha
    cases st <;> cases ev <;> first | cases ha | (simp only [dispatchInstr, exec] at ha; exact dsp hh ha)
  have tr : ∀ {h a n todo}, i.handle = h → transfer h a n todo s = .next t → 
      (∃ r, t = s.withResult r) ∨ (∃ x f r, s.session? i.handle = some x ∧ t = (s.put i.handle f).withResult r) := by
    intro h a n todo hh ha
    obtain ⟨x, hx, -, ⟨-, rfl⟩ | ⟨-, rfl⟩⟩ := transfer_next ha
    · exact .inl ⟨_, rfl⟩
    · subst hh; exact .inr ⟨x, _, _, hx, rfl⟩
  cases i
  case createSession id cap cbs =>
    simp only [exec, execCreateSession] at hn
    split at hn
    · split at hn
      · cases hn
      · rename_i hnone
        split at hn
        · cases hn
        · split at hn
          · cases hn; exact .inr (.inl ⟨id, cap, cbs, _, _, rfl, hnone, by simp, by simp, rfl⟩)
          · cases hn
    · cases hn; exact .inl ⟨_, rfl⟩
  case destroySession h =>
    simp only [exec, execDestroySession] at hn
    split at hn
    · cases hn
    · rename_i x hx; cases hn; exact .inr (.inr (.inl ⟨h, _, rfl, ⟨x, hx⟩, rfl⟩))
  case pop h =>
    simp only [exec, execPop] at hn
    split at hn
    · cases hn
    · rename_i x hx
      split at hn
      · cases hn; exact .inl ⟨_, rfl⟩
      · cases hn; exact .inr (.inr (.inr ⟨x, _, _, hx, rfl⟩))
  case onInterrupt h =>
    simp only [exec, execOnInterrupt] at hn
    split at hn
    · cases hn
    · split at hn
      · cases hn
      · split at hn
        · exact .inl (irq hn)
        · exact .inr (.inr (.inr (main hn rfl)))
  case setSlaveTransmitBuffer h b =>
    obtain ⟨u, hu, rfl⟩ := returning_next hn
    obtain ⟨x, f, hx, -, rfl⟩ := onSession_next hu
    exact .inr (.inr (.inr ⟨x, _, _, hx, rfl⟩))
  case masterTransmit => exact (tr rfl hn).imp_right (fun h => .inr (.inr h))
  case masterReceive => exact (tr rfl hn).imp_right (fun h => .inr (.inr h))
  case irqNone => exact .inl (irq hn)
  all_goals first | cases hn | (simp only [exec] at hn; exact .inr (.inr (.inr (dsp rfl hn))))

/-- What a micro-step can do. -/
theorem microStep_next {s t : State} (hn : microStep s = .next t) :
    (s.host = none ∧ t = s) ∨
    (∃ h, s.host = some (.micros h []) ∧ t = s.hostReturns none) ∨
    (∃ h m rest x, s.host = some (.micros h (m :: rest)) ∧ s.session? h = some x ∧
      t = (s.put h (m.apply (s.focus h x))).afterMicro h rest) ∨
    (∃ h x, s.host = some (.popCount h) ∧ s.session? h = some x ∧
      ((x.unreadCount = 0 ∧ t = s.hostReturns (some (.popped false 0x00#8))) ∨
       (x.unreadCount ≠ 0 ∧ t = s.withHost (some (.popRead h x.unreadCount))))) ∨
    (∃ h u x, s.host = some (.popRead h u) ∧ s.session? h = some x ∧
      t = (s.put h (popByte u (s.focus h x)).2).withHost (some (.popFinish h u (popByte u (s.focus h x)).1))) ∨
    (∃ h u b x, s.host = some (.popFinish h u b) ∧ s.session? h = some x ∧
      t = (s.put h (popCountBack u (s.focus h x))).hostReturns (some (.popped true b))) := by
  unfold microStep at hn
  split at hn
  · rename_i hh; cases hn; exact .inl ⟨hh, rfl⟩
  · rename_i h todo hh
    cases todo with
    | nil => cases hn; exact .inr (.inl ⟨h, hh, rfl⟩)
    | cons m rest =>
      simp only at hn
      cases ho : onSession h s (fun f => .next (m.apply f)) with
      | next u =>
        obtain ⟨x, f, hx, hf, rfl⟩ := onSession_next ho
        cases hf
        rw [ho] at hn; cases hn
        exact .inr (.inr (.inl ⟨h, m, rest, x, hh, hx, rfl⟩))
      | fault r => rw [ho] at hn; cases hn
      | refused r => rw [ho] at hn; cases hn
  · rename_i h hh
    split at hn
    · cases hn
    · rename_i x hx
      refine .inr (.inr (.inr (.inl ⟨h, x, hh, hx, ?_⟩)))
      split at hn
      · cases hn; exact .inl ⟨by assumption, rfl⟩
      · cases hn; exact .inr ⟨by assumption, rfl⟩
  · rename_i h u hh
    split at hn
    · cases hn
    · rename_i x hx; cases hn
      exact .inr (.inr (.inr (.inr (.inl ⟨h, u, x, hh, hx, rfl⟩))))
  · rename_i h u b hh
    split at hn
    · cases hn
    · rename_i x hx; cases hn
      exact .inr (.inr (.inr (.inr (.inr ⟨h, u, b, x, hh, hx, rfl⟩))))

/-- What a step that answers a next state can have been: whoever moved. -/
theorem step_next {s t : State} (hn : step s = .next t) :
    (nextTurn s = .idle ∧ t = s) ∨
    (∃ h, nextTurn s = .release h ∧ releaseHold h s = .next t) ∨
    (∃ h p rest, nextTurn s = .environment h p rest ∧ t = (s.withInputs rest).present h p) ∨
    (∃ rest, nextTurn s = .micro rest ∧ microStep (s.withInputs rest) = .next t) ∨
    (∃ ctx w answers rest i, nextTurn s = .invoke ctx w answers rest ∧ decodeCommand w = .ok i ∧ admitted ctx i = true ∧
      exec i ((s.withInputs rest).presentAll answers) = .next t) ∨
    (∃ w rest i, nextTurn s = .begin w rest ∧ decodeCommand w = .ok i ∧
      (beginHost i (s.withInputs rest) = some (.next t) ∨
       (beginHost i (s.withInputs rest) = none ∧ exec i (s.withInputs rest) = .next t))) := by
  unfold step at hn
  split at hn
  · rename_i ht; cases hn; exact .inl ⟨ht, rfl⟩
  · rename_i h ht; exact .inr (.inl ⟨h, ht, hn⟩)
  · rename_i h p rest ht; cases hn; exact .inr (.inr (.inl ⟨h, p, rest, ht, rfl⟩))
  · rename_i rest ht; exact .inr (.inr (.inr (.inl ⟨rest, ht, hn⟩)))
  · rename_i ctx w answers rest ht
    unfold invokeWord at hn
    split at hn
    · cases hn
    · rename_i i hi
      split at hn
      · rename_i ha; exact .inr (.inr (.inr (.inr (.inl ⟨ctx, w, answers, rest, i, ht, hi, ha, hn⟩))))
      · cases hn
  · rename_i w rest ht
    unfold beginWord at hn
    split at hn
    · cases hn
    · rename_i i hi
      refine .inr (.inr (.inr (.inr (.inr ⟨w, rest, i, ht, hi, ?_⟩))))
      split at hn
      · rename_i o ho; subst hn; exact .inl ho
      · rename_i ho; exact .inr ⟨ho, hn⟩

/-- What the beginning of a host command can do: return at once on a size of 0, or leave the command to run. -/
theorem beginHost_next {i : Instr} {s t : State} (hn : beginHost i s = some (.next t)) :
    ∃ x, s.session? i.handle = some x ∧
      (t = s.withResult none ∨ ∃ run, t = s.withHost (some run) ∧
        (run = .popCount i.handle ∨ ∃ todo, todo ≠ [] ∧ run = .micros i.handle todo)) := by
  have tr : ∀ {h a n todo}, todo ≠ [] → beginTransfer h a n todo s = .next t → ∃ x, s.session? h = some x ∧
      (t = s.withResult none ∨ ∃ run, t = s.withHost (some run) ∧
        (run = .popCount h ∨ ∃ todo, todo ≠ [] ∧ run = .micros h todo)) := by
    intro h a n todo h0 ha
    unfold beginTransfer at ha
    split at ha
    · cases ha
    · rename_i x hx
      split at ha
      · cases ha
      · split at ha <;> cases ha
        · exact ⟨x, hx, .inl rfl⟩
        · exact ⟨x, hx, .inr ⟨_, rfl, .inr ⟨_, h0, rfl⟩⟩⟩
  have br : ∀ {h run}, beginRun h run s = .next t → ∃ x, s.session? h = some x ∧ t = s.withHost (some run) := by
    intro h run ha
    unfold beginRun at ha
    split at ha <;> cases ha
    rename_i x hx
    exact ⟨x, hx, rfl⟩
  cases i
  case masterTransmit => exact tr (by simp [transmitMicros]) (Option.some.inj hn)
  case masterReceive => exact tr (by simp [receiveMicros]) (Option.some.inj hn)
  case setSlaveTransmitBuffer h b =>
    obtain ⟨x, hx, rfl⟩ := br (Option.some.inj hn)
    exact ⟨x, hx, .inr ⟨_, rfl, .inr ⟨_, by simp [slaveBufferMicros], rfl⟩⟩⟩
  case pop h =>
    obtain ⟨x, hx, rfl⟩ := br (Option.some.inj hn)
    exact ⟨x, hx, .inr ⟨_, rfl, .inl rfl⟩⟩
  all_goals cases hn

end Sys2Proof.Machine
end

