-- ==== Sys2Proof/Laws/Effects.lean ====
section
/-! SUPPORT. What every operation that completes leaves of the session its handle names, in one place: `handlerEffect` for
the dispatches, `operationEffect` for all operations, and the lemmas that an operation did exactly that. Statements over
all operations are derived from these by cases. -/

namespace Sys2Proof.Machine

/-- The session after a dispatch that completed, given the port the handler saw (rules R102 to R147). -/
def handlerEffect (p : Params) (pt : Port) (i : Instr) (x y : Session) : Prop :=
  match i with
  | .irqNone _ => y = x
  | .sbMtxStartSent _ => y = { x with status := .mtxAddrAcked, trace := x.trace ++ [.w x.slaveAddress] }
  | .sbMrxStartSent _ => y = { x with status := .mrxAddrAcked, trace := x.trace ++ [.w x.slaveAddress] }
  | .addrMtxAddrAcked _ => y = { x with status := .mtx, trace := x.trace ++ [.clr .addr] }
  | .addrMrxAddrAcked _ =>
    y = { x with
          ackNext := if x.mrxSize = 1 then .nack else x.ackNext
          status := .mrx
          trace := x.trace ++ ((if x.mrxSize = 1 then [.nackNext] else []) ++ [.clr .addr]) }
  | .addrIdle _ =>
    y = { x with status := .srx, trace := x.trace ++ [.dir pt.dir, .clr .addr] } ∨
    y = { x with stxCount := 0, status := .stx, trace := x.trace ++ [.dir pt.dir, .clr .addr] }
  | .rxSrx _ => y = { (x.push pt.data) with trace := x.trace ++ [.r pt.data] }
  | .stopSrx _ =>
    y = { x with status := .idle, trace := x.trace ++ [.clr .stop] ++ callItems x.callbacks .onSlaveReceive }
  | .nackStx _ =>
    y = { x with
          status := .idle
          trace := x.trace ++ [.clr .nack, .w 0x00#8] ++ callItems x.callbacks .onSlaveTransmitDone }
  | .nackMtxStartSent _ | .nackMtxAddrAcked _ | .nackMtx _ =>
    y = { x with
          status := .idle
          stretch := if p.nackMasterStop then .on else x.stretch
          trace := x.trace ++ ([.clr .nack] ++ (if p.nackMasterStop then [.stop, .stretchOn] else [])) ++
            callItems x.callbacks .onMasterTransmitDone }
  | .nackMrxStartSent _ | .nackMrxAddrAcked _ | .nackMrx _ =>
    y = { x with
          status := .idle
          stretch := if p.nackMasterStop then .on else x.stretch
          trace := x.trace ++ ([.clr .nack] ++ (if p.nackMasterStop then [.stop, .stretchOn] else [])) ++
            callItems x.callbacks .onMasterReceiveDone }
  | .txeMtx _ =>
    ∃ b, y = { x with mtxCount := x.mtxCount + 1, trace := x.trace ++ [.w b] } ∨
      (x.mtxCount + 1 = x.mtxSize ∧
       y = { x with
             mtxCount := x.mtxCount + 1
             stretch := .on
             status := .idle
             trace := x.trace ++ [.w b] ++ [.stop, .stretchOn] ++ callItems x.callbacks .onMasterTransmitDone })
  | .rxMrx _ =>
    x.mrxCount < x.mrxSize ∧
    ((x.mrxCount + 1 = x.mrxSize ∧
      y = { x with
            mrxBuffer := x.mrxBuffer.write x.mrxCount pt.data
            mrxCount := x.mrxCount + 1
            ackNext := .ack
            stretch := .on
            status := .idle
            trace := x.trace ++ [.r pt.data] ++ [.stop, .stretchOn, .ackNext] ++
              callItems x.callbacks .onMasterReceiveDone }) ∨
     (x.mrxCount + 1 = x.mrxSize - 1 ∧
      y = { x with
            mrxBuffer := x.mrxBuffer.write x.mrxCount pt.data
            mrxCount := x.mrxCount + 1
            ackNext := .nack
            trace := x.trace ++ [.r pt.data] ++ [.nackNext] }) ∨
     (x.mrxCount + 1 ≠ x.mrxSize ∧ x.mrxCount + 1 ≠ x.mrxSize - 1 ∧
      y = { x with
            mrxBuffer := x.mrxBuffer.write x.mrxCount pt.data
            mrxCount := x.mrxCount + 1
            trace := x.trace ++ [.r pt.data] }))
  | .txeStx _ => ∃ b c, (c = x.stxCount ∨ c = x.stxCount + 1) ∧ y = { x with stxCount := c, trace := x.trace ++ [.w b] }
  | _ => False

/-- A dispatch that completes left `handlerEffect` of its session and nothing else but its port, the draws and irqPhase;
irqPhase is as before, or TXE.MTX holds the core with the last byte written. -/
theorem exec_handler_next {i : Instr} {s t : State} {x : Session} (hc : ∃ h w, encode i = .dsp h w)
    (hn : exec i s = .next t) (hx : s.session? i.handle = some x) :
    ∃ y, t.session? i.handle = some y ∧ handlerEffect s.params (s.port i.handle) i x y ∧ t.params = s.params ∧
      t.host = s.host ∧ t.inputs = s.inputs ∧ t.result = s.result ∧
      (t.irqPhase = s.irqPhase ∨
        (t.irqPhase = .spinTC i.handle ∧ i = .txeMtx i.handle ∧ y.mtxCount = y.mtxSize ∧ y.status = x.status)) ∧
      (∃ f, t = s.put i.handle f ∨ t = s) := by
  obtain ⟨h0, w0, hc⟩ := hc
  cases i <;> simp only [encode] at hc <;> first | (cases hc; done) | (cases hn) | skip
  case irqNone h =>
    simp only [exec, execIrqNone, Instr.handle] at hn hx ⊢
    rw [hx] at hn; cases hn
    exact ⟨x, hx, rfl, rfl, rfl, rfl, rfl, .inl rfl, s.focus h x, .inr rfl⟩
  all_goals
    simp only [exec] at hn
    simp only [Instr.handle] at hx ⊢
    obtain ⟨x', f, hx', hf, rfl⟩ := onSession_next hn
    rw [hx] at hx'; cases hx'
    refine ⟨f.session, session?_put_same _ _ _, ?_, rfl, rfl, rfl, rfl, ?_, f, .inl rfl⟩
  case txeMtx.refl.refine_1 h =>
    rw [transmitNext_eq] at hf
    simp only [focus_session, focus_port] at hf
    generalize hr : (s.focus h x).memRead .mtx x.mtxCount = rd at hf
    by_cases h1 : fitsCounter s.params (x.mtxCount + 1) = true
    · simp only [eq_true h1, if_true] at hf
      by_cases h2 : x.mtxCount + 1 = x.mtxSize
      · simp only [eq_true h2, if_true] at hf
        by_cases h3 : (s.port h).tc = true
        · simp only [eq_true h3, if_true] at hf
          cases hf; refine ⟨rd.1, .inr ⟨h2, ?_⟩⟩; rw [finishTransmit_session]
        · simp only [eq_false h3, if_false] at hf; cases hf; exact ⟨rd.1, .inl rfl⟩
      · simp only [eq_false h2, if_false] at hf; cases hf; exact ⟨rd.1, .inl rfl⟩
    · simp only [eq_false h1, if_false] at hf; cases hf
  case txeMtx.refl.refine_2 h =>
    rw [transmitNext_eq] at hf
    simp only [focus_session, focus_port] at hf
    generalize hr : (s.focus h x).memRead .mtx x.mtxCount = rd at hf
    have hi : rd.2.irqPhase = s.irqPhase := by rw [← hr]; simp
    by_cases h1 : fitsCounter s.params (x.mtxCount + 1) = true
    · simp only [eq_true h1, if_true] at hf
      by_cases h2 : x.mtxCount + 1 = x.mtxSize
      · simp only [eq_true h2, if_true] at hf
        by_cases h3 : (s.port h).tc = true
        · simp only [eq_true h3, if_true] at hf
          cases hf; left; simp [finishTransmit_frame, hi]
        · simp only [eq_false h3, if_false] at hf; cases hf; right; exact ⟨rfl, trivial, by simpa using h2, rfl⟩
      · simp only [eq_false h2, if_false] at hf; cases hf; exact .inl hi
    · simp only [eq_false h1, if_false] at hf; cases hf
  case rxMrx.refl.refine_1 h =>
    rw [receiveNext_eq] at hf
    simp only [focus_session, focus_port] at hf
    by_cases h1 : x.mrxCount < x.mrxSize
    · simp only [eq_true h1, if_true] at hf
      refine ⟨h1, ?_⟩
      by_cases h2 : fitsCounter s.params (x.mrxCount + 1) = true
      · simp only [eq_true h2, if_true] at hf
        by_cases h3 : x.mrxCount + 1 = x.mrxSize
        · simp only [eq_true h3, if_true] at hf
          cases hf; refine .inl ⟨h3, ?_⟩; rw [finishReceive_session]
        · simp only [eq_false h3, if_false] at hf
          by_cases h4 : x.mrxCount + 1 = x.mrxSize - 1
          · simp only [eq_true h4, if_true] at hf
            cases hf; exact .inr (.inl ⟨h4, rfl⟩)
          · simp only [eq_false h4, if_false] at hf; cases hf; exact .inr (.inr ⟨h3, h4, rfl⟩)
      · simp only [eq_false h2, if_false] at hf; cases hf
    · simp only [eq_false h1, if_false] at hf; cases hf
  case rxMrx.refl.refine_2 h =>
    left
    rw [receiveNext_eq] at hf
    simp only [focus_session, focus_port] at hf
    by_cases h1 : x.mrxCount < x.mrxSize
    · simp only [eq_true h1, if_true] at hf
      by_cases h2 : fitsCounter s.params (x.mrxCount + 1) = true
      · simp only [eq_true h2, if_true] at hf
        by_cases h3 : x.mrxCount + 1 = x.mrxSize
        · simp only [eq_true h3, if_true] at hf
          cases hf; simp [finishReceive_frame]
        · simp only [eq_false h3, if_false] at hf
          by_cases h4 : x.mrxCount + 1 = x.mrxSize - 1
          · simp only [eq_true h4, if_true] at hf
            cases hf; simp
          · simp only [eq_false h4, if_false] at hf; cases hf; rfl
      · simp only [eq_false h2, if_false] at hf; cases hf
    · simp only [eq_false h1, if_false] at hf; cases hf
  case txeStx.refl.refine_1 h =>
    cases hb : x.stxBuffer with
    | none => rw [slaveTransmitNext_unset (by simpa using hb)] at hf; cases hf; exact ⟨0, _, .inl rfl, rfl⟩
    | some m =>
      rw [slaveTransmitNext_set (m := m) (by simpa using hb)] at hf
      simp only [focus_session] at hf
      by_cases h1 : fitsCounter s.params (x.stxCount + 1) = true
      · simp only [eq_true h1, if_true] at hf; cases hf; exact ⟨_, _, .inr rfl, rfl⟩
      · simp only [eq_false h1, if_false] at hf; cases hf
  case txeStx.refl.refine_2 h =>
    left
    cases hb : x.stxBuffer with
    | none => rw [slaveTransmitNext_unset (by simpa using hb)] at hf; cases hf; rfl
    | some m =>
      rw [slaveTransmitNext_set (m := m) (by simpa using hb)] at hf
      simp only [focus_session] at hf
      by_cases h1 : fitsCounter s.params (x.stxCount + 1) = true
      · simp only [eq_true h1, if_true] at hf; cases hf; by_cases hl : x.stxCount < m.length <;> simp [hl]
      · simp only [eq_false h1, if_false] at hf; cases hf
  case addrIdle.refl.refine_1 h =>
    cases hf
    rw [addressMatched_session]
    by_cases hd : (s.port h).dir = 0#1 <;> simp [hd, handlerEffect]
  case addrIdle.refl.refine_2 h => cases hf; left; simp [addressMatched_frame]
  case addrMrxAddrAcked.refl.refine_1 h => cases hf; by_cases hm : x.mrxSize = 1 <;> simp [hm, handlerEffect]
  case addrMrxAddrAcked.refl.refine_2 h => cases hf; left; by_cases hm : x.mrxSize = 1 <;> simp [hm]
  all_goals cases hf
  all_goals first | rfl | exact masterAbort_session _ _ _ | (left; simp [masterAbort_frame]) | (simp [handlerEffect])

/-- The session after an operation that completed on it (it existed before and exists after). OnInterrupt did what the
selected dispatch does. -/
def operationEffect (s : State) (i : Instr) (x y : Session) : Prop :=
  match i with
  | .createSession _ _ _ => y = x
  | .destroySession _ => False
  | .masterTransmit _ a bytes =>
    (y = x ∧ bytes = []) ∨
    (bytes ≠ [] ∧
     y = { x with
           stretch := .off
           mtxBuffer := Memory.ofBytes bytes
           mtxSize := bytes.length
           mtxCount := 0
           slaveAddress := addressByte a writeDirection
           status := .mtxStartSent
           trace := x.trace ++ [.stretchOff, .start] })
  | .masterReceive _ a n =>
    (y = x ∧ n = 0) ∨
    (n ≠ 0 ∧
     y = { x with
           stretch := .off
           mrxBuffer := []
           mrxSize := n
           mrxCount := 0
           slaveAddress := addressByte a readDirection
           status := .mrxStartSent
           ackNext := if n = 1 then .nack else x.ackNext
           trace := x.trace ++ ([.stretchOff] ++ (if n = 1 then [.nackNext] else []) ++ [.start]) })
  | .pop _ => y = x ∨ (y = { x with unreadCount := x.unreadCount - 1 } ∧ x.unreadCount ≠ 0)
  | .setSlaveTransmitBuffer _ b => y = { x with stxBuffer := b.map Memory.ofBytes }
  | .onInterrupt h =>
    y = x ∨ ∃ e, selectEvent (s.port h).flags = some e ∧
      handlerEffect s.params (s.port h) (dispatchInstr x.status e h) x y
  | i => handlerEffect s.params (s.port i.handle) i x y

/-- Every dispatch of the grid is of format DSP. -/
theorem encode_dispatchInstr (st : Status) (e : Event) (h : Handle) : ∃ h' w, encode (dispatchInstr st e h) = .dsp h' w := by
  cases st <;> cases e <;> exact ⟨_, _, rfl⟩

/-- A session that exists before and after an operation that completed: untouched if the handle is another's, else left
as `operationEffect` says. -/
theorem exec_operation_effect {i : Instr} {s t : State} {x y : Session} {h : Handle} (hn : exec i s = .next t)
    (hx : s.session? h = some x) (hy : t.session? h = some y) :
    (h ≠ i.handle ∧ y = x) ∨ (h = i.handle ∧ operationEffect s i x y) := by
  by_cases hh : h = i.handle
  · right; refine ⟨hh, ?_⟩; subst hh
    by_cases hc : ∃ h w, encode i = .dsp h w
    · obtain ⟨y', h1, h2, -⟩ := exec_handler_next hc hn hx
      rw [hy] at h1; cases h1
      cases i <;> first | exact h2 | (obtain ⟨_,_,hc⟩ := hc; cases hc)
    · cases i <;> first | exact absurd ⟨_, _, rfl⟩ hc | skip
      case createSession id cap cbs =>
        rcases exec_next hn with ⟨r, rfl⟩ | ⟨id', cap', cbs', f, r, he, hs, -⟩ | ⟨_, _, he, -⟩ | ⟨x', f, r, hx', rfl⟩
        · exact Option.some.inj (hy.symm.trans hx)
        · cases he; simp only [Instr.handle] at hx; rw [hs] at hx; cases hx
        · cases he
        · simp only [exec, execCreateSession] at hn
          simp only [Instr.handle] at hx hy
          by_cases hid : id ∈ s.params.periphIds
          · simp only [hid, if_true] at hn; rw [hx] at hn; cases hn
          · simp only [hid, if_false, raiseError] at hn;
            have := Host.Outcome.next.inj hn
            simp only [Instr.handle] at this; rw [← this] at hy
            exact Option.some.inj (hy.symm.trans hx)
      case destroySession h =>
        simp only [exec, execDestroySession, Instr.handle] at hn hx hy
        rw [hx] at hn; cases hn
        simp [State.session?] at hy
      case masterTransmit h a bytes =>
        simp only [Instr.handle] at hx hy
        obtain ⟨x', hx', -, ⟨h0, rfl⟩ | ⟨h0, rfl⟩⟩ := transfer_next hn
        · left; exact ⟨Option.some.inj (hy.symm.trans hx), by simpa using h0⟩
        · rw [hx] at hx'; cases hx'
          right; simp at hy; rw [← hy]; exact ⟨by simpa using h0, runMicros_transmit _ _ _⟩
      case masterReceive h a n =>
        simp only [Instr.handle] at hx hy
        obtain ⟨x', hx', -, ⟨h0, rfl⟩ | ⟨h0, rfl⟩⟩ := transfer_next hn
        · left; exact ⟨Option.some.inj (hy.symm.trans hx), by simpa using h0⟩
        · rw [hx] at hx'; cases hx'
          right; simp at hy; rw [← hy]; exact ⟨by simpa using h0, runMicros_receive _ _ _⟩
      case setSlaveTransmitBuffer h b =>
        simp only [Instr.handle] at hx hy
        obtain ⟨u, hu, rfl⟩ := returning_next hn
        obtain ⟨x', f, hx', hf, rfl⟩ := onSession_next hu
        rw [hx] at hx'; cases hx'; cases hf
        simp at hy; rw [← hy]; exact runMicros_slaveBuffer _ _
      case pop h =>
        simp only [Instr.handle] at hx hy
        simp only [exec, execPop] at hn
        rw [hx] at hn
        by_cases h0 : x.unreadCount = 0
        · simp only [h0, if_true] at hn; cases hn; left; exact Option.some.inj (hy.symm.trans hx)
        · simp only [h0, if_false] at hn; cases hn; right
          simp [popCountBack, popByte] at hy; exact ⟨hy.symm, h0⟩
      case onInterrupt h =>
        simp only [Instr.handle] at hx hy
        have hn2 : execOnInterrupt h s = .next t := hn
        rw [execOnInterrupt_live hx] at hn2
        cases he : selectEvent (s.port h).flags with
        | none => rw [he] at hn2; cases hn2; left; exact Option.some.inj (hy.symm.trans hx)
        | some e =>
          rw [he] at hn2
          obtain ⟨y', h1, h2, -⟩ := exec_handler_next (encode_dispatchInstr _ _ _) hn2 (by simpa using hx)
          simp only [dispatchInstr_handle] at h1 h2
          rw [hy] at h1; cases h1
          exact .inr ⟨e, he, h2⟩
  · left; refine ⟨hh, ?_⟩
    rcases exec_next hn with ⟨r, rfl⟩ | ⟨id', cap', cbs', f, r, rfl, hs, -, -, rfl⟩ | ⟨_, _, rfl, -, rfl⟩ | ⟨x', f, r, hx', rfl⟩
    · exact Option.some.inj (hy.symm.trans hx)
    · first | rw [session?_withResult, session?_put_ne s f hh] at hy | (simp only [Instr.handle] at hh; rw [session?_withResult, session?_put_ne s f hh] at hy); exact Option.some.inj (hy.symm.trans hx)
    · first | rw [session?_withResult, State.session?, closeSession_registry, tableFind_erase_ne _ hh] at hy | (simp only [Instr.handle] at hh; rw [session?_withResult, State.session?, closeSession_registry, tableFind_erase_ne _ hh] at hy); exact Option.some.inj (hy.symm.trans hx)
    · rw [session?_withResult, session?_put_ne s f hh] at hy; exact Option.some.inj (hy.symm.trans hx)

end Sys2Proof.Machine
end

