-- ==== Sys2Proof/Laws/PerInstr.lean ====
section
/-! SUPPORT. Facts about every operation as syntax, proved once per constructor: the family `TableRow`. -/

namespace Sys2Proof.Laws.TableRow

/-- The operation's own code word has its row's `match`, the row's mask keeps every bit of the `match`, and encoding does
not change the handle. -/
def Statement (i : Instr) : Prop :=
  (encode i).bits = i.tableMatch ∧ i.tableMatch &&& i.tableMask = i.tableMatch ∧
  (∀ h dw, encode i = .dsp h dw → i.handle = h)

/-- The mask of every row keeps the row's match. -/
theorem mask_keeps_match (i : Instr) : i.tableMatch &&& i.tableMask = i.tableMatch := by
  cases i <;> simp [Instr.tableMatch, Instr.tableMask]

theorem createSession (id : Handle) (ringCapacity : Nat) (callbacks : Callbacks) : Statement (.createSession id ringCapacity callbacks) := ⟨rfl, mask_keeps_match _, nofun⟩
theorem destroySession (h : Handle) : Statement (.destroySession h) := ⟨rfl, mask_keeps_match _, nofun⟩
theorem masterTransmit (h : Handle) (address7 : Nat) (bytes : List Byte) : Statement (.masterTransmit h address7 bytes) := ⟨rfl, mask_keeps_match _, nofun⟩
theorem masterReceive (h : Handle) (address7 size : Nat) : Statement (.masterReceive h address7 size) := ⟨rfl, mask_keeps_match _, nofun⟩
theorem pop (h : Handle) : Statement (.pop h) := ⟨rfl, mask_keeps_match _, nofun⟩
theorem onInterrupt (h : Handle) : Statement (.onInterrupt h) := ⟨rfl, mask_keeps_match _, nofun⟩
theorem setSlaveTransmitBuffer (h : Handle) (bytes : Option (List Byte)) : Statement (.setSlaveTransmitBuffer h bytes) := ⟨rfl, mask_keeps_match _, nofun⟩
theorem irqNone (h : Handle) : Statement (.irqNone h) := ⟨rfl, mask_keeps_match _, fun | _, _, rfl => rfl⟩
theorem xNackIdle (h : Handle) : Statement (.xNackIdle h) := ⟨rfl, mask_keeps_match _, fun | _, _, rfl => rfl⟩
theorem xRxIdle (h : Handle) : Statement (.xRxIdle h) := ⟨rfl, mask_keeps_match _, fun | _, _, rfl => rfl⟩
theorem xSbIdle (h : Handle) : Statement (.xSbIdle h) := ⟨rfl, mask_keeps_match _, fun | _, _, rfl => rfl⟩
theorem addrIdle (h : Handle) : Statement (.addrIdle h) := ⟨rfl, mask_keeps_match _, fun | _, _, rfl => rfl⟩
theorem xTxeIdle (h : Handle) : Statement (.xTxeIdle h) := ⟨rfl, mask_keeps_match _, fun | _, _, rfl => rfl⟩
theorem xStopIdle (h : Handle) : Statement (.xStopIdle h) := ⟨rfl, mask_keeps_match _, fun | _, _, rfl => rfl⟩
theorem nackMtxStartSent (h : Handle) : Statement (.nackMtxStartSent h) := ⟨rfl, mask_keeps_match _, fun | _, _, rfl => rfl⟩
theorem xRxMtxStartSent (h : Handle) : Statement (.xRxMtxStartSent h) := ⟨rfl, mask_keeps_match _, fun | _, _, rfl => rfl⟩
theorem sbMtxStartSent (h : Handle) : Statement (.sbMtxStartSent h) := ⟨rfl, mask_keeps_match _, fun | _, _, rfl => rfl⟩
theorem xAddrMtxStartSent (h : Handle) : Statement (.xAddrMtxStartSent h) := ⟨rfl, mask_keeps_match _, fun | _, _, rfl => rfl⟩
theorem xTxeMtxStartSent (h : Handle) : Statement (.xTxeMtxStartSent h) := ⟨rfl, mask_keeps_match _, fun | _, _, rfl => rfl⟩
theorem xStopMtxStartSent (h : Handle) : Statement (.xStopMtxStartSent h) := ⟨rfl, mask_keeps_match _, fun | _, _, rfl => rfl⟩
theorem nackMtxAddrAcked (h : Handle) : Statement (.nackMtxAddrAcked h) := ⟨rfl, mask_keeps_match _, fun | _, _, rfl => rfl⟩
theorem xRxMtxAddrAcked (h : Handle) : Statement (.xRxMtxAddrAcked h) := ⟨rfl, mask_keeps_match _, fun | _, _, rfl => rfl⟩
theorem xSbMtxAddrAcked (h : Handle) : Statement (.xSbMtxAddrAcked h) := ⟨rfl, mask_keeps_match _, fun | _, _, rfl => rfl⟩
theorem addrMtxAddrAcked (h : Handle) : Statement (.addrMtxAddrAcked h) := ⟨rfl, mask_keeps_match _, fun | _, _, rfl => rfl⟩
theorem xTxeMtxAddrAcked (h : Handle) : Statement (.xTxeMtxAddrAcked h) := ⟨rfl, mask_keeps_match _, fun | _, _, rfl => rfl⟩
theorem xStopMtxAddrAcked (h : Handle) : Statement (.xStopMtxAddrAcked h) := ⟨rfl, mask_keeps_match _, fun | _, _, rfl => rfl⟩
theorem nackMtx (h : Handle) : Statement (.nackMtx h) := ⟨rfl, mask_keeps_match _, fun | _, _, rfl => rfl⟩
theorem xRxMtx (h : Handle) : Statement (.xRxMtx h) := ⟨rfl, mask_keeps_match _, fun | _, _, rfl => rfl⟩
theorem xSbMtx (h : Handle) : Statement (.xSbMtx h) := ⟨rfl, mask_keeps_match _, fun | _, _, rfl => rfl⟩
theorem xAddrMtx (h : Handle) : Statement (.xAddrMtx h) := ⟨rfl, mask_keeps_match _, fun | _, _, rfl => rfl⟩
theorem txeMtx (h : Handle) : Statement (.txeMtx h) := ⟨rfl, mask_keeps_match _, fun | _, _, rfl => rfl⟩
theorem xStopMtx (h : Handle) : Statement (.xStopMtx h) := ⟨rfl, mask_keeps_match _, fun | _, _, rfl => rfl⟩
theorem xNackSrx (h : Handle) : Statement (.xNackSrx h) := ⟨rfl, mask_keeps_match _, fun | _, _, rfl => rfl⟩
theorem rxSrx (h : Handle) : Statement (.rxSrx h) := ⟨rfl, mask_keeps_match _, fun | _, _, rfl => rfl⟩
theorem xSbSrx (h : Handle) : Statement (.xSbSrx h) := ⟨rfl, mask_keeps_match _, fun | _, _, rfl => rfl⟩
theorem xAddrSrx (h : Handle) : Statement (.xAddrSrx h) := ⟨rfl, mask_keeps_match _, fun | _, _, rfl => rfl⟩
theorem xTxeSrx (h : Handle) : Statement (.xTxeSrx h) := ⟨rfl, mask_keeps_match _, fun | _, _, rfl => rfl⟩
theorem stopSrx (h : Handle) : Statement (.stopSrx h) := ⟨rfl, mask_keeps_match _, fun | _, _, rfl => rfl⟩
theorem nackMrxStartSent (h : Handle) : Statement (.nackMrxStartSent h) := ⟨rfl, mask_keeps_match _, fun | _, _, rfl => rfl⟩
theorem xRxMrxStartSent (h : Handle) : Statement (.xRxMrxStartSent h) := ⟨rfl, mask_keeps_match _, fun | _, _, rfl => rfl⟩
theorem sbMrxStartSent (h : Handle) : Statement (.sbMrxStartSent h) := ⟨rfl, mask_keeps_match _, fun | _, _, rfl => rfl⟩
theorem xAddrMrxStartSent (h : Handle) : Statement (.xAddrMrxStartSent h) := ⟨rfl, mask_keeps_match _, fun | _, _, rfl => rfl⟩
theorem xTxeMrxStartSent (h : Handle) : Statement (.xTxeMrxStartSent h) := ⟨rfl, mask_keeps_match _, fun | _, _, rfl => rfl⟩
theorem xStopMrxStartSent (h : Handle) : Statement (.xStopMrxStartSent h) := ⟨rfl, mask_keeps_match _, fun | _, _, rfl => rfl⟩
theorem nackMrxAddrAcked (h : Handle) : Statement (.nackMrxAddrAcked h) := ⟨rfl, mask_keeps_match _, fun | _, _, rfl => rfl⟩
theorem xRxMrxAddrAcked (h : Handle) : Statement (.xRxMrxAddrAcked h) := ⟨rfl, mask_keeps_match _, fun | _, _, rfl => rfl⟩
theorem xSbMrxAddrAcked (h : Handle) : Statement (.xSbMrxAddrAcked h) := ⟨rfl, mask_keeps_match _, fun | _, _, rfl => rfl⟩
theorem addrMrxAddrAcked (h : Handle) : Statement (.addrMrxAddrAcked h) := ⟨rfl, mask_keeps_match _, fun | _, _, rfl => rfl⟩
theorem xTxeMrxAddrAcked (h : Handle) : Statement (.xTxeMrxAddrAcked h) := ⟨rfl, mask_keeps_match _, fun | _, _, rfl => rfl⟩
theorem xStopMrxAddrAcked (h : Handle) : Statement (.xStopMrxAddrAcked h) := ⟨rfl, mask_keeps_match _, fun | _, _, rfl => rfl⟩
theorem nackMrx (h : Handle) : Statement (.nackMrx h) := ⟨rfl, mask_keeps_match _, fun | _, _, rfl => rfl⟩
theorem rxMrx (h : Handle) : Statement (.rxMrx h) := ⟨rfl, mask_keeps_match _, fun | _, _, rfl => rfl⟩
theorem xSbMrx (h : Handle) : Statement (.xSbMrx h) := ⟨rfl, mask_keeps_match _, fun | _, _, rfl => rfl⟩
theorem xAddrMrx (h : Handle) : Statement (.xAddrMrx h) := ⟨rfl, mask_keeps_match _, fun | _, _, rfl => rfl⟩
theorem xTxeMrx (h : Handle) : Statement (.xTxeMrx h) := ⟨rfl, mask_keeps_match _, fun | _, _, rfl => rfl⟩
theorem xStopMrx (h : Handle) : Statement (.xStopMrx h) := ⟨rfl, mask_keeps_match _, fun | _, _, rfl => rfl⟩
theorem nackStx (h : Handle) : Statement (.nackStx h) := ⟨rfl, mask_keeps_match _, fun | _, _, rfl => rfl⟩
theorem xRxStx (h : Handle) : Statement (.xRxStx h) := ⟨rfl, mask_keeps_match _, fun | _, _, rfl => rfl⟩
theorem xSbStx (h : Handle) : Statement (.xSbStx h) := ⟨rfl, mask_keeps_match _, fun | _, _, rfl => rfl⟩
theorem xAddrStx (h : Handle) : Statement (.xAddrStx h) := ⟨rfl, mask_keeps_match _, fun | _, _, rfl => rfl⟩
theorem txeStx (h : Handle) : Statement (.txeStx h) := ⟨rfl, mask_keeps_match _, fun | _, _, rfl => rfl⟩
theorem xStopStx (h : Handle) : Statement (.xStopStx h) := ⟨rfl, mask_keeps_match _, fun | _, _, rfl => rfl⟩

end Sys2Proof.Laws.TableRow
end

