-- ==== Sys2Proof/Laws/Session.lean ====
section
/-! SUPPORT. What a single micro-step changes of its session, and what any step, whoever moved, can have done to a session
that exists before and after it. Statements about the life of a session are short case analyses of the latter. -/

namespace Sys2Proof.Machine

/-- The session after one micro-step of MasterTransmit, MasterReceive or SetSlaveTransmitBuffer (rules R110, R120, R134). -/
def Micro.leaves (m : Micro) (x : Session) : Session :=
  match m with
  | .disableClockStretch => { x with stretch := .off, trace := x.trace ++ [.stretchOff] }
  | .storeTransmit bytes => { x with mtxBuffer := Memory.ofBytes bytes, mtxSize := bytes.length }
  | .zeroTransmitCount => { x with mtxCount := 0 }
  | .newReceive size => { x with mrxBuffer := [], mrxSize := size }
  | .zeroReceiveCount => { x with mrxCount := 0 }
  | .setAddress b => { x with slaveAddress := b }
  | .preArmNack size => if size = 1 then { x with ackNext := .nack, trace := x.trace ++ [.nackNext] } else x
  | .enterTransmit => { x with status := .mtxStartSent }
  | .enterReceive => { x with status := .mrxStartSent }
  | .issueStart => { x with trace := x.trace ++ [.start] }
  | .storeSlaveBuffer bytes => { x with stxBuffer := bytes.map Memory.ofBytes }

@[simp] theorem apply_session (m : Micro) (f : Focus) : (m.apply f).session = m.leaves f.session := by
  cases m <;> first | rfl | (rename_i n; by_cases h : n = 1 <;> simp [Micro.apply, Micro.leaves, h, Focus.setNackNext])

/-- What is left to run of a host command does not touch the session. -/
@[simp] theorem session?_afterMicro (s : State) (h h' : Handle) (todo : List Micro) :
    (s.afterMicro h todo).session? h' = s.session? h' := by
  unfold State.afterMicro; split <;> rfl

/-- The rest of a held TXE handler (rules R113, R114). -/
theorem releaseHold_next {h : Handle} {s t : State} (hn : releaseHold h s = .next t) :
    ∃ x f, s.session? h = some x ∧ t = s.put h f ∧
      f.session = { x with stretch := .on, status := .idle,
                           trace := x.trace ++ [.stop, .stretchOn] ++ callItems x.callbacks .onMasterTransmitDone } := by
  obtain ⟨x, f, hx, hf, rfl⟩ := onSession_next hn
  cases hf
  exact ⟨x, _, hx, rfl, by rw [finishTransmit_session]; rfl⟩

/-- A session found again in a state in which another session, or this one, was put. -/
theorem session?_of_put {s : State} {h h' : Handle} {f : Focus} {x y : Session} (hx : s.session? h = some x)
    (hy : (s.put h' f).session? h = some y) : (h = h' ∧ y = f.session) ∨ (h ≠ h' ∧ y = x) := by
  by_cases hh : h = h'
  · subst hh; rw [session?_put_same] at hy; exact .inl ⟨rfl, (Option.some.inj hy).symm⟩
  · rw [session?_put_ne _ _ hh] at hy; exact .inr ⟨hh, Option.some.inj (hy.symm.trans hx)⟩

/-- What a step that answers a next state did to a session that exists before and after it: nothing; what an operation
leaves; one micro-step; the count of a Pop in progress; the rest of a held handler. -/
theorem step_session_effect {s t : State} {h : Handle} {x y : Session} (hn : step s = .next t)
    (hx : s.session? h = some x) (hy : t.session? h = some y) :
    y = x ∨
    (∃ i u, s.performs i u ∧ u.params = s.params ∧ i.handle = h ∧ operationEffect u i x y) ∨
    (∃ m, s.runsMicro h m ∧ y = m.leaves x) ∨
    (∃ u, y = { x with unreadCount := u - 1 }) ∨
    (s.releases h ∧ y = { x with stretch := .on, status := .idle,
                                 trace := x.trace ++ [.stop, .stretchOn] ++
                                   callItems x.callbacks .onMasterTransmitDone }) := by
  have op : ∀ {i : Instr} {u : State}, s.performs i u → u.params = s.params → u.session? h = some x →
      exec i u = .next t → y = x ∨ ∃ i u, s.performs i u ∧ u.params = s.params ∧ i.handle = h ∧ operationEffect u i x y := by
    intro i u hp hu hux he
    rcases exec_operation_effect he hux hy with ⟨-, hxy⟩ | ⟨hh, hxy⟩
    · exact .inl hxy
    · exact .inr ⟨i, u, hp, hu, hh.symm, hxy⟩
  rcases step_next hn with ⟨-, rfl⟩ | ⟨h', ht, hr⟩ | ⟨h', p, rest, -, rfl⟩ | ⟨rest, ht, hm⟩ |
    ⟨ctx, w, answers, rest, i, ht, hi, -, he⟩ | ⟨w, rest, i, ht, hi, hb | ⟨-, he⟩⟩
  · exact .inl (Option.some.inj (hy.symm.trans hx))
  · obtain ⟨x', f, hx', rfl, hf⟩ := releaseHold_next hr
    rcases session?_of_put hx hy with ⟨rfl, hz⟩ | ⟨-, hz⟩
    · rw [hx] at hx'; cases hx'
      exact .inr (.inr (.inr (.inr ⟨ht, hz.trans hf⟩)))
    · exact .inl hz
  · exact .inl (Option.some.inj (hy.symm.trans (by simpa using hx)))
  · rcases microStep_next hm with ⟨-, rfl⟩ | ⟨_, -, rfl⟩ | ⟨h', m, todo, x', hh, hx', rfl⟩ |
      ⟨_, _, -, -, ⟨-, rfl⟩ | ⟨-, rfl⟩⟩ | ⟨h', u, x', -, hx', rfl⟩ | ⟨h', u, b, x', -, hx', rfl⟩
    · exact .inl (Option.some.inj (hy.symm.trans hx))
    · exact .inl (Option.some.inj (hy.symm.trans hx))
    · rw [session?_afterMicro] at hy
      rcases session?_of_put (s := s.withInputs rest) hx hy with ⟨rfl, hz⟩ | ⟨-, hz⟩
      · rw [session?_withInputs, hx] at hx'; cases hx'
        exact .inr (.inr (.inl ⟨m, ⟨todo, rest, hh, ht⟩, by simpa using hz⟩))
      · exact .inl hz
    · exact .inl (Option.some.inj (hy.symm.trans hx))
    · exact .inl (Option.some.inj (hy.symm.trans hx))
    · rw [session?_withHost] at hy
      rcases session?_of_put (s := s.withInputs rest) hx hy with ⟨rfl, hz⟩ | ⟨-, hz⟩
      · rw [session?_withInputs, hx] at hx'; cases hx'
        exact .inl (by simpa [popByte] using hz)
      · exact .inl hz
    · have hy : ((s.withInputs rest).put h' (popCountBack u ((s.withInputs rest).focus h' x'))).session? h = some y := hy
      rcases session?_of_put (s := s.withInputs rest) hx hy with ⟨rfl, hz⟩ | ⟨-, hz⟩
      · rw [session?_withInputs, hx] at hx'; cases hx'
        exact .inr (.inr (.inr (.inl ⟨u, by simpa [popCountBack] using hz⟩)))
      · exact .inl hz
  · exact (op ⟨w, rest, hi, .inr ⟨ctx, answers, ht, rfl⟩⟩ (by simp) (by simpa using hx) he).imp_right .inl
  · obtain ⟨-, -, rfl | ⟨_, rfl, -⟩⟩ := beginHost_next hb <;> exact .inl (Option.some.inj (hy.symm.trans hx))
  · exact (op ⟨w, rest, hi, .inl ⟨ht, rfl⟩⟩ rfl (by simpa using hx) he).imp_right .inl

/-- What a script's word performs is a command; a dispatch is only ever performed through OnInterrupt (rule R100). -/
theorem not_performs_dispatch {s u : State} {i : Instr} {h : Handle} {dw : DispatchWord} (hi : encode i = .dsp h dw) :
    ¬ s.performs i u := by
  rintro ⟨w, rest, hd, -⟩
  unfold decodeCommand at hd
  repeat' (split at hd)
  all_goals first | (cases hd; cases hi) | cases hd

/-! `P_CROSS_NEST` is in the parameters and nowhere else. -/

@[simp] theorem withCrossNest_registry (s : State) (b : Bool) : (s.withCrossNest b).registry = s.registry := rfl
@[simp] theorem withCrossNest_ports (s : State) (b : Bool) : (s.withCrossNest b).ports = s.ports := rfl
@[simp] theorem withCrossNest_irqPhase (s : State) (b : Bool) : (s.withCrossNest b).irqPhase = s.irqPhase := rfl
@[simp] theorem withCrossNest_host (s : State) (b : Bool) : (s.withCrossNest b).host = s.host := rfl
@[simp] theorem withCrossNest_inputs (s : State) (b : Bool) : (s.withCrossNest b).inputs = s.inputs := rfl
@[simp] theorem withCrossNest_draws (s : State) (b : Bool) : (s.withCrossNest b).draws = s.draws := rfl
@[simp] theorem session?_withCrossNest (s : State) (b : Bool) (h : Handle) :
    (s.withCrossNest b).session? h = s.session? h := rfl
@[simp] theorem port_withCrossNest (s : State) (b : Bool) (h : Handle) : (s.withCrossNest b).port h = s.port h := rfl
@[simp] theorem nextTurn_withCrossNest (s : State) (b : Bool) : nextTurn (s.withCrossNest b) = nextTurn s := rfl

end Sys2Proof.Machine
end

