-- ==== Sys2Proof/Tests/Slice0.lean ====
section
/-! SUPPORT. Tests of the model on small states, with expected results from the spec (95_test_vectors.md and the examples of
the rules), and for every statement with hypotheses a witness: concrete states and operands that meet them. -/

namespace Sys2Proof.Tests

open Sys2Proof Sys2Proof.Machine

/-! ### Well-formedness: the ill-formed terms are refused (rule R76) -/

theorem test_wf_transmit_address : Instr.wellFormed (.masterTransmit 1 128 [1#8]) = false := by decide
theorem test_wf_receive_address : Instr.wellFormed (.masterReceive 1 200 1) = false := by decide
theorem test_wf_greatest_address :
    (Instr.wellFormed (.masterTransmit 1 127 [1#8]) && Instr.wellFormed (.masterReceive 1 127 1)) = true := by decide

/-! ### Decoding: the word of every operation, written out from rules R71, R72, R73 and R75 -/

/-- Command codes 0 to 6 of the table of rule R75. -/
theorem test_decode_commands :
    decode (.cmd ⟨0b000#3, .create 1 8 ⟨none, none, none, none⟩⟩) = .ok (.createSession 1 8 ⟨none, none, none, none⟩) ∧
    decode (.cmd ⟨0b001#3, .handle 1⟩) = .ok (.destroySession 1) ∧
    decode (.cmd ⟨0b010#3, .transmit 1 0x20 [1#8, 2#8, 3#8]⟩) = .ok (.masterTransmit 1 0x20 [1#8, 2#8, 3#8]) ∧
    decode (.cmd ⟨0b011#3, .receive 1 0x20 3⟩) = .ok (.masterReceive 1 0x20 3) ∧
    decode (.cmd ⟨0b100#3, .handle 1⟩) = .ok (.pop 1) ∧
    decode (.cmd ⟨0b101#3, .handle 1⟩) = .ok (.onInterrupt 1) ∧
    decode (.cmd ⟨0b110#3, .buffer 1 (some [0xA0#8])⟩) = .ok (.setSlaveTransmitBuffer 1 (some [0xA0#8])) := by decide

/-- Reserved code 7 (rule R80), an address of 128 (rule R76), operands of another form, statuses 9 and 15 (rule R79). -/
theorem test_decode_refuses :
    decode (.cmd ⟨0b111#3, .handle 1⟩) = .error .reservedCommand ∧
    decode (.cmd ⟨0b011#3, .receive 1 128 3⟩) = .error .addressNotSevenBits ∧
    decode (.cmd ⟨0b001#3, .receive 1 0 3⟩) = .error .operandForm ∧
    decode (.dsp 1 0b1001000001#10) = .error .notAStatus ∧
    decode (.dsp 1 0b1111000000#10) = .error .notAStatus := by decide

/-- No flag set, in three statuses (rule R102, vectors VE2). -/
theorem test_decode_none :
    decode (.dsp 1 0b0000000000#10) = .ok (.irqNone 1) ∧ decode (.dsp 1 0b0100000000#10) = .ok (.irqNone 1) ∧
    decode (.dsp 1 0b0111000000#10) = .ok (.irqNone 1) := by decide

/-- Status Idle, code 0b0000, with each event's own flag. -/
theorem test_decode_idle :
    decode (.dsp 1 0b0000000001#10) = .ok (.xNackIdle 1) ∧
    decode (.dsp 1 0b0000000010#10) = .ok (.xRxIdle 1) ∧
    decode (.dsp 1 0b0000000100#10) = .ok (.xSbIdle 1) ∧
    decode (.dsp 1 0b0000001000#10) = .ok (.addrIdle 1) ∧
    decode (.dsp 1 0b0000010000#10) = .ok (.xTxeIdle 1) ∧
    decode (.dsp 1 0b0000100000#10) = .ok (.xStopIdle 1) := by decide

/-- Status MTX_StartSent, code 0b0001, with each event's own flag. -/
theorem test_decode_mtxStartSent :
    decode (.dsp 1 0b0001000001#10) = .ok (.nackMtxStartSent 1) ∧
    decode (.dsp 1 0b0001000010#10) = .ok (.xRxMtxStartSent 1) ∧
    decode (.dsp 1 0b0001000100#10) = .ok (.sbMtxStartSent 1) ∧
    decode (.dsp 1 0b0001001000#10) = .ok (.xAddrMtxStartSent 1) ∧
    decode (.dsp 1 0b0001010000#10) = .ok (.xTxeMtxStartSent 1) ∧
    decode (.dsp 1 0b0001100000#10) = .ok (.xStopMtxStartSent 1) := by decide

/-- Status MTX_AddrAcked, code 0b0010, with each event's own flag. -/
theorem test_decode_mtxAddrAcked :
    decode (.dsp 1 0b0010000001#10) = .ok (.nackMtxAddrAcked 1) ∧
    decode (.dsp 1 0b0010000010#10) = .ok (.xRxMtxAddrAcked 1) ∧
    decode (.dsp 1 0b0010000100#10) = .ok (.xSbMtxAddrAcked 1) ∧
    decode (.dsp 1 0b0010001000#10) = .ok (.addrMtxAddrAcked 1) ∧
    decode (.dsp 1 0b0010010000#10) = .ok (.xTxeMtxAddrAcked 1) ∧
    decode (.dsp 1 0b0010100000#10) = .ok (.xStopMtxAddrAcked 1) := by decide

/-- Status MTX, code 0b0011, with each event's own flag. -/
theorem test_decode_mtx :
    decode (.dsp 1 0b0011000001#10) = .ok (.nackMtx 1) ∧
    decode (.dsp 1 0b0011000010#10) = .ok (.xRxMtx 1) ∧
    decode (.dsp 1 0b0011000100#10) = .ok (.xSbMtx 1) ∧
    decode (.dsp 1 0b0011001000#10) = .ok (.xAddrMtx 1) ∧
    decode (.dsp 1 0b0011010000#10) = .ok (.txeMtx 1) ∧
    decode (.dsp 1 0b0011100000#10) = .ok (.xStopMtx 1) := by decide

/-- Status SRX, code 0b0100, with each event's own flag. -/
theorem test_decode_srx :
    decode (.dsp 1 0b0100000001#10) = .ok (.xNackSrx 1) ∧
    decode (.dsp 1 0b0100000010#10) = .ok (.rxSrx 1) ∧
    decode (.dsp 1 0b0100000100#10) = .ok (.xSbSrx 1) ∧
    decode (.dsp 1 0b0100001000#10) = .ok (.xAddrSrx 1) ∧
    decode (.dsp 1 0b0100010000#10) = .ok (.xTxeSrx 1) ∧
    decode (.dsp 1 0b0100100000#10) = .ok (.stopSrx 1) := by decide

/-- Status MRX_StartSent, code 0b0101, with each event's own flag. -/
theorem test_decode_mrxStartSent :
    decode (.dsp 1 0b0101000001#10) = .ok (.nackMrxStartSent 1) ∧
    decode (.dsp 1 0b0101000010#10) = .ok (.xRxMrxStartSent 1) ∧
    decode (.dsp 1 0b0101000100#10) = .ok (.sbMrxStartSent 1) ∧
    decode (.dsp 1 0b0101001000#10) = .ok (.xAddrMrxStartSent 1) ∧
    decode (.dsp 1 0b0101010000#10) = .ok (.xTxeMrxStartSent 1) ∧
    decode (.dsp 1 0b0101100000#10) = .ok (.xStopMrxStartSent 1) := by decide

/-- Status MRX_AddrAcked, code 0b0110, with each event's own flag. -/
theorem test_decode_mrxAddrAcked :
    decode (.dsp 1 0b0110000001#10) = .ok (.nackMrxAddrAcked 1) ∧
    decode (.dsp 1 0b0110000010#10) = .ok (.xRxMrxAddrAcked 1) ∧
    decode (.dsp 1 0b0110000100#10) = .ok (.xSbMrxAddrAcked 1) ∧
    decode (.dsp 1 0b0110001000#10) = .ok (.addrMrxAddrAcked 1) ∧
    decode (.dsp 1 0b0110010000#10) = .ok (.xTxeMrxAddrAcked 1) ∧
    decode (.dsp 1 0b0110100000#10) = .ok (.xStopMrxAddrAcked 1) := by decide

/-- Status MRX, code 0b0111, with each event's own flag. -/
theorem test_decode_mrx :
    decode (.dsp 1 0b0111000001#10) = .ok (.nackMrx 1) ∧
    decode (.dsp 1 0b0111000010#10) = .ok (.rxMrx 1) ∧
    decode (.dsp 1 0b0111000100#10) = .ok (.xSbMrx 1) ∧
    decode (.dsp 1 0b0111001000#10) = .ok (.xAddrMrx 1) ∧
    decode (.dsp 1 0b0111010000#10) = .ok (.xTxeMrx 1) ∧
    decode (.dsp 1 0b0111100000#10) = .ok (.xStopMrx 1) := by decide

/-- Status STX, code 0b1000, with each event's own flag. -/
theorem test_decode_stx :
    decode (.dsp 1 0b1000000001#10) = .ok (.nackStx 1) ∧
    decode (.dsp 1 0b1000000010#10) = .ok (.xRxStx 1) ∧
    decode (.dsp 1 0b1000000100#10) = .ok (.xSbStx 1) ∧
    decode (.dsp 1 0b1000001000#10) = .ok (.xAddrStx 1) ∧
    decode (.dsp 1 0b1000010000#10) = .ok (.txeStx 1) ∧
    decode (.dsp 1 0b1000100000#10) = .ok (.xStopStx 1) := by decide

/-- Several flags at once: the lowest set bit is selected (vectors VE2). -/
theorem test_decode_priority :
    decode (.dsp 1 0b0011010001#10) = .ok (.nackMtx 1) ∧ decode (.dsp 1 0b0100100010#10) = .ok (.rxSrx 1) ∧
    decode (.dsp 1 0b0011110000#10) = .ok (.txeMtx 1) ∧ decode (.dsp 1 0b0111111110#10) = .ok (.rxMrx 1) ∧
    decode (.dsp 1 0b0001001100#10) = .ok (.sbMtxStartSent 1) ∧ decode (.dsp 1 0b0011010010#10) = .ok (.xRxMtx 1) := by
  decide

/-- Table words: the width tells the format; a bit outside the format is refused. -/
theorem test_table_words :
    decodeTableWord 8 4 = some (.pop 1) ∧ decodeTableWord 16 0x0D0 = some (.txeMtx 1) ∧
    decodeTableWord 16 0x400 = none ∧ decodeTableWord 8 8 = none := by decide

/-- Address bytes of vectors VE3. -/
theorem test_address_bytes :
    addressByte 0x00 0#1 = 0x00#8 ∧ addressByte 0x01 1#1 = 0x03#8 ∧ addressByte 0x20 0#1 = 0x40#8 ∧
    addressByte 0x50 1#1 = 0xA1#8 ∧ addressByte 0x7F 0#1 = 0xFE#8 ∧ addressByte 0x7F 1#1 = 0xFF#8 := by decide

/-! ### A small state, and what is looked at after one operation -/

/-- The example of rule R91 in the ring; a transmit of three bytes, one written; a receive of three, none stored. -/
def demo (st : Status) : Session :=
  { status := st, slaveAddress := 0x40#8, busPeriodLength := 0, ringCap := 4,
    ring := Memory.ofBytes [0x11#8, 0x22#8, 0x33#8, 0x00#8], writeIndex := 3, unreadCount := 3,
    mtxBuffer := Memory.ofBytes [0x01#8, 0x02#8, 0x03#8], mtxSize := 3, mtxCount := 1,
    stxBuffer := some (Memory.ofBytes [0xA0#8, 0xA1#8]), stxCount := 1, mrxBuffer := [], mrxSize := 3, mrxCount := 0,
    callbacks := ⟨some 0, some 0, some 0, some 0⟩, ackNext := .ack, stretch := .off, enabled := true, trace := [] }

/-- What the environment presents: the flags, `TC`, the direction; the data register holds 0x5A. -/
def wires (flags : FlagVec) (tc : Bool) (dir : BitVec 1) : Port := { flags := flags, tc := tc, dir := dir, data := 0x5A#8 }

/-- One live session, of identifier 1. -/
def one (x : Session) (p : Port) : State := { State.reset with registry := [(1, x)], ports := [(1, p)] }

/-- The operation completed, and the session, the port and irqPhase it left satisfy the test. -/
def leaves (o : Host.Outcome State Fault Refusal) (k : Session → Port → IrqPhase → Bool) : Bool :=
  match o with
  | .next t =>
    match t.session? 1 with
    | some y => k y (t.port 1) t.irqPhase
    | none => false
  | _ => false

/-- The operation completed, and the state satisfies the test. -/
def after (o : Host.Outcome State Fault Refusal) (k : State → Bool) : Bool :=
  match o with
  | .next t => k t
  | _ => false

/-- The operation was refused for this reason. -/
def refusedAs (o : Host.Outcome State Fault Refusal) (r : Refusal) : Bool :=
  match o with
  | .refused q => decide (q = r)
  | _ => false

/-! ### One operation on the small state -/

/-- Example of rule R150. -/
theorem test_create : after (exec (.createSession 1 8 ⟨some 0, none, none, none⟩) State.reset) (fun t =>
    match t.session? 1 with
    | some y => decide (y.status = .idle ∧ y.ring = Memory.ofBytes [0, 0, 0, 0, 0, 0, 0, 0] ∧ y.unreadCount = 0 ∧
        y.ackNext = .ack ∧ y.stretch = .on ∧ y.trace = [.pen, .stretchOn, .ackNext] ∧ t.result = some (.handle 1))
    | none => false) = true := by decide

/-- Vectors VG1 and VG2: invalid identifier, capacity 0, occupied slot. -/
theorem test_create_corners :
    after (exec (.createSession 9 0 ⟨none, none, none, none⟩) State.reset) (fun t =>
      decide (t.result = some (.error .invalidPeripheral) ∧ t.registry = [])) = true ∧
    refusedAs (exec (.createSession 1 0 ⟨none, none, none, none⟩) State.reset) .zeroCapacity = true ∧
    refusedAs (exec (.createSession 1 4 ⟨none, none, none, none⟩) (one (demo .idle) (wires 0 false 0))) (.slotOccupied 1)
      = true := by decide

/-- Vector VH2: `PDIS` ends the trace, the slot is free. -/
theorem test_destroy : after (exec (.destroySession 1) (one (demo .mtxAddrAcked) (wires 0 false 0))) (fun t =>
    decide (t.registry = [] ∧ t.closedTraces = [(1, [.pdis])] ∧ t.result = none)) = true := by decide

/-- Example of rule R110. -/
theorem test_master_transmit :
    leaves (exec (.masterTransmit 1 0x20 [1#8, 2#8, 3#8]) (one (demo .idle) (wires 0 false 0))) (fun y _ _ =>
      decide (y.stretch = .off ∧ y.mtxBuffer = Memory.ofBytes [1#8, 2#8, 3#8] ∧ y.mtxSize = 3 ∧ y.mtxCount = 0 ∧
        y.slaveAddress = 0x40#8 ∧ y.status = .mtxStartSent ∧ y.trace = [.stretchOff, .start])) = true := by decide

/-- Vectors VM1 step 2 and VG2: a size of 0 touches nothing; an address of 0x80 is refused. -/
theorem test_master_transmit_corners :
    leaves (exec (.masterTransmit 1 0x20 []) (one (demo .mtx) (wires 0 false 0))) (fun y _ _ => decide (y = demo .mtx))
      = true ∧
    refusedAs (exec (.masterTransmit 1 0x80 [0#8]) (one (demo .idle) (wires 0 false 0))) .addressNotSevenBits = true := by
  decide

/-- Example of rule R120: a size of 1 arms NACK. -/
theorem test_master_receive_one :
    leaves (exec (.masterReceive 1 0x20 1) (one (demo .idle) (wires 0 false 0))) (fun y _ _ =>
      decide (y.slaveAddress = 0x41#8 ∧ y.ackNext = .nack ∧ y.mrxSize = 1 ∧ y.status = .mrxStartSent ∧
        y.trace = [.stretchOff, .nackNext, .start])) = true := by decide

/-- Vector VH1 step 6: it runs whatever the status, and leaves the transmit's count. -/
theorem test_master_receive_overwrites :
    leaves (exec (.masterReceive 1 0x30 2) (one (demo .mtx) (wires 0 false 0))) (fun y _ _ =>
      decide (y.slaveAddress = 0x61#8 ∧ y.ackNext = .ack ∧ y.mtxCount = 1 ∧ y.mrxCount = 0 ∧
        y.trace = [.stretchOff, .start])) = true := by decide

/-- Example of rule R91. -/
theorem test_pop : after (exec (.pop 1) (one (demo .idle) (wires 0 false 0))) (fun t =>
    decide (t.result = some (.popped true 0x11#8) ∧ (t.session? 1).map (·.unreadCount) = some 2)) = true := by decide

/-- Rule R91: nothing unread. -/
theorem test_pop_empty :
    after (exec (.pop 1) (one { demo .idle with unreadCount := 0 } (wires 0 false 0))) (fun t =>
      decide (t.result = some (.popped false 0x00#8) ∧ t.registry = [(1, { demo .idle with unreadCount := 0 })]))
      = true := by decide

/-- Vector VE2 row 2: RX is selected before STOP, and STOP is still presented. -/
theorem test_on_interrupt :
    leaves (exec (.onInterrupt 1) (one (demo .srx) (wires 0b100010 false 0))) (fun y p _ =>
      decide (y.trace = [.r 0x5A#8] ∧ y.status = .srx ∧ p.flags = 0b100010#6)) = true := by decide

/-- Vector VE2 row 10: RX in MTX is refused although TXE is set too. -/
theorem test_on_interrupt_refused :
    refusedAs (exec (.onInterrupt 1) (one (demo .mtx) (wires 0b010010 false 0))) (.unspecifiedDispatch .mtx .rx) = true := by
  decide

/-- Example of rule R134. -/
theorem test_set_slave_buffer :
    leaves (exec (.setSlaveTransmitBuffer 1 (some [0xC0#8])) (one (demo .idle) (wires 0 false 0))) (fun y _ _ =>
      decide (y.stxBuffer = some (Memory.ofBytes [0xC0#8]) ∧ y.stxCount = 1 ∧ y.trace = [])) = true := by decide

/-- Example of rule R102. -/
theorem test_irq_none :
    leaves (exec (.irqNone 1) (one (demo .srx) (wires 0 false 0))) (fun y _ _ => decide (y = demo .srx)) = true := by decide

/-- Vector V2 step 2. -/
theorem test_addr_idle_receive :
    leaves (exec (.addrIdle 1) (one (demo .idle) (wires 0b001000 false 0))) (fun y p _ =>
      decide (y.status = .srx ∧ y.stxCount = 1 ∧ y.trace = [.dir 0#1, .clr .addr] ∧ p.flags = 0#6)) = true := by decide

/-- Vector VS2 step 2. -/
theorem test_addr_idle_transmit :
    leaves (exec (.addrIdle 1) (one (demo .idle) (wires 0b001000 false 1))) (fun y _ _ =>
      decide (y.status = .stx ∧ y.stxCount = 0 ∧ y.trace = [.dir 1#1, .clr .addr])) = true := by decide

/-- Examples of rules R142 to R144: one callback, no Stop, stretching left off, NACK cleared. -/
theorem test_nack_transmit :
    leaves (exec (.nackMtxStartSent 1) (one (demo .mtxStartSent) (wires 0b000001 false 0))) (fun y p _ =>
      decide (y.status = .idle ∧ y.stretch = .off ∧ y.trace = [.clr .nack, .cb .onMasterTransmitDone] ∧ p.flags = 0#6))
      = true ∧
    leaves (exec (.nackMtxAddrAcked 1) (one (demo .mtxAddrAcked) (wires 0b000001 false 0))) (fun y _ _ =>
      decide (y.status = .idle ∧ y.trace = [.clr .nack, .cb .onMasterTransmitDone])) = true ∧
    leaves (exec (.nackMtx 1) (one (demo .mtx) (wires 0b010001 false 0))) (fun y p _ =>
      decide (y.status = .idle ∧ y.mtxCount = 1 ∧ y.trace = [.clr .nack, .cb .onMasterTransmitDone] ∧
        p.flags = 0b010000#6)) = true := by decide

/-- Examples of rules R145 to R147. -/
theorem test_nack_receive :
    leaves (exec (.nackMrxStartSent 1) (one (demo .mrxStartSent) (wires 0b000001 false 0))) (fun y _ _ =>
      decide (y.status = .idle ∧ y.trace = [.clr .nack, .cb .onMasterReceiveDone])) = true ∧
    leaves (exec (.nackMrxAddrAcked 1) (one { demo .mrxAddrAcked with ackNext := .nack } (wires 0b000001 false 0)))
      (fun y _ _ => decide (y.status = .idle ∧ y.ackNext = .nack ∧ y.trace = [.clr .nack, .cb .onMasterReceiveDone]))
      = true ∧
    leaves (exec (.nackMrx 1) (one { demo .mrx with mrxCount := 1 } (wires 0b000001 false 0))) (fun y p _ =>
      decide (y.status = .idle ∧ y.mrxCount = 1 ∧ y.trace = [.clr .nack, .cb .onMasterReceiveDone] ∧ p.flags = 0#6))
      = true := by decide

/-- Examples of rules R111 and R121. -/
theorem test_start_sent :
    leaves (exec (.sbMtxStartSent 1) (one (demo .mtxStartSent) (wires 0b000100 false 0))) (fun y p _ =>
      decide (y.status = .mtxAddrAcked ∧ y.trace = [.w 0x40#8] ∧ p.flags = 0b000100#6)) = true ∧
    leaves (exec (.sbMrxStartSent 1) (one { demo .mrxStartSent with slaveAddress := 0x41#8 } (wires 0b000100 false 0)))
      (fun y _ _ => decide (y.status = .mrxAddrAcked ∧ y.trace = [.w 0x41#8])) = true := by decide

/-- Examples of rules R112 and R122, and vector V3 step 4. -/
theorem test_address_acked :
    leaves (exec (.addrMtxAddrAcked 1) (one (demo .mtxAddrAcked) (wires 0b001000 false 0))) (fun y p _ =>
      decide (y.status = .mtx ∧ y.mtxCount = 1 ∧ y.trace = [.clr .addr] ∧ p.flags = 0#6)) = true ∧
    leaves (exec (.addrMrxAddrAcked 1) (one (demo .mrxAddrAcked) (wires 0b001000 false 0))) (fun y _ _ =>
      decide (y.status = .mrx ∧ y.ackNext = .ack ∧ y.trace = [.clr .addr])) = true ∧
    leaves (exec (.addrMrxAddrAcked 1) (one { demo .mrxAddrAcked with mrxSize := 1 } (wires 0b001000 false 0)))
      (fun y _ _ => decide (y.status = .mrx ∧ y.ackNext = .nack ∧ y.trace = [.nackNext, .clr .addr])) = true := by decide

/-- Vector V6 step 6: not the last byte. -/
theorem test_txe_mtx :
    leaves (exec (.txeMtx 1) (one (demo .mtx) (wires 0b010000 false 0))) (fun y _ q =>
      decide (y.status = .mtx ∧ y.mtxCount = 2 ∧ y.trace = [.w 0x02#8] ∧ q = .notInIrq)) = true := by decide

/-- Example of rule R113: the last byte is written and the handler is held. -/
theorem test_txe_mtx_last :
    leaves (exec (.txeMtx 1) (one { demo .mtx with mtxCount := 2 } (wires 0b010000 false 0))) (fun y _ q =>
      decide (y.status = .mtx ∧ y.mtxCount = 3 ∧ y.trace = [.w 0x03#8] ∧ q = .spinTC 1)) = true := by decide

/-- Vector V6 step 8: the hold is released by `TC`; with a null callback (vector VM3) no `CB` item appears. -/
theorem test_release :
    leaves (step { one { demo .mtx with mtxCount := 3 } (wires 0 true 0) with irqPhase := .spinTC 1 }) (fun y _ q =>
      decide (y.status = .idle ∧ y.stretch = .on ∧ y.trace = [.stop, .stretchOn, .cb .onMasterTransmitDone] ∧
        q = .notInIrq)) = true ∧
    leaves (step { one { demo .mtx with mtxCount := 3, callbacks := ⟨none, none, none, none⟩ } (wires 0 true 0) with
      irqPhase := .spinTC 1 }) (fun y _ _ => decide (y.trace = [.stop, .stretchOn])) = true := by decide

/-- Vector VM2 step 6: while the core is held a Pop cannot begin, and it is not refused. -/
theorem test_held_waits :
    after (step { one { demo .mtx with mtxCount := 3 } (wires 0 false 0) with
      irqPhase := .spinTC 1, inputs := [.invoke .application ⟨4#3, .handle 1⟩ []] }) (fun t =>
      decide (t.result = none ∧ t.inputs = [.invoke .application ⟨4#3, .handle 1⟩ []])) = true := by decide

/-- Example of rule R90 through `RX.SRX`: a full ring loses its oldest byte silently. -/
theorem test_rx_srx_full :
    leaves (exec (.rxSrx 1) (one { demo .srx with unreadCount := 4 } (wires 0b000010 false 0))) (fun y _ _ =>
      decide (y.ring = Memory.ofBytes [0x11#8, 0x22#8, 0x33#8, 0x5A#8] ∧ y.writeIndex = 0 ∧ y.unreadCount = 4 ∧
        y.trace = [.r 0x5A#8])) = true := by decide

/-- Vector VS1 step 3. -/
theorem test_stop_srx :
    leaves (exec (.stopSrx 1) (one (demo .srx) (wires 0b100000 false 0))) (fun y p _ =>
      decide (y.status = .idle ∧ y.trace = [.clr .stop, .cb .onSlaveReceive] ∧ p.flags = 0#6)) = true := by decide

/-- Vector VR2 step 6: the second of three bytes arms NACK. -/
theorem test_rx_mrx_arms :
    leaves (exec (.rxMrx 1) (one { demo .mrx with mrxCount := 1 } (wires 0b000010 false 0))) (fun y _ _ =>
      decide (y.mrxBuffer = [(1, 0x5A#8)] ∧ y.mrxCount = 2 ∧ y.ackNext = .nack ∧ y.status = .mrx ∧
        y.trace = [.r 0x5A#8, .nackNext])) = true := by decide

/-- Vector VR2 step 7: the last byte. -/
theorem test_rx_mrx_last :
    leaves (exec (.rxMrx 1) (one { demo .mrx with mrxCount := 2, ackNext := .nack } (wires 0b000010 false 0)))
      (fun y _ _ => decide (y.mrxCount = 3 ∧ y.ackNext = .ack ∧ y.stretch = .on ∧ y.status = .idle ∧
        y.trace = [.r 0x5A#8, .stop, .stretchOn, .ackNext, .cb .onMasterReceiveDone])) = true := by decide

/-- Example of rule R141. -/
theorem test_nack_stx :
    leaves (exec (.nackStx 1) (one { demo .stx with stxCount := 2 } (wires 0b000001 false 0))) (fun y p _ =>
      decide (y.status = .idle ∧ y.stxCount = 2 ∧ y.trace = [.clr .nack, .w 0x00#8, .cb .onSlaveTransmitDone] ∧
        p.flags = 0#6)) = true := by decide

/-- Example of rule R133. -/
theorem test_txe_stx :
    leaves (exec (.txeStx 1) (one (demo .stx) (wires 0b010000 false 0))) (fun y _ _ =>
      decide (y.stxCount = 2 ∧ y.trace = [.w 0xA1#8] ∧ y.status = .stx)) = true := by decide

/-- Vector VS2 step 3: the buffer is unset, and the count does not move. -/
theorem test_txe_stx_unset :
    leaves (exec (.txeStx 1) (one { demo .stx with stxBuffer := none } (wires 0b010000 false 0))) (fun y _ _ =>
      decide (y.stxCount = 1 ∧ y.trace = [.w 0x00#8])) = true := by decide

/-- Vector VH1 step 7: an unspecified dispatch is refused (rule R103). -/
theorem test_unspecified :
    refusedAs (exec (.xTxeMrxStartSent 1) (one (demo .mrxStartSent) (wires 0b010000 false 0)))
      (.unspecifiedDispatch .mrxStartSent .txe) = true := by decide

/-- Vector VB3, push between P1 and P2: P2 reads index 1, the second-oldest byte. -/
theorem test_pop_race :
    after (microStep { one { demo .srx with unreadCount := 4, writeIndex := 0 } (wires 0 false 0) with
      host := some (.popRead 1 3) }) (fun t => decide (t.host = some (.popFinish 1 3 0x22#8))) = true := by decide

/-- A host command issued in interrupt context is refused (rule R172). -/
theorem test_context :
    refusedAs (step { one (demo .idle) (wires 0 false 0) with inputs := [.invoke .interrupt ⟨4#3, .handle 1⟩ []] })
      .commandInInterruptContext = true := by decide

/-- Rule R54, rule R11: no cell of the receive left. -/
theorem test_rx_mrx_no_cell :
    refusedAs (exec (.rxMrx 1) (one { demo .mrx with mrxCount := 3 } (wires 0b000010 false 0))) (.mrxOverrun 1) = true := by
  decide

/-- Rule R79: a dispatch word with status 9 is placed as an invocation that is refused. -/
theorem test_fetch_not_a_status :
    refusedAs (step (State.reset.withFetchWord 16 0x248)) (.undecodable .reservedCommand) = true := by decide

/-- `withFetchWord` from power-on: the placed dispatch word is what the next step performs (vector VE1). -/
theorem test_fetch :
    leaves (step (State.reset.withFetchWord 16 0x044)) (fun y _ _ =>
      decide (y.status = .mtxAddrAcked ∧ y.trace = [.w 0x00#8])) = true := by decide

/-! ### Witnesses: for every statement with hypotheses, concrete states and operands that meet them, clause by clause -/

/-- The operation completes. -/
def completes (o : Host.Outcome State Fault Refusal) : Bool := after o fun _ => true

/-- A live session of identifier 1 in a status; the environment presents no flag. -/
def live (st : Status) : State := one (demo st) (wires 0 false 0)

/-- The core held by the session's handler, with the given transmission-complete flag and script. -/
def held (tc : Bool) (inputs : List Input) : State :=
  { one { demo .mtx with mtxCount := 3 } (wires 0 tc 0) with irqPhase := .spinTC 1, inputs := inputs }

/-- A host command in progress. -/
def running (r : HostRun) : State := { live .srx with host := some r }

/-- A counter width of 2 bits: sizes and counters below 4. -/
def narrow (x : Session) : State := { one x (wires 0 false 0) with params := { Params.default with cntWidth := some 2 } }

/-- The parameter of rule R196 set. -/
def stopping (st : Status) : State := { live st with params := { Params.default with nackMasterStop := true } }

/-- A script that invokes one word. -/
def calling (ctx : Context) (w : CmdWord) : State := { live .idle with inputs := [.invoke ctx w [(1, wires 0b001000 false 0)]] }

/-- A second live session, of identifier 2, and another port for it. -/
def two (st : Status) : State := { live st with registry := [(1, demo st), (2, demo .srx)], ports := [(1, wires 0 false 0), (2, wires 1 true 1)] }

theorem witness_StepKeepsInvariant :
    ((held true []).Inv ∧ completes (step (held true [])) = true) ∧
    ((running (.popRead 1 3)).Inv ∧ completes (step (running (.popRead 1 3))) = true) ∧
    ((calling .interrupt ⟨5#3, .handle 1⟩).Inv ∧ completes (step (calling .interrupt ⟨5#3, .handle 1⟩)) = true) := by
  decide

theorem witness_ParametersNeverChange : completes (step (narrow (demo .idle))) = true := by decide

theorem witness_DecodeAndEncodeAgree :
    Instr.wellFormed (.masterTransmit 1 127 [1#8]) = true ∧ Instr.wellFormed (.masterReceive 1 0 0) = true ∧
    decode (.cmd ⟨3#3, .receive 1 127 1⟩) = .ok (.masterReceive 1 127 1) ∧
    decode (.dsp 1 0b1000111111#10) = .ok (.nackStx 1) := by decide

theorem witness_DecoderFollowsTableRows :
    decodeDispatch 1 0b1000110000#10 = .ok (.txeStx 1) ∧ 0b1000110000 / 64 ≤ 8 ∧
    (∃ w, encode (.txeStx 1) = .dsp 1 w) ∧ 8 < 0b1001000000 / 64 ∧
    decodeDispatch 1 0b1001000000#10 = .error .notAStatus := ⟨by decide, by decide, ⟨_, rfl⟩, by decide, by decide⟩

theorem witness_AddressByteAssembly :
    127 < 128 ∧ 128 ≤ 128 ∧ (live .idle).session? 1 = some (demo .idle) := by decide

theorem witness_StepRunsDecodedWord :
    ((calling .application ⟨4#3, .handle 1⟩).irqPhase = .notInIrq ∧
      (calling .application ⟨4#3, .handle 1⟩).inputs = [.invoke .application ⟨4#3, .handle 1⟩ [(1, wires 0b001000 false 0)]] ∧
      decodeCommand ⟨4#3, .handle 1⟩ = .ok (.pop 1) ∧ (calling .application ⟨4#3, .handle 1⟩).host = none ∧
      completes (step (calling .application ⟨4#3, .handle 1⟩)) = true) ∧
    ((calling .interrupt ⟨5#3, .handle 1⟩).irqPhase = .notInIrq ∧
      (calling .interrupt ⟨5#3, .handle 1⟩).inputs = [.invoke .interrupt ⟨5#3, .handle 1⟩ [(1, wires 0b001000 false 0)]] ∧
      decodeCommand ⟨5#3, .handle 1⟩ = .ok (.onInterrupt 1) ∧
      completes (step (calling .interrupt ⟨5#3, .handle 1⟩)) = true) := by decide

theorem witness_FetchedWordRunsNext :
    (∃ raw, rawOfTableWord 8 4 = some raw ∧ decode raw = .ok (.pop 1)) ∧
    (∃ raw, rawOfTableWord 16 0x044 = some raw ∧ decode raw = .ok (.sbMtxStartSent 1)) ∧
    completes (step (State.reset.withFetchWord 16 0x044)) = true :=
  ⟨⟨_, rfl, by decide⟩, ⟨_, rfl, by decide⟩, by decide⟩

theorem witness_ContextRule :
    (live .idle).irqPhase = .notInIrq ∧ (live .idle).host = none ∧
    decodeCommand ⟨4#3, .handle 1⟩ = .ok (.pop 1) ∧ decodeCommand ⟨5#3, .handle 1⟩ = .ok (.onInterrupt 1) ∧
    (calling .interrupt ⟨4#3, .handle 1⟩).inputs = [.invoke .interrupt ⟨4#3, .handle 1⟩ [(1, wires 0b001000 false 0)]] ∧
    refusedAs (step (calling .interrupt ⟨4#3, .handle 1⟩)) .commandInInterruptContext = true ∧
    completes (step (calling .interrupt ⟨5#3, .handle 1⟩)) = true ∧
    completes (step (calling .application ⟨5#3, .handle 1⟩)) = true := by decide

theorem witness_EventPriorityFirstMatchWins :
    (one (demo .srx) (wires 0b100010 false 0)).session? 1 = some (demo .srx) ∧
    selectEvent ((one (demo .srx) (wires 0b100010 false 0)).port 1).flags = some .rx ∧
    selectEvent 0b100000#6 = some .stop ∧ selectEvent 0b111111#6 = some .nack ∧ selectEvent 0b000000#6 = none ∧
    completes (exec (.onInterrupt 1) (one (demo .srx) (wires 0b100010 false 0))) = true := by decide

theorem witness_OnInterruptPerformsSelectedDispatch :
    (live .srx).session? 1 = some (demo .srx) ∧ (live .srx).session? 2 = none := by decide

/-- No flag; TXE.MTX with a counter that fits; TXE.STX with the buffer set, and unset with a counter that does not fit;
RX.MRX with one cell left; NACK in MRX with no cell left. The counters are 2 bits wide. -/
theorem witness_OnInterruptCompletes :
    (narrow (demo .stx)).session? 1 = some (demo .stx) ∧
    (selectEvent ((narrow (demo .stx)).port 1).flags = none ∧ completes (exec (.onInterrupt 1) (narrow (demo .stx))) = true) ∧
    (fitsCounter (narrow (demo .mtx)).params (2 + 1) = true ∧ completes (exec (.onInterrupt 1)
      ((narrow { demo .mtx with mtxCount := 2 }).present 1 (wires 0b010000 false 0))) = true) ∧
    (fitsCounter (narrow (demo .stx)).params (2 + 1) = true ∧ completes (exec (.onInterrupt 1)
      ((narrow { demo .stx with stxCount := 2 }).present 1 (wires 0b010000 false 0))) = true) ∧
    completes (exec (.onInterrupt 1)
      ((narrow { demo .stx with stxCount := 3, stxBuffer := none }).present 1 (wires 0b010000 false 0))) = true ∧
    (2 < (demo .mrx).mrxSize ∧ completes (exec (.onInterrupt 1)
      ((narrow { demo .mrx with mrxCount := 2 }).present 1 (wires 0b000010 false 0))) = true) ∧
    completes (exec (.onInterrupt 1)
      ((narrow { demo .mrx with mrxCount := 3 }).present 1 (wires 0b000001 false 0))) = true := by decide

theorem witness_NoFlagNoEffect :
    (live .mtx).session? 1 = some (demo .mtx) ∧ ((live .mtx).port 1).flags = 0#6 ∧ (0b1000000000#10).toNat / 64 ≤ 8 ∧
    decodeDispatch 1 0b1000000000#10 = .ok (.irqNone 1) := by decide

theorem witness_CreateSessionMakesFreshSession :
    (1 ∈ State.reset.params.periphIds ∧ State.reset.session? 1 = none ∧ fitsCounter State.reset.params 1 = true) ∧
    ((narrow (demo .idle)).params.cntWidth = some 2 ∧ fitsCounter (narrow (demo .idle)).params 3 = true) ∧
    2 ∉ State.reset.params.periphIds ∧
    (1 ∈ (live .mtx).params.periphIds ∧ (live .mtx).session? 1 = some (demo .mtx)) := by decide

theorem witness_InvalidPeripheralIsAReturnValue :
    2 ∉ State.reset.params.periphIds ∧
    after (exec (.createSession 2 0 ⟨none, none, none, none⟩) State.reset) (fun t =>
      decide (t.result = some (.error .invalidPeripheral))) = true := by decide

theorem witness_DestroySessionReleasesSlot :
    (two .mtx).session? 1 = some (demo .mtx) ∧ State.reset.session? 1 = none := by decide

theorem witness_DeadHandleRefusesEverything :
    State.reset.session? (Instr.handle (.pop 1)) = none ∧ (live .idle).session? 2 = none := by decide

theorem witness_RecreationGivesFreshSession :
    ((live .mtx).session? 1 = some (demo .mtx) ∧ 1 ∈ (live .mtx).params.periphIds ∧
      fitsCounter (live .mtx).params 1 = true) ∧
    ((live .mtx).params = (live .stx).params ∧ (live .mtx).draws = (live .stx).draws ∧
      after (exec (.destroySession 1) (live .mtx)) (fun t => completes (exec (.createSession 1 1 ⟨none, none, none, none⟩) t))
        = true ∧
      after (exec (.destroySession 1) (live .stx)) (fun t => completes (exec (.createSession 1 1 ⟨none, none, none, none⟩) t))
        = true) := by decide

theorem witness_MasterTransmitStartsTransfer :
    (live .mtx).session? 1 = some (demo .mtx) ∧ 127 < 128 ∧ 0 < 128 ∧ fitsCounter (live .mtx).params 1 = true ∧
    [0xFF#8] ≠ [] ∧ fitsCounter (live .mtx).params 0 = true ∧ 128 ≤ 128 ∧ (live .mtx).session? 0 = none ∧
    fitsCounter (narrow (demo .idle)).params 3 = true := by decide

theorem witness_StartSentWritesAddressByte :
    (live .mtxStartSent).session? 1 = some (demo .mtxStartSent) ∧
    (live .mrxStartSent).session? 1 = some (demo .mrxStartSent) := by decide

theorem witness_AddressAckedEntersTransmit :
    (one (demo .mtxAddrAcked) (wires 0b111111 false 0)).session? 1 = some (demo .mtxAddrAcked) ∧
    ((one (demo .mtxAddrAcked) (wires 0b111111 false 0)).port 1).flag .stop = true ∧ Event.stop ≠ .addr := by decide

/-- Not the last byte; the last with `TC` not set and set. -/
theorem witness_TransmitNextByte :
    ((live .mtx).session? 1 = some (demo .mtx) ∧ fitsCounter (live .mtx).params 2 = true ∧
      (demo .mtx).cell .mtx 1 = some 0x02#8 ∧ (demo .mtx).mtxCount + 1 ≠ (demo .mtx).mtxSize) ∧
    ((one { demo .mtx with mtxCount := 2 } (wires 0 false 0)).session? 1 = some { demo .mtx with mtxCount := 2 } ∧
      (demo .mtx).cell .mtx 2 = some 0x03#8 ∧ 2 + 1 = (demo .mtx).mtxSize ∧
      ((one { demo .mtx with mtxCount := 2 } (wires 0 false 0)).port 1).tc = false ∧
      completes (exec (.txeMtx 1) (one { demo .mtx with mtxCount := 2 } (wires 0 false 0))) = true ∧
      ((one { demo .mtx with mtxCount := 2 } (wires 0 true 0)).port 1).tc = true) := by decide

/-- No cell: not the last byte, and the last with `TC` not set and set. -/
theorem witness_TransmitWithoutCell :
    ((one { demo .mtx with mtxBuffer := [] } (wires 0 false 0)).session? 1 = some { demo .mtx with mtxBuffer := [] } ∧
      Session.cell { demo .mtx with mtxBuffer := [] } .mtx 1 = none ∧ 1 + 1 ≠ (demo .mtx).mtxSize ∧
      fitsCounter (live .mtx).params 2 = true) ∧
    (leaves (exec (.txeMtx 1) (one { demo .mtx with mtxBuffer := [], mtxCount := 2 } (wires 0 false 0))) (fun y _ q =>
        decide (y.status = .mtx ∧ y.mtxCount = 3 ∧ q = .spinTC 1)) = true ∧ 2 + 1 = (demo .mtx).mtxSize) ∧
    leaves (exec (.txeMtx 1) (one { demo .mtx with mtxBuffer := [], mtxCount := 2 } (wires 0 true 0))) (fun y _ q =>
        decide (y.status = .idle ∧ y.stretch = .on ∧ q = .notInIrq)) = true := by decide

theorem witness_HeldHandlerWaitsForTC :
    (held false [.invoke .application ⟨4#3, .handle 1⟩ [], .environment 1 (wires 0 true 0)]).irqPhase = .spinTC 1 ∧
    ((held false [.invoke .application ⟨4#3, .handle 1⟩ [], .environment 1 (wires 0 true 0)]).port 1).tc = false ∧
    (held true []).session? 1 = some { demo .mtx with mtxCount := 3 } ∧ ((held true []).port 1).tc = true ∧
    (held true []).Inv := by decide

/-- The end of vector VM2, with its Pop still waiting; no hang with `TC` presented or an environment action left. -/
theorem witness_HangNeverEnds :
    (held false [.invoke .application ⟨4#3, .handle 1⟩ []]).irqPhase = .spinTC 1 ∧
    (held false [.invoke .application ⟨4#3, .handle 1⟩ []]).hung ∧ (held false []).hung ∧ ¬ (held true []).hung ∧
    ¬ (held false [.invoke .application ⟨4#3, .handle 1⟩ [], .environment 1 (wires 0 true 0)]).hung := by decide

/-- Three data bytes with `TC` presented and not presented, and one. -/
theorem witness_TransmitDataPhaseWritesAllBytes :
    ((demo .mtx).mtxBuffer = Memory.ofBytes [1#8, 2#8, 3#8] ∧ (demo .mtx).mtxSize = 3 ∧
      (one { demo .mtx with mtxCount := 0 } (wires 0 true 0)).session? 1 = some { demo .mtx with mtxCount := 0 } ∧
      fitsCounter Params.default 3 = true ∧ ((one { demo .mtx with mtxCount := 0 } (wires 0 true 0)).port 1).tc = true) ∧
    leaves (execTimes (.txeMtx 1) 3 (one { demo .mtx with mtxCount := 0 } (wires 0 false 0))) (fun y p q =>
      decide (y.trace = [.w 1#8, .w 2#8, .w 3#8] ∧ y.mtxCount = 3 ∧ p.tc = false ∧ q = .spinTC 1)) = true ∧
    (one { demo .mtx with mtxBuffer := Memory.ofBytes [9#8], mtxSize := 1, mtxCount := 0 } (wires 0 true 0)).session? 1
      = some { demo .mtx with mtxBuffer := Memory.ofBytes [9#8], mtxSize := 1, mtxCount := 0 } := by decide

theorem witness_MasterReceiveStartsTransfer :
    (live .mrx).session? 1 = some (demo .mrx) ∧ 127 < 128 ∧ 1 ≠ 0 ∧ fitsCounter (live .mrx).params 1 = true ∧
    fitsCounter (live .mrx).params 0 = true ∧ 128 ≤ 128 ∧ (live .mrx).session? 2 = none ∧
    fitsCounter (narrow (demo .idle)).params 3 = true := by decide

theorem witness_AddressAckedEntersReceive :
    (live .mrxAddrAcked).session? 1 = some (demo .mrxAddrAcked) ∧ (demo .mrxAddrAcked).mrxSize ≠ 1 ∧
    (one { demo .mrxAddrAcked with mrxSize := 1 } (wires 0 false 0)).session? 1
      = some { demo .mrxAddrAcked with mrxSize := 1 } := by decide

/-- Of three bytes the first, the second and the third; of one byte the only one. -/
theorem witness_ReceiveNextByte :
    ((live .mrx).session? 1 = some (demo .mrx) ∧ 0 < 3 ∧ (demo .mrx).mrxCount + 1 < (demo .mrx).mrxSize - 1 ∧
      fitsCounter (live .mrx).params 1 = true) ∧
    ((one { demo .mrx with mrxCount := 1 } (wires 0 false 0)).session? 1 = some { demo .mrx with mrxCount := 1 } ∧
      1 + 1 = (demo .mrx).mrxSize - 1) ∧
    ((one { demo .mrx with mrxCount := 2 } (wires 0 false 0)).session? 1 = some { demo .mrx with mrxCount := 2 } ∧
      2 + 1 = (demo .mrx).mrxSize) ∧
    ((one { demo .mrx with mrxSize := 1 } (wires 0 false 0)).session? 1 = some { demo .mrx with mrxSize := 1 } ∧
      0 < 1 ∧ (demo .mrx).mrxCount + 1 = 1) := by decide

theorem witness_ReceiveOutsideBufferStops :
    (one { demo .mrx with mrxCount := 3 } (wires 0 false 0)).session? 1 = some { demo .mrx with mrxCount := 3 } ∧
    (demo .mrx).mrxSize ≤ 3 := by decide

/-- The start of a receive with ACK armed; the handlers before the data phase; the first, the next to last and the last
byte. -/
theorem witness_NackArmedExactlyOnLastByte :
    ((live .idle).session? 1 = some (demo .idle) ∧ (demo .idle).ackNext = .ack ∧ 127 < 128 ∧
      fitsCounter (live .idle).params 1 = true) ∧
    (demo .mrxStartSent).armed ∧ Session.armed { demo .mrxAddrAcked with mrxSize := 1, ackNext := .nack } ∧
    ((demo .mrx).armed ∧ (demo .mrx).mrxCount + 1 < (demo .mrx).mrxSize ∧ (live .mrx).session? 1 = some (demo .mrx)) ∧
    (Session.armed { demo .mrx with mrxCount := 1 } ∧ 1 + 1 < (demo .mrx).mrxSize) ∧
    (Session.armed { demo .mrx with mrxCount := 2, ackNext := .nack } ∧ 2 + 1 = (demo .mrx).mrxSize) := by decide

theorem witness_AddressMatchEntersSlaveRole :
    ((one (demo .idle) (wires 0b001000 false 0)).session? 1 = some (demo .idle) ∧
      ((one (demo .idle) (wires 0b001000 false 0)).port 1).dir = 0#1) ∧
    ((one (demo .idle) (wires 0b001000 false 1)).session? 1 = some (demo .idle) ∧
      ((one (demo .idle) (wires 0b001000 false 1)).port 1).dir = 1#1) := by decide

theorem witness_SlaveReceivePushesByte : (live .srx).session? 1 = some (demo .srx) := by decide

theorem witness_StopEndsSlaveReceive :
    (one (demo .srx) (wires 0b100000 false 0)).session? 1 = some (demo .srx) := by decide

/-- The buffer unset; its last byte; just beyond its end. -/
theorem witness_SlaveTransmitNextByte :
    (one { demo .stx with stxBuffer := none } (wires 0 false 0)).session? 1 = some { demo .stx with stxBuffer := none } ∧
    ((live .stx).session? 1 = some (demo .stx) ∧ (demo .stx).stxBuffer = some (Memory.ofBytes [0xA0#8, 0xA1#8]) ∧
      [0xA0#8, 0xA1#8][1]? = some 0xA1#8 ∧ fitsCounter (live .stx).params 2 = true) ∧
    ((one { demo .stx with stxCount := 2 } (wires 0 false 0)).session? 1 = some { demo .stx with stxCount := 2 } ∧
      [0xA0#8, 0xA1#8].length ≤ 2 ∧ fitsCounter (live .stx).params 3 = true) := by decide

theorem witness_SetSlaveTransmitBufferInstalls :
    (live .stx).session? 1 = some (demo .stx) ∧ (live .stx).session? 2 = none := by decide

theorem witness_NackEndsSlaveTransmit :
    (one (demo .stx) (wires 0b000001 false 0)).session? 1 = some (demo .stx) := by decide

theorem witness_NackAbortsMasterTransfer :
    (live .mtx).session? 1 = some (demo .mtx) ∧ (live .mtx).params.nackMasterStop = false := by decide

theorem witness_NackAbortCanRestoreStretching :
    (stopping .mrx).session? 1 = some (demo .mrx) ∧ (stopping .mrx).params.nackMasterStop = true := by decide

/-- Something unread, at both ends of the count; nothing unread; no session; Pop before P1, P2 and P3. -/
theorem witness_PopReturnsOldestByte :
    ((live .srx).session? 1 = some (demo .srx) ∧ Session.Ok (demo .srx) ∧ 1 ≤ (demo .srx).unreadCount) ∧
    Session.Ok { demo .srx with unreadCount := 1 } ∧ Session.Ok { demo .srx with unreadCount := 4 } ∧
    (one { demo .srx with unreadCount := 0 } (wires 0 false 0)).session? 1 = some { demo .srx with unreadCount := 0 } ∧
    (live .srx).session? 2 = none ∧
    ((running (.popCount 1)).session? 1 = some (demo .srx) ∧ (running (.popCount 1)).host = some (.popCount 1)) ∧
    ((running (.popRead 1 3)).host = some (.popRead 1 3) ∧
      (demo .srx).cell .ring (subMod (demo .srx).writeIndex 3 (demo .srx).ringCap) = some 0x11#8) ∧
    (running (.popFinish 1 3 0x11#8)).host = some (.popFinish 1 3 0x11#8) := by decide

theorem witness_UnreadBytesFollowPositionLaw :
    Session.Ok { demo .srx with unreadCount := 0 } ∧ Session.Ok { demo .srx with unreadCount := 4 } ∧
    (live .srx).session? 1 = some (demo .srx) ∧ Session.Ok (demo .srx) ∧ 1 ≤ (demo .srx).unreadCount := by decide

theorem witness_RingFifoLaw :
    (one { demo .srx with unreadCount := 0 } (wires 0 false 0)).session? 1 = some { demo .srx with unreadCount := 0 } ∧
    Session.Ok { demo .srx with unreadCount := 0 } := by decide

theorem witness_PopRaceLosesOneByte :
    (running (.popCount 1)).session? 1 = some (demo .srx) ∧ Session.Ok (demo .srx) ∧ 1 ≤ (demo .srx).unreadCount ∧
    (running (.popCount 1)).host = some (.popCount 1) ∧ ((running (.popCount 1)).port 1).data = 0x5A#8 ∧
    Session.Ok { demo .srx with unreadCount := 4 } ∧ Session.Ok { demo .srx with unreadCount := 1 } ∧
    Session.Ok { demo .srx with ringCap := 1, ring := Memory.ofBytes [0x11#8], writeIndex := 0, unreadCount := 1 } := by
  decide

/-- The longest of them, the shortest, and each of the other two commands. -/
theorem witness_UninterruptedMicroStepsAreTheCommand :
    (live .idle).host = none ∧ (beginHost (.masterReceive 1 127 1) (live .idle)).isSome = true ∧
    completes (exec (.masterReceive 1 127 1) (live .idle)) = true ∧
    (beginHost (.masterTransmit 1 0 []) (live .idle)).isSome = true ∧
    completes (exec (.masterTransmit 1 0 []) (live .idle)) = true ∧
    (beginHost (.pop 1) (live .idle)).isSome = true ∧ completes (exec (.pop 1) (live .idle)) = true ∧
    (beginHost (.setSlaveTransmitBuffer 1 none) (live .idle)).isSome = true ∧
    completes (exec (.setSlaveTransmitBuffer 1 none) (live .idle)) = true := by decide

theorem witness_OperationsTouchOnlyTheirSession :
    completes (exec (.rxSrx 1) (two .srx)) = true ∧ 2 ≠ Instr.handle (.rxSrx 1) ∧
    (two .srx).session? 2 = some (demo .srx) ∧ completes (exec (.destroySession 1) (two .srx)) = true := by decide

/-- Two states that differ in another session, its port and the script; a held state. -/
theorem witness_OperationsReadOnlyTheirSession :
    ((two .srx).params = (live .srx).params ∧ (two .srx).session? 1 = (live .srx).session? 1 ∧
      (two .srx).port 1 = (live .srx).port 1 ∧ (two .srx).draws = (live .srx).draws ∧
      (two .srx).irqPhase = (live .srx).irqPhase ∧ (two .srx).result = (live .srx).result ∧ two .srx ≠ live .srx) ∧
    completes (exec (.pop 1) (two .srx)) = true ∧ 2 ≠ Instr.handle (.pop 1) ∧
    ((held false []).irqPhase = .spinTC 1 ∧ ((held false []).port 1).tc = false ∧
      completes (step (held false [])) = true) := by decide

theorem witness_OnlyRegistryCommandsChangeLiveness :
    (completes (exec (.pop 1) (two .srx)) = true ∧ completes (exec (.masterTransmit 1 127 [1#8]) (two .srx)) = true) ∧
    completes (step (held true [])) = true ∧ (∀ id cap cbs u, ¬ (held true []).performs (.createSession id cap cbs) u) ∧
    (∀ h u, ¬ (held true []).performs (.destroySession h) u) := by
  refine ⟨by decide, by decide, ?_, ?_⟩ <;> intros <;> rintro ⟨_, _, _, ⟨h, _⟩ | ⟨_, _, h, _⟩⟩ <;> cases h

theorem witness_StatusFollowsTransitionGraph :
    (calling .interrupt ⟨5#3, .handle 1⟩).session? 1 = some (demo .idle) ∧
    leaves (step (calling .interrupt ⟨5#3, .handle 1⟩)) (fun y _ _ => decide (y.status = .srx)) = true := by decide

theorem witness_TransferCountersOnlyRestartAtTransferStart :
    leaves (exec (.masterTransmit 1 127 [1#8]) (live .idle)) (fun y _ _ => decide (y.mtxCount = 0)) = true ∧
    leaves (exec (.addrIdle 1) (one (demo .idle) (wires 0 false 1))) (fun y _ _ => decide (y.stxCount = 0)) = true ∧
    leaves (exec (.rxMrx 1) (live .mrx)) (fun y _ _ => decide (y.mrxCount = 1)) = true ∧
    (live .mrx).session? 1 = some (demo .mrx) ∧
    leaves (step (running (.micros 1 [.zeroTransmitCount]))) (fun y _ _ => decide (y.mtxCount = 0)) = true ∧
    leaves (step (calling .application ⟨3#3, .receive 1 127 1⟩)) (fun y _ _ => decide (y.mrxCount = 0)) = true := by decide

theorem witness_SessionConstantsAndAddressWriters :
    (live .idle).session? 1 = some (demo .idle) ∧
    leaves (exec (.masterReceive 1 127 1) (live .idle)) (fun y _ _ => decide (y.slaveAddress = 0xFF#8)) = true ∧
    leaves (exec (.pop 1) (live .idle)) (fun y _ _ => decide (y.slaveAddress = 0x40#8)) = true ∧
    leaves (step (running (.micros 1 [.setAddress 0xFE#8, .enterTransmit]))) (fun y _ _ => decide (y.slaveAddress = 0xFE#8))
      = true := by decide

theorem witness_ShadowFieldWriters :
    (live .mrx).session? 1 = some (demo .mrx) ∧ Instr.rxMrx 1 ≠ .onInterrupt 1 ∧
    completes (exec (.rxMrx 1) (live .mrx)) = true ∧ completes (exec (.nackMtx 1) (stopping .mtx)) = true ∧
    leaves (step (held true [])) (fun y _ _ => decide (y.stretch = .on)) = true ∧
    leaves (step (running (.micros 1 [.preArmNack 1, .enterReceive]))) (fun y _ _ => decide (y.ackNext = .nack)) = true := by
  decide

theorem witness_TracesOnlyGrow :
    completes (exec (.destroySession 1) (two .srx)) = true ∧ (two .srx).session? 2 = some (demo .srx) ∧
    leaves (exec (.rxSrx 1) (live .srx)) (fun y _ _ => decide (y.trace = [.r 0x5A#8])) = true ∧
    leaves (step (held true [])) (fun y _ _ => decide (y.trace = [.stop, .stretchOn, .cb .onMasterTransmitDone])) = true ∧
    leaves (step (running (.micros 1 [.issueStart]))) (fun y _ _ => decide (y.trace = [.start])) = true := by decide

theorem witness_HandlersThatStoreNothing :
    ∀ i ∈ ([.irqNone 1, .addrIdle 1, .nackMtxStartSent 1, .sbMtxStartSent 1, .nackMtxAddrAcked 1,
      .addrMtxAddrAcked 1, .nackMtx 1, .txeMtx 1, .stopSrx 1, .nackMrxStartSent 1,
      .sbMrxStartSent 1, .nackMrxAddrAcked 1, .addrMrxAddrAcked 1, .nackMrx 1, .nackStx 1, .txeStx 1] : List Instr),
      completes (exec i (live .mtx)) = true := by decide

/-- The greatest index of the ring, the last cell of a receive, a transmit of one byte, a receive of one, an unset slave
buffer, a Pop. -/
theorem witness_StoresGoOnlyWhereTheyShould :
    (live .mrx).session? 1 = some (demo .mrx) ∧ (demo .mrx).writeIndex = (demo .mrx).ringCap - 1 ∧
    completes (exec (.rxSrx 1) (live .mrx)) = true ∧ completes (exec (.rxMrx 1) (live .mrx)) = true ∧
    completes (exec (.rxMrx 1) (one { demo .mrx with mrxCount := 2 } (wires 0 false 0))) = true ∧
    completes (exec (.masterTransmit 1 0 [1#8]) (live .mrx)) = true ∧ [1#8] ≠ [] ∧
    completes (exec (.masterReceive 1 0 1) (live .mrx)) = true ∧
    completes (exec (.setSlaveTransmitBuffer 1 none) (live .mrx)) = true ∧
    completes (exec (.setSlaveTransmitBuffer 1 (some [7#8])) (live .mrx)) = true ∧
    completes (exec (.pop 1) (live .mrx)) = true := by decide

/-- Sizes and counters of exactly 2^2. -/
theorem witness_CounterWidthRefused :
    (narrow (demo .mrx)).params.cntWidth = some 2 ∧ (narrow (demo .mrx)).session? 1 = some (demo .mrx) ∧ 127 < 128 ∧
    2 ^ 2 ≤ 4 ∧ 2 ^ 2 ≤ [1#8, 2#8, 3#8, 4#8].length ∧
    (1 ∈ { narrow (demo .mrx) with registry := [] }.params.periphIds ∧
      State.session? { narrow (demo .mrx) with registry := [] } 1 = none) ∧
    ((narrow { demo .stx with stxCount := 3 }).session? 1 = some { demo .stx with stxCount := 3 } ∧
      (demo .stx).stxBuffer.isSome = true ∧ 2 ^ 2 ≤ 3 + 1) ∧
    (narrow { demo .mtx with mtxCount := 3 }).session? 1 = some { demo .mtx with mtxCount := 3 } ∧
    ((narrow { demo .mrx with mrxCount := 3, mrxSize := 4 }).session? 1 = some { demo .mrx with mrxCount := 3, mrxSize := 4 } ∧
      3 < 4) := by decide

/-- A first and a last micro-step, and V5 at both of its cases. -/
theorem witness_EachMicroStepLeavesItsPart :
    (running (.micros 1 [.preArmNack 1, .enterReceive])).session? 1 = some (demo .srx) ∧
    (running (.micros 1 [.preArmNack 1, .enterReceive])).host = some (.micros 1 [.preArmNack 1, .enterReceive]) ∧
    (running (.micros 1 [.preArmNack 2])).host = some (.micros 1 [.preArmNack 2]) ∧
    after (microStep (running (.micros 1 [.issueStart]))) (fun t => decide (t.host = none)) = true ∧
    (running (.micros 1 [.issueStart])).irqPhase = .notInIrq ∧
    State.inputs { running (.micros 1 [.issueStart]) with inputs := [.micro] } = [.micro] := by decide

end Sys2Proof.Tests
end

/-! PROOFS. The statements of 00_scope.md: the open parameters of rule R7 stay as they are, and a finite `P_CNT_W` refuses
what does not fit. -/

namespace Sys2Proof.Machine

/-! ### The parameters, mover by mover -/

@[simp] theorem hostReturns_params (s : State) (r : Option HostResult) : (s.hostReturns r).params = s.params := rfl

@[simp] theorem afterMicro_params (s : State) (h : Handle) (todo : List Micro) :
    (s.afterMicro h todo).params = s.params := by
  unfold State.afterMicro; split <;> rfl

theorem exec_keeps_params {i : Instr} {s t : State} (hn : exec i s = .next t) : t.params = s.params := by
  rcases exec_next hn with ⟨_, rfl⟩ | ⟨_, _, _, _, _, -, -, -, -, rfl⟩ | ⟨_, _, -, -, rfl⟩ | ⟨_, _, _, -, rfl⟩ <;> rfl

theorem releaseHold_keeps_params {h : Handle} {s t : State} (hn : releaseHold h s = .next t) : t.params = s.params := by
  obtain ⟨_, _, -, rfl, -⟩ := releaseHold_next hn
  rfl

theorem microStep_keeps_params {s t : State} (hn : microStep s = .next t) : t.params = s.params := by
  rcases microStep_next hn with ⟨-, rfl⟩ | ⟨_, -, rfl⟩ | ⟨_, _, _, _, -, -, rfl⟩ |
    ⟨_, _, -, -, ⟨-, rfl⟩ | ⟨-, rfl⟩⟩ | ⟨_, _, _, -, -, rfl⟩ | ⟨_, _, _, _, -, -, rfl⟩ <;> simp

theorem beginHost_keeps_params {i : Instr} {s t : State} (hn : beginHost i s = some (.next t)) :
    t.params = s.params := by
  obtain ⟨_, -, rfl | ⟨_, rfl, -⟩⟩ := beginHost_next hn <;> rfl

/-- Settles O4, by who moved: the script, the environment's ports and each operation leave the field `params`. -/
theorem parametersNeverChange : Obligations.ParametersNeverChange := by
  intro s t hn
  rcases step_next hn with ⟨-, rfl⟩ | ⟨_, -, hr⟩ | ⟨_, _, _, -, rfl⟩ | ⟨_, -, hm⟩ | ⟨_, _, _, _, _, -, -, -, he⟩ |
    ⟨_, _, _, -, -, hb | ⟨-, he⟩⟩
  · rfl
  · exact releaseHold_keeps_params hr
  · simp
  · simpa using microStep_keeps_params hm
  · simpa using exec_keeps_params he
  · simpa using beginHost_keeps_params hb
  · simpa using exec_keeps_params he

/-! ### A finite counter width -/

/-- With width `w` nothing from `2^w` on fits (rule R7, decision D21). -/
theorem fitsCounter_eq_false {p : Params} {w n : Nat} (hw : p.cntWidth = some w) (hn : 2 ^ w ≤ n) :
    fitsCounter p n = false := by
  simp [fitsCounter, hw, hn]

theorem transfer_refuses_counterWidth {h : Handle} {a n : Nat} {todo : List Micro} {s : State} {x : Session}
    (hx : s.session? h = some x) (ha : a < 128) (hf : fitsCounter s.params n = false) :
    transfer h a n todo s = .refused .counterWidth := by
  simp [transfer, transferGuard, fitsAddr7, hx, ha, hf]

theorem createSession_refuses_counterWidth {h : Handle} {cap : Nat} {cbs : Callbacks} {s : State}
    (hid : h ∈ s.params.periphIds) (hx : s.session? h = none) (h0 : cap ≠ 0)
    (hf : fitsCounter s.params cap = false) : exec (.createSession h cap cbs) s = .refused .counterWidth := by
  simp [exec, execCreateSession, hid, hx, h0, hf]

theorem txeStx_refuses_counterWidth {h : Handle} {s : State} {x : Session} {m : Memory} (hx : s.session? h = some x)
    (hm : x.stxBuffer = some m) (hf : fitsCounter s.params (x.stxCount + 1) = false) :
    exec (.txeStx h) s = .refused .counterWidth := by
  have he : slaveTransmitNext s.params (s.focus h x) = .refused .counterWidth := by
    simp [slaveTransmitNext_set (f := s.focus h x) hm, hf]
  simp [exec, execTxeStx, onSession_live hx, he]

theorem txeMtx_refuses_counterWidth {h : Handle} {s : State} {x : Session} (hx : s.session? h = some x)
    (hf : fitsCounter s.params (x.mtxCount + 1) = false) : exec (.txeMtx h) s = .refused .counterWidth := by
  simp [exec, execTxeMtx, onSession_live hx, transmitNext_eq, hf]

theorem rxMrx_refuses_counterWidth {h : Handle} {s : State} {x : Session} (hx : s.session? h = some x)
    (hl : x.mrxCount < x.mrxSize) (hf : fitsCounter s.params (x.mrxCount + 1) = false) :
    exec (.rxMrx h) s = .refused .counterWidth := by
  simp [exec, execRxMrx, onSession_live hx, receiveNext_eq, hl, hf]

/-- Settles O57: each of the six operations tests its size or its next count with `fitsCounter`. A capacity that reaches
`2^w` is not 0, so the refusal of rule R150 does not come first. -/
theorem counterWidthRefused : Obligations.CounterWidthRefused := by
  intro h s w hw
  have wide : ∀ {n : Nat}, 2 ^ w ≤ n → fitsCounter s.params n = false := fitsCounter_eq_false hw
  refine ⟨?receive, ?transmit, ?create, ?stx, ?mtx, ?mrx⟩
  case receive => exact fun _ _ _ hx ha hn => transfer_refuses_counterWidth hx ha (wide hn)
  case transmit => exact fun _ _ _ hx ha hn => transfer_refuses_counterWidth hx ha (wide hn)
  case create =>
    intro cap cbs hid hx hn
    have h0 : cap ≠ 0 := (Nat.lt_of_lt_of_le (Nat.two_pow_pos w) hn).ne'
    exact createSession_refuses_counterWidth hid hx h0 (wide hn)
  case stx => exact fun _ _ hx hm hn => txeStx_refuses_counterWidth hx hm (wide hn)
  case mtx => exact fun _ hx hn => txeMtx_refuses_counterWidth hx (wide hn)
  case mrx => exact fun _ hx hl hn => rxMrx_refuses_counterWidth hx hl (wide hn)

end Sys2Proof.Machine

/-! PROOFS. The statements of 10_state.md: what every step keeps (O3, O2), which handles are live (O49), and who may
change which field of a session (O50 to O54). -/

namespace Sys2Proof.Machine

/-! ### The grid of dispatches -/

/-- A dispatch's row of the table names its status and its event. -/
theorem dispatchInstr_row (st : Status) (e : Event) (h : Handle) :
    statusOfCode ((dispatchInstr st e h).tableMatch / 64) = some st ∧
    selectEvent (BitVec.ofNat 6 (dispatchInstr st e h).tableMatch) = some e := by
  cases st <;> cases e <;> simp only [dispatchInstr, Instr.tableMatch] <;> decide

/-- The pair (status, event) is read back from the dispatch it selects. -/
theorem dispatchInstr_inj {st st' : Status} {e e' : Event} {h h' : Handle}
    (heq : dispatchInstr st e h = dispatchInstr st' e' h') : st = st' ∧ e = e' := by
  obtain ⟨hst, he⟩ := dispatchInstr_row st e h
  obtain ⟨hst', he'⟩ := dispatchInstr_row st' e' h'
  rw [heq] at hst he
  exact ⟨Option.some.inj (hst.symm.trans hst'), Option.some.inj (he.symm.trans he')⟩

/-! ### What each dispatch leaves of its session, field by field -/

section Handler

variable {p : Params} {pt : Port} {i : Instr} {x y : Session}

/-- The fields that no dispatch writes. -/
theorem handlerEffect_constants (he : handlerEffect p pt i x y) :
    y.callbacks = x.callbacks ∧ y.ringCap = x.ringCap ∧ y.busPeriodLength = x.busPeriodLength ∧
    y.enabled = x.enabled ∧ y.slaveAddress = x.slaveAddress := by
  cases i <;> simp only [handlerEffect] at he
  case addrIdle => rcases he with rfl | rfl <;> exact ⟨rfl, rfl, rfl, rfl, rfl⟩
  case txeMtx => obtain ⟨b, rfl | ⟨-, rfl⟩⟩ := he <;> exact ⟨rfl, rfl, rfl, rfl, rfl⟩
  case rxMrx => obtain ⟨-, ⟨-, rfl⟩ | ⟨-, rfl⟩ | ⟨-, -, rfl⟩⟩ := he <;> exact ⟨rfl, rfl, rfl, rfl, rfl⟩
  case txeStx => obtain ⟨b, c, -, rfl⟩ := he; exact ⟨rfl, rfl, rfl, rfl, rfl⟩
  all_goals subst he; exact ⟨rfl, rfl, rfl, rfl, rfl⟩

/-- Every dispatch only appends to the trace. -/
theorem handlerEffect_trace (he : handlerEffect p pt i x y) : x.trace <+: y.trace := by
  cases i <;> simp only [handlerEffect] at he
  case addrIdle => rcases he with rfl | rfl <;> simp
  case txeMtx => obtain ⟨b, rfl | ⟨-, rfl⟩⟩ := he <;> simp
  case rxMrx => obtain ⟨-, ⟨-, rfl⟩ | ⟨-, rfl⟩ | ⟨-, -, rfl⟩⟩ := he <;> simp
  case txeStx => obtain ⟨b, c, -, rfl⟩ := he; simp
  all_goals subst he; simp

/-- The counters of a dispatch only rise, but for `stxCount`, which `ADDR.Idle` restarts as it enters STX (rule R130). -/
theorem handlerEffect_counters (he : handlerEffect p pt i x y) :
    x.mtxCount ≤ y.mtxCount ∧ x.mrxCount ≤ y.mrxCount ∧
    (x.stxCount ≤ y.stxCount ∨ (y.stxCount = 0 ∧ y.status = .stx ∧ i = .addrIdle i.handle)) := by
  cases i <;> simp only [handlerEffect] at he
  case addrIdle =>
    rcases he with rfl | rfl
    · exact ⟨le_rfl, le_rfl, .inl le_rfl⟩
    · exact ⟨le_rfl, le_rfl, .inr ⟨rfl, rfl, rfl⟩⟩
  case txeMtx => obtain ⟨b, rfl | ⟨-, rfl⟩⟩ := he <;> exact ⟨Nat.le_succ _, le_rfl, .inl le_rfl⟩
  case rxMrx =>
    obtain ⟨-, ⟨-, rfl⟩ | ⟨-, rfl⟩ | ⟨-, -, rfl⟩⟩ := he <;> exact ⟨le_rfl, Nat.le_succ _, .inl le_rfl⟩
  case txeStx => obtain ⟨b, c, hc, rfl⟩ := he; exact ⟨le_rfl, le_rfl, .inl (show x.stxCount ≤ c by omega)⟩
  all_goals subst he; exact ⟨le_rfl, le_rfl, .inl le_rfl⟩

/-- The six dispatches that abort a master transfer (rules R142 to R147). -/
abbrev masterAborts (h : Handle) : List Instr :=
  [.nackMtxStartSent h, .nackMtxAddrAcked h, .nackMtx h, .nackMrxStartSent h, .nackMrxAddrAcked h, .nackMrx h]

/-- What an abort leaves in `stretch` (rule R196, decision D11). -/
theorem abortStretch_cases (p : Params) (a : Stretch) :
    (if p.nackMasterStop then Stretch.on else a) = a ∨
    ((if p.nackMasterStop then Stretch.on else a) = .on ∧ p.nackMasterStop = true) := by
  by_cases h : p.nackMasterStop = true <;> simp [h]

/-- The dispatches that write `stretch` (rule R30): the last byte of a master transfer, and the aborts under
`P_NACK_MASTER_STOP`. -/
theorem handlerEffect_stretch (he : handlerEffect p pt i x y) :
    y.stretch = x.stretch ∨
    (y.stretch = .on ∧ ((i = .txeMtx i.handle ∧ x.mtxCount + 1 = x.mtxSize) ∨
      (i = .rxMrx i.handle ∧ x.mrxCount + 1 = x.mrxSize) ∨
      (p.nackMasterStop = true ∧ i ∈ masterAborts i.handle))) := by
  cases i <;> simp only [handlerEffect] at he
  case addrIdle => rcases he with rfl | rfl <;> exact .inl rfl
  case txeMtx =>
    obtain ⟨b, rfl | ⟨hlast, rfl⟩⟩ := he
    · exact .inl rfl
    · exact .inr ⟨rfl, .inl ⟨rfl, hlast⟩⟩
  case rxMrx =>
    obtain ⟨-, ⟨hlast, rfl⟩ | ⟨-, rfl⟩ | ⟨-, -, rfl⟩⟩ := he
    · exact .inr ⟨rfl, .inr (.inl ⟨rfl, hlast⟩)⟩
    · exact .inl rfl
    · exact .inl rfl
  case txeStx => obtain ⟨b, c, -, rfl⟩ := he; exact .inl rfl
  case nackMtxStartSent | nackMtxAddrAcked | nackMtx | nackMrxStartSent | nackMrxAddrAcked | nackMrx =>
    subst he
    exact (abortStretch_cases p x.stretch).imp_right fun ⟨hon, hp⟩ => ⟨hon, .inr (.inr ⟨hp, by simp [Instr.handle]⟩)⟩
  all_goals subst he; exact .inl rfl

/-- The dispatches that write `ackNext` (rule R30): the address of a receive of one byte, and RX.MRX around the last
byte. -/
theorem handlerEffect_ackNext (he : handlerEffect p pt i x y) :
    y.ackNext = x.ackNext ∨
    (y.ackNext = .nack ∧ ((i = .addrMrxAddrAcked i.handle ∧ x.mrxSize = 1) ∨
      (i = .rxMrx i.handle ∧ x.mrxCount + 1 = x.mrxSize - 1))) ∨
    (y.ackNext = .ack ∧ i = .rxMrx i.handle ∧ x.mrxCount + 1 = x.mrxSize) := by
  cases i <;> simp only [handlerEffect] at he
  case addrIdle => rcases he with rfl | rfl <;> exact .inl rfl
  case txeMtx => obtain ⟨b, rfl | ⟨-, rfl⟩⟩ := he <;> exact .inl rfl
  case rxMrx =>
    obtain ⟨-, ⟨hlast, rfl⟩ | ⟨hnext, rfl⟩ | ⟨-, -, rfl⟩⟩ := he
    · exact .inr (.inr ⟨rfl, rfl, hlast⟩)
    · exact .inr (.inl ⟨rfl, .inr ⟨rfl, hnext⟩⟩)
    · exact .inl rfl
  case txeStx => obtain ⟨b, c, -, rfl⟩ := he; exact .inl rfl
  case addrMrxAddrAcked =>
    subst he
    by_cases hone : x.mrxSize = 1
    · exact .inr (.inl ⟨if_pos hone, .inl ⟨rfl, hone⟩⟩)
    · exact .inl (if_neg hone)
  all_goals subst he; exact .inl rfl

/-- A dispatch selected for the session's own status writes a status that the table of rule R22 lists. -/
theorem handlerEffect_status {e : Event} {h : Handle} (he : handlerEffect p pt (dispatchInstr x.status e h) x y) :
    y.status = x.status ∨ statusEdge x.status y.status = true := by
  generalize hst : x.status = st at he ⊢
  cases st <;> cases e <;> simp only [dispatchInstr, handlerEffect] at he
  case idle.addr => rcases he with rfl | rfl <;> exact .inr rfl
  case mtx.txe =>
    obtain ⟨b, rfl | ⟨-, rfl⟩⟩ := he
    · exact .inl hst
    · exact .inr rfl
  case mrx.rx =>
    obtain ⟨-, ⟨-, rfl⟩ | ⟨-, rfl⟩ | ⟨-, -, rfl⟩⟩ := he
    · exact .inr rfl
    · exact .inl hst
    · exact .inl hst
  case stx.txe => obtain ⟨b, c, -, rfl⟩ := he; exact .inl hst
  case srx.rx => subst he; exact .inl hst
  all_goals subst he; exact .inr rfl

end Handler

/-! ### What each operation leaves of its session -/

section Operation

variable {s : State} {i : Instr} {x y : Session}

/-- The shapes of `operationEffect`: a handler ran, its own dispatch's or the one OnInterrupt selected; or the session is
as before; or a command wrote its own fields. -/
theorem operationEffect_cases (he : operationEffect s i x y) :
    (∃ j, handlerEffect s.params (s.port i.handle) j x y ∧
      ((j = i ∧ ∃ h w, encode i = .dsp h w) ∨
       ∃ e, i = .onInterrupt i.handle ∧ selectEvent (s.port i.handle).flags = some e ∧
        j = dispatchInstr x.status e i.handle)) ∨
    y = x ∨
    (∃ h a bytes, i = .masterTransmit h a bytes ∧
      y = { x with
            stretch := .off
            mtxBuffer := Memory.ofBytes bytes
            mtxSize := bytes.length
            mtxCount := 0
            slaveAddress := addressByte a writeDirection
            status := .mtxStartSent
            trace := x.trace ++ [.stretchOff, .start] }) ∨
    (∃ h a n, i = .masterReceive h a n ∧
      y = { x with
            stretch := .off
            mrxBuffer := []
            mrxSize := n
            mrxCount := 0
            slaveAddress := addressByte a readDirection
            status := .mrxStartSent
            ackNext := if n = 1 then .nack else x.ackNext
            trace := x.trace ++ ([.stretchOff] ++ (if n = 1 then [.nackNext] else []) ++ [.start]) }) ∨
    y = { x with unreadCount := x.unreadCount - 1 } ∨
    ∃ b, y = { x with stxBuffer := Option.map Memory.ofBytes b } := by
  cases i
  case createSession => exact .inr (.inl he)
  case destroySession => exact he.elim
  case masterTransmit h a bytes => exact .inr (he.imp And.left fun ⟨_, hy⟩ => .inl ⟨h, a, bytes, rfl, hy⟩)
  case masterReceive h a n => exact .inr (he.imp And.left fun ⟨_, hy⟩ => .inr (.inl ⟨h, a, n, rfl, hy⟩))
  case pop => exact .inr (he.imp_right fun ⟨hy, _⟩ => .inr (.inr (.inl hy)))
  case setSlaveTransmitBuffer h b => exact .inr (.inr (.inr (.inr (.inr ⟨b, he⟩))))
  case onInterrupt h =>
    rcases he with hy | ⟨e, hsel, hj⟩
    · exact .inr (.inl hy)
    · exact .inl ⟨_, hj, .inr ⟨e, rfl, hsel, rfl⟩⟩
  all_goals
    refine .inl ⟨_, ?_, .inl ⟨rfl, _, _, rfl⟩⟩
    exact he

/-- The fields that no operation writes on a session that stays. -/
theorem operationEffect_constants (he : operationEffect s i x y) :
    y.callbacks = x.callbacks ∧ y.ringCap = x.ringCap ∧ y.busPeriodLength = x.busPeriodLength ∧
    y.enabled = x.enabled := by
  rcases operationEffect_cases he with ⟨_, hj, -⟩ | rfl | ⟨_, _, _, -, rfl⟩ | ⟨_, _, _, -, rfl⟩ | rfl | ⟨_, rfl⟩
  · obtain ⟨hcb, hcap, hbus, hen, -⟩ := handlerEffect_constants hj
    exact ⟨hcb, hcap, hbus, hen⟩
  all_goals exact ⟨rfl, rfl, rfl, rfl⟩

/-- `slaveAddress` is written by the two transfer commands only (rule R23). -/
theorem operationEffect_slaveAddress (he : operationEffect s i x y) :
    y.slaveAddress = x.slaveAddress ∨
    (∃ a bytes, i = .masterTransmit i.handle a bytes ∧ y.slaveAddress = addressByte a writeDirection) ∨
    (∃ a n, i = .masterReceive i.handle a n ∧ y.slaveAddress = addressByte a readDirection) := by
  rcases operationEffect_cases he with ⟨_, hj, -⟩ | rfl | ⟨h, a, bytes, rfl, rfl⟩ | ⟨h, a, n, rfl, rfl⟩ | rfl | ⟨_, rfl⟩
  · obtain ⟨-, -, -, -, haddr⟩ := handlerEffect_constants hj
    exact .inl haddr
  · exact .inl rfl
  · exact .inr (.inl ⟨a, bytes, rfl, rfl⟩)
  · exact .inr (.inr ⟨a, n, rfl, rfl⟩)
  · exact .inl rfl
  · exact .inl rfl

/-- Every operation only appends to the trace of a session that stays (rule R38). -/
theorem operationEffect_trace (he : operationEffect s i x y) : x.trace <+: y.trace := by
  rcases operationEffect_cases he with ⟨_, hj, -⟩ | rfl | ⟨_, _, _, -, rfl⟩ | ⟨_, _, _, -, rfl⟩ | rfl | ⟨_, rfl⟩
  · exact handlerEffect_trace hj
  all_goals simp

/-- Where a transfer counter restarts (rule R31(c)); in OnInterrupt it is `ADDR.Idle` that is selected. -/
theorem operationEffect_counters (he : operationEffect s i x y) :
    (x.mtxCount ≤ y.mtxCount ∨ (y.mtxCount = 0 ∧ ∃ a bytes, i = .masterTransmit i.handle a bytes)) ∧
    (x.mrxCount ≤ y.mrxCount ∨ (y.mrxCount = 0 ∧ ∃ a n, i = .masterReceive i.handle a n)) ∧
    (x.stxCount ≤ y.stxCount ∨ (y.stxCount = 0 ∧ y.status = .stx ∧
      (i = .addrIdle i.handle ∨
       (i = .onInterrupt i.handle ∧ x.status = .idle ∧ selectEvent (s.port i.handle).flags = some .addr)))) := by
  rcases operationEffect_cases he with ⟨j, hj, hran⟩ | rfl | ⟨h, a, bytes, rfl, rfl⟩ | ⟨h, a, n, rfl, rfl⟩ | rfl |
    ⟨_, rfl⟩
  · obtain ⟨hmtx, hmrx, hstx⟩ := handlerEffect_counters hj
    refine ⟨.inl hmtx, .inl hmrx, hstx.imp_right fun ⟨h0, hst, hidle⟩ => ⟨h0, hst, ?_⟩⟩
    rcases hran with ⟨rfl, -⟩ | ⟨e, hon, hsel, rfl⟩
    · exact .inl hidle
    · obtain ⟨hx, rfl⟩ := dispatchInstr_inj (st' := .idle) (e' := .addr) hidle
      exact .inr ⟨hon, hx, hsel⟩
  · exact ⟨.inl le_rfl, .inl le_rfl, .inl le_rfl⟩
  · exact ⟨.inr ⟨rfl, a, bytes, rfl⟩, .inl le_rfl, .inl le_rfl⟩
  · exact ⟨.inl le_rfl, .inr ⟨rfl, a, n, rfl⟩, .inl le_rfl⟩
  · exact ⟨.inl le_rfl, .inl le_rfl, .inl le_rfl⟩
  · exact ⟨.inl le_rfl, .inl le_rfl, .inl le_rfl⟩

/-- An operation that is no dispatch of its own writes a status that the table of rule R22 lists. -/
theorem operationEffect_status (hcmd : ∀ h w, encode i ≠ .dsp h w) (he : operationEffect s i x y) :
    y.status = x.status ∨ statusEdge x.status y.status = true := by
  rcases operationEffect_cases he with ⟨_, hj, ⟨-, h, w, hd⟩ | ⟨e, -, -, rfl⟩⟩ | rfl | ⟨_, _, _, -, rfl⟩ |
    ⟨_, _, _, -, rfl⟩ | rfl | ⟨_, rfl⟩
  · exact absurd hd (hcmd h w)
  · exact handlerEffect_status hj
  · exact .inl rfl
  · exact .inr rfl
  · exact .inr rfl
  · exact .inl rfl
  · exact .inl rfl

end Operation

/-! ### What each micro-step leaves of its session -/

section MicroStep

variable (m : Micro) (x : Session)

theorem leaves_constants :
    (m.leaves x).callbacks = x.callbacks ∧ (m.leaves x).ringCap = x.ringCap ∧
    (m.leaves x).busPeriodLength = x.busPeriodLength ∧ (m.leaves x).enabled = x.enabled := by
  cases m with
  | preArmNack n => by_cases h : n = 1 <;> simp [Micro.leaves, h]
  | _ => exact ⟨rfl, rfl, rfl, rfl⟩

theorem leaves_trace : x.trace <+: (m.leaves x).trace := by
  cases m with
  | preArmNack n => by_cases h : n = 1 <;> simp [Micro.leaves, h]
  | _ => simp [Micro.leaves]

/-- M4 and V4 write `slaveAddress` (rules R110, R120). -/
theorem leaves_slaveAddress :
    (m.leaves x).slaveAddress = x.slaveAddress ∨ m = .setAddress (m.leaves x).slaveAddress := by
  cases m with
  | setAddress b => exact .inr rfl
  | preArmNack n => by_cases h : n = 1 <;> simp [Micro.leaves, h]
  | _ => exact .inl rfl

/-- M5 and V6 write `status` (rules R110, R120). -/
theorem leaves_status : (m.leaves x).status = x.status ∨ statusEdge x.status (m.leaves x).status = true := by
  cases m with
  | enterTransmit => exact .inr rfl
  | enterReceive => exact .inr rfl
  | preArmNack n => by_cases h : n = 1 <;> simp [Micro.leaves, h]
  | _ => exact .inl rfl

/-- M3 and V3 restart the master counters (rules R110, R120). -/
theorem leaves_counters :
    (x.mtxCount ≤ (m.leaves x).mtxCount ∨ ((m.leaves x).mtxCount = 0 ∧ m = .zeroTransmitCount)) ∧
    (x.mrxCount ≤ (m.leaves x).mrxCount ∨ ((m.leaves x).mrxCount = 0 ∧ m = .zeroReceiveCount)) ∧
    x.stxCount ≤ (m.leaves x).stxCount := by
  cases m with
  | zeroTransmitCount => exact ⟨.inr ⟨rfl, rfl⟩, .inl le_rfl, le_rfl⟩
  | zeroReceiveCount => exact ⟨.inl le_rfl, .inr ⟨rfl, rfl⟩, le_rfl⟩
  | preArmNack n => by_cases h : n = 1 <;> simp [Micro.leaves, h]
  | _ => exact ⟨.inl le_rfl, .inl le_rfl, le_rfl⟩

/-- M1 and V1 write `stretch` (rules R110, R120). -/
theorem leaves_stretch :
    (m.leaves x).stretch = x.stretch ∨ ((m.leaves x).stretch = .off ∧ m = .disableClockStretch) := by
  cases m with
  | disableClockStretch => exact .inr ⟨rfl, rfl⟩
  | preArmNack n => by_cases h : n = 1 <;> simp [Micro.leaves, h]
  | _ => exact .inl rfl

/-- V5 writes `ackNext` when the size is 1 (rule R120). -/
theorem leaves_ackNext :
    (m.leaves x).ackNext = x.ackNext ∨ ((m.leaves x).ackNext = .nack ∧ m = .preArmNack 1) := by
  cases m with
  | preArmNack n => by_cases h : n = 1 <;> simp [Micro.leaves, h]
  | _ => exact .inl rfl

end MicroStep

/-! ### The life of a session -/

/-- What a script performs is a command, and so of no dispatch's format (rule R100). -/
theorem performs_not_dsp {s u : State} {i : Instr} (hp : s.performs i u) (h : Handle) (w : DispatchWord) :
    encode i ≠ .dsp h w :=
  fun hi => not_performs_dispatch hi hp

/-- Settles O50: every mover either leaves the status or writes it along an edge; the rest of a held handler enters
Idle, which every status may. -/
theorem statusFollowsTransitionGraph : Obligations.StatusFollowsTransitionGraph := by
  intro s t h x y hn hx hy
  rcases step_session_effect hn hx hy with rfl | ⟨i, u, hp, -, -, he⟩ | ⟨m, -, rfl⟩ | ⟨_, rfl⟩ | ⟨-, rfl⟩
  · exact .inl rfl
  · exact operationEffect_status (performs_not_dsp hp) he
  · exact leaves_status m x
  · exact .inl rfl
  · exact .inr rfl

/-- Settles O51, for exec by `operationEffect_counters`, for a step by who moved. -/
theorem transferCountersOnlyRestartAtTransferStart : Obligations.TransferCountersOnlyRestartAtTransferStart := by
  constructor
  · intro i s t h x y hn hx hy
    rcases exec_operation_effect hn hx hy with ⟨-, rfl⟩ | ⟨rfl, he⟩
    · exact ⟨.inl le_rfl, .inl le_rfl, .inl le_rfl⟩
    · obtain ⟨hmtx, hmrx, hstx⟩ := operationEffect_counters he
      exact ⟨hmtx, hmrx, hstx.imp_right fun ⟨h0, hst, hi⟩ =>
        ⟨h0, hst, hi.imp_right fun ⟨hon, hidle, _⟩ => ⟨hon, hidle⟩⟩⟩
  · intro s t h x y hn hx hy
    rcases step_session_effect hn hx hy with rfl | ⟨i, u, hp, -, rfl, he⟩ | ⟨m, hm, rfl⟩ | ⟨_, rfl⟩ | ⟨-, rfl⟩
    · exact ⟨.inl le_rfl, .inl le_rfl, .inl le_rfl⟩
    · obtain ⟨hmtx, hmrx, hstx⟩ := operationEffect_counters he
      refine ⟨hmtx.imp_right fun ⟨h0, a, bytes, hi⟩ => ⟨h0, .inl ⟨a, bytes, u, hi ▸ hp⟩⟩,
        hmrx.imp_right fun ⟨h0, a, n, hi⟩ => ⟨h0, .inl ⟨a, n, u, hi ▸ hp⟩⟩, hstx.imp_right ?_⟩
      rintro ⟨h0, hst, hi | ⟨hi, hidle, hsel⟩⟩
      · exact absurd (hi ▸ hp) (not_performs_dispatch rfl)
      · exact ⟨h0, hst, hidle, u, hi ▸ hp, hsel⟩
    · obtain ⟨hmtx, hmrx, hstx⟩ := leaves_counters m x
      exact ⟨hmtx.imp_right fun ⟨h0, hz⟩ => ⟨h0, .inr (hz ▸ hm)⟩,
        hmrx.imp_right fun ⟨h0, hz⟩ => ⟨h0, .inr (hz ▸ hm)⟩, .inl hstx⟩
    · exact ⟨.inl le_rfl, .inl le_rfl, .inl le_rfl⟩
    · exact ⟨.inl le_rfl, .inl le_rfl, .inl le_rfl⟩

/-- Settles O52: no mover writes the four constants, and `slaveAddress` is written by the transfer commands and by their
micro-step M4 or V4. -/
theorem sessionConstantsAndAddressWriters : Obligations.SessionConstantsAndAddressWriters := by
  constructor
  · intro i s t h x y hn hx hy
    rcases exec_operation_effect hn hx hy with ⟨-, rfl⟩ | ⟨rfl, he⟩
    · exact ⟨rfl, rfl, rfl, rfl, .inl rfl⟩
    · obtain ⟨hcb, hcap, hbus, hen⟩ := operationEffect_constants he
      refine ⟨hcb, hcap, hbus, hen, (operationEffect_slaveAddress he).imp_right (.imp ?_ ?_)⟩
      · exact fun ⟨a, bytes, hi, _⟩ => ⟨a, bytes, hi⟩
      · exact fun ⟨a, n, hi, _⟩ => ⟨a, n, hi⟩
  · intro s t h x y hn hx hy
    rcases step_session_effect hn hx hy with rfl | ⟨i, u, hp, -, rfl, he⟩ | ⟨m, hm, rfl⟩ | ⟨_, rfl⟩ | ⟨-, rfl⟩
    · exact ⟨rfl, rfl, rfl, rfl, .inl rfl⟩
    · obtain ⟨hcb, hcap, hbus, hen⟩ := operationEffect_constants he
      refine ⟨hcb, hcap, hbus, hen, (operationEffect_slaveAddress he).imp_right (.imp ?_ fun hr => .inl ?_)⟩
      · exact fun ⟨a, bytes, hi, hy⟩ => ⟨a, bytes, u, hi ▸ hp, hy⟩
      · obtain ⟨a, n, hi, hy⟩ := hr
        exact ⟨a, n, u, hi ▸ hp, hy⟩
    · obtain ⟨hcb, hcap, hbus, hen⟩ := leaves_constants m x
      exact ⟨hcb, hcap, hbus, hen, (leaves_slaveAddress m x).imp_right fun hz => .inr (.inr (by rwa [← hz]))⟩
    · exact ⟨rfl, rfl, rfl, rfl, .inl rfl⟩
    · exact ⟨rfl, rfl, rfl, rfl, .inl rfl⟩

/-! ### The shadow fields -/

/-- The statuses of a master transfer, from Start to its last byte (rule R22). -/
abbrev masterStatuses : List Status := [.mtxStartSent, .mtxAddrAcked, .mtx, .mrxStartSent, .mrxAddrAcked, .mrx]

/-- A dispatch that aborts a master transfer is NACK in a status of one. -/
theorem dispatchInstr_mem_masterAborts {st : Status} {e : Event} {h : Handle}
    (hm : dispatchInstr st e h ∈ masterAborts h) : e = .nack ∧ st ∈ masterStatuses := by
  have hmap : masterAborts h = masterStatuses.map fun st' => dispatchInstr st' .nack h := rfl
  rw [hmap] at hm
  obtain ⟨st', hst, heq⟩ := List.mem_map.1 hm
  obtain ⟨rfl, rfl⟩ := dispatchInstr_inj heq
  exact ⟨rfl, hst⟩

section Dispatch

variable {p : Params} {pt : Port} {e : Event} {h : Handle} {x y : Session}

/-- `handlerEffect_stretch` for the dispatch selected in the session's own status. -/
theorem dispatchEffect_stretch (he : handlerEffect p pt (dispatchInstr x.status e h) x y) :
    y.stretch = x.stretch ∨
    (y.stretch = .on ∧ ((e = .txe ∧ x.status = .mtx ∧ x.mtxCount + 1 = x.mtxSize) ∨
      (e = .rx ∧ x.status = .mrx ∧ x.mrxCount + 1 = x.mrxSize) ∨
      (p.nackMasterStop = true ∧ e = .nack ∧ x.status ∈ masterStatuses))) := by
  rcases handlerEffect_stretch he with heq | ⟨hon, hw⟩
  · exact .inl heq
  · rw [dispatchInstr_handle] at hw
    refine .inr ⟨hon, hw.imp (fun ⟨hi, hlast⟩ => ?_) (.imp (fun ⟨hi, hlast⟩ => ?_) fun ⟨hp, hi⟩ => ?_)⟩
    · obtain ⟨hst, rfl⟩ := dispatchInstr_inj (st' := .mtx) (e' := .txe) hi
      exact ⟨rfl, hst, hlast⟩
    · obtain ⟨hst, rfl⟩ := dispatchInstr_inj (st' := .mrx) (e' := .rx) hi
      exact ⟨rfl, hst, hlast⟩
    · exact ⟨hp, dispatchInstr_mem_masterAborts hi⟩

/-- `handlerEffect_ackNext` for the dispatch selected in the session's own status. -/
theorem dispatchEffect_ackNext (he : handlerEffect p pt (dispatchInstr x.status e h) x y) :
    y.ackNext = x.ackNext ∨
    (y.ackNext = .nack ∧ ((e = .addr ∧ x.status = .mrxAddrAcked ∧ x.mrxSize = 1) ∨
      (e = .rx ∧ x.status = .mrx ∧ x.mrxCount + 1 = x.mrxSize - 1))) ∨
    (y.ackNext = .ack ∧ e = .rx ∧ x.status = .mrx ∧ x.mrxCount + 1 = x.mrxSize) := by
  rcases handlerEffect_ackNext he with heq | ⟨hnack, ⟨hi, hone⟩ | ⟨hi, hnext⟩⟩ | ⟨hack, hi, hlast⟩
  · exact .inl heq
  · obtain ⟨hst, rfl⟩ := dispatchInstr_inj (st' := .mrxAddrAcked) (e' := .addr) hi
    exact .inr (.inl ⟨hnack, .inl ⟨rfl, hst, hone⟩⟩)
  · obtain ⟨hst, rfl⟩ := dispatchInstr_inj (st' := .mrx) (e' := .rx) hi
    exact .inr (.inl ⟨hnack, .inr ⟨rfl, hst, hnext⟩⟩)
  · obtain ⟨hst, rfl⟩ := dispatchInstr_inj (st' := .mrx) (e' := .rx) hi
    exact .inr (.inr ⟨hack, rfl, hst, hlast⟩)

end Dispatch

/-- The shadow fields after an operation: a handler ran, its own dispatch's or the one OnInterrupt selected; or a
command wrote them as the table of rule R30 says. -/
theorem operationEffect_shadow {s : State} {i : Instr} {x y : Session} (he : operationEffect s i x y) :
    (∃ j, handlerEffect s.params (s.port i.handle) j x y ∧
      ((j = i ∧ ∃ h w, encode i = .dsp h w) ∨
       ∃ e, i = .onInterrupt i.handle ∧ selectEvent (s.port i.handle).flags = some e ∧
        j = dispatchInstr x.status e i.handle)) ∨
    ((y.stretch = x.stretch ∨ (y.stretch = .off ∧
        ((∃ a bytes, i = .masterTransmit i.handle a bytes) ∨ ∃ a n, i = .masterReceive i.handle a n))) ∧
      (y.ackNext = x.ackNext ∨ (y.ackNext = .nack ∧ ∃ a, i = .masterReceive i.handle a 1))) := by
  rcases operationEffect_cases he with hran | rfl | ⟨h, a, bytes, rfl, rfl⟩ | ⟨h, a, n, rfl, rfl⟩ | rfl | ⟨_, rfl⟩
  · exact .inl hran
  · exact .inr ⟨.inl rfl, .inl rfl⟩
  · exact .inr ⟨.inr ⟨rfl, .inl ⟨a, bytes, rfl⟩⟩, .inl rfl⟩
  · refine .inr ⟨.inr ⟨rfl, .inr ⟨a, n, rfl⟩⟩, ?_⟩
    by_cases hone : n = 1
    · exact .inr ⟨if_pos hone, a, hone ▸ rfl⟩
    · exact .inl (if_neg hone)
  · exact .inr ⟨.inl rfl, .inl rfl⟩
  · exact .inr ⟨.inl rfl, .inl rfl⟩

/-- Settles O53: a command writes the shadow fields as `operationEffect_shadow` says, a handler as
`handlerEffect_stretch` and `handlerEffect_ackNext` say, a micro-step is M1, V1 or V5, and the release of a hold enables
clock stretching. -/
theorem shadowFieldWriters : Obligations.ShadowFieldWriters := by
  constructor
  · intro i s t h x y hn hx hy hno
    rcases exec_operation_effect hn hx hy with ⟨-, rfl⟩ | ⟨rfl, he⟩
    · exact ⟨.inl rfl, .inl rfl⟩
    rcases operationEffect_shadow he with ⟨j, hj, ⟨rfl, -⟩ | ⟨_, hi, -⟩⟩ | ⟨hstretch, hack⟩
    · refine ⟨(handlerEffect_stretch hj).imp_right fun ⟨hon, hw⟩ =>
        .inr ⟨hon, hw.imp And.left (.imp And.left id)⟩, ?_⟩
      rcases handlerEffect_ackNext hj with heq | ⟨hnack, ⟨hi, -⟩ | ⟨hi, -⟩⟩ | ⟨-, hi, -⟩
      · exact .inl heq
      · exact .inr (.inl ⟨hnack, .inr hi⟩)
      · exact .inr (.inr hi)
      · exact .inr (.inr hi)
    · exact absurd hi hno
    · exact ⟨hstretch.imp_right .inl, hack.imp_right fun ⟨hnack, hi⟩ => .inl ⟨hnack, .inl hi⟩⟩
  · intro s t h x y hn hx hy
    rcases step_session_effect hn hx hy with rfl | ⟨i, u, hp, hu, rfl, he⟩ | ⟨m, hm, rfl⟩ | ⟨_, rfl⟩ | ⟨hr, rfl⟩
    · exact ⟨.inl rfl, .inl rfl⟩
    · rcases operationEffect_shadow he with ⟨j, hj, ⟨-, _, _, hd⟩ | ⟨e, hi, hsel, rfl⟩⟩ | ⟨hstretch, hack⟩
      · exact absurd hp (not_performs_dispatch hd)
      · have hdisp : s.dispatches i.handle e := ⟨u, hi ▸ hp, hsel⟩
        rw [hu] at hj
        constructor
        · rcases dispatchEffect_stretch hj with heq | ⟨hon, ⟨rfl, hw⟩ | ⟨rfl, hw⟩ | ⟨hstop, rfl, hst⟩⟩
          · exact .inl heq
          · exact .inr (.inr ⟨hon, .inr (.inl ⟨hdisp, hw⟩)⟩)
          · exact .inr (.inr ⟨hon, .inr (.inr (.inl ⟨hdisp, hw⟩))⟩)
          · exact .inr (.inr ⟨hon, .inr (.inr (.inr ⟨hstop, hdisp, hst⟩))⟩)
        · rcases dispatchEffect_ackNext hj with heq | ⟨hnack, ⟨rfl, hw⟩ | ⟨rfl, hw⟩⟩ | ⟨hack, rfl, hw⟩
          · exact .inl heq
          · exact .inr (.inl ⟨hnack, .inr (.inr (.inl ⟨hdisp, hw⟩))⟩)
          · exact .inr (.inl ⟨hnack, .inr (.inr (.inr ⟨hdisp, hw⟩))⟩)
          · exact .inr (.inr ⟨hack, hdisp, hw⟩)
      · refine ⟨hstretch.imp_right fun ⟨hoff, hi⟩ => .inl ⟨hoff, ?_⟩,
          hack.imp_right fun ⟨hnack, a, hi⟩ => .inl ⟨hnack, .inl ⟨a, u, hi ▸ hp⟩⟩⟩
        exact hi.imp (fun ⟨a, bytes, hi⟩ => ⟨a, bytes, u, hi ▸ hp⟩) fun ⟨a, n, hi⟩ => .inl ⟨a, n, u, hi ▸ hp⟩
    · exact ⟨(leaves_stretch m x).imp_right fun ⟨hoff, hz⟩ => .inl ⟨hoff, .inr (.inr (hz ▸ hm))⟩,
        (leaves_ackNext m x).imp_right fun ⟨hnack, hz⟩ => .inl ⟨hnack, .inr (.inl (hz ▸ hm))⟩⟩
    · exact ⟨.inl rfl, .inl rfl⟩
    · exact ⟨.inr (.inr ⟨rfl, .inl hr⟩), .inl rfl⟩

/-! ### Which handles are live, and the closed traces -/

@[simp] theorem session?_hostReturns (s : State) (r : Option HostResult) (h : Handle) :
    (s.hostReturns r).session? h = s.session? h := rfl

@[simp] theorem hostReturns_closedTraces (s : State) (r : Option HostResult) :
    (s.hostReturns r).closedTraces = s.closedTraces := rfl

@[simp] theorem afterMicro_closedTraces (s : State) (h : Handle) (todo : List Micro) :
    (s.afterMicro h todo).closedTraces = s.closedTraces := by
  unfold State.afterMicro; split <;> rfl

/-- Putting a session where there is one changes no liveness. -/
theorem isSome_session?_put {s : State} {h : Handle} {x : Session} (hx : s.session? h = some x) (f : Focus)
    (h' : Handle) : ((s.put h f).session? h').isSome = (s.session? h').isSome := by
  by_cases hh : h' = h
  · subst hh; simp [hx]
  · simp [hh]

theorem exec_keeps_live {i : Instr} {s t : State} (hn : exec i s = .next t)
    (hc : ∀ id cap cbs, i ≠ .createSession id cap cbs) (hd : ∀ h, i ≠ .destroySession h) (h : Handle) :
    (t.session? h).isSome = (s.session? h).isSome := by
  rcases exec_next hn with ⟨_, rfl⟩ | ⟨id, cap, cbs, _, _, hi, -⟩ | ⟨h', _, hi, -⟩ | ⟨_, f, _, hx, rfl⟩
  · rfl
  · exact absurd hi (hc id cap cbs)
  · exact absurd hi (hd h')
  · exact isSome_session?_put hx f h

theorem microStep_keeps_live {s t : State} (hn : microStep s = .next t) (h : Handle) :
    (t.session? h).isSome = (s.session? h).isSome := by
  rcases microStep_next hn with ⟨-, rfl⟩ | ⟨_, -, rfl⟩ | ⟨_, _, _, _, -, hx, rfl⟩ |
    ⟨_, _, -, -, ⟨-, rfl⟩ | ⟨-, rfl⟩⟩ | ⟨_, _, _, -, hx, rfl⟩ | ⟨_, _, _, _, -, hx, rfl⟩ <;>
    simp [isSome_session?_put, *]

theorem microStep_closedTraces {s t : State} (hn : microStep s = .next t) : t.closedTraces = s.closedTraces := by
  rcases microStep_next hn with ⟨-, rfl⟩ | ⟨_, -, rfl⟩ | ⟨_, _, _, _, -, -, rfl⟩ |
    ⟨_, _, -, -, ⟨-, rfl⟩ | ⟨-, rfl⟩⟩ | ⟨_, _, _, -, -, rfl⟩ | ⟨_, _, _, _, -, -, rfl⟩ <;> simp

/-- Settles O49: an operation but the two puts a session where it found one, and so do a micro-step and the release of a
hold; the beginning of a command and the environment touch no session. -/
theorem onlyRegistryCommandsChangeLiveness : Obligations.OnlyRegistryCommandsChangeLiveness := by
  refine ⟨fun i s t hn hc hd => exec_keeps_live hn hc hd, fun s t hn hc hd h => ?_⟩
  have op : ∀ {i u}, s.performs i u → exec i u = .next t → (t.session? h).isSome = (u.session? h).isSome :=
    fun {i u} hp he => exec_keeps_live he (fun id cap cbs hi => hc id cap cbs u (hi ▸ hp))
      (fun h' hi => hd h' u (hi ▸ hp)) h
  rcases step_next hn with ⟨-, rfl⟩ | ⟨_, -, hr⟩ | ⟨_, _, _, -, rfl⟩ | ⟨_, -, hm⟩ |
    ⟨ctx, w, answers, rest, i, ht, hi, -, he⟩ | ⟨w, rest, i, ht, hi, hb | ⟨-, he⟩⟩
  · rfl
  · obtain ⟨_, f, hx, rfl, -⟩ := releaseHold_next hr
    exact isSome_session?_put hx f h
  · simp
  · simpa using microStep_keeps_live hm h
  · simpa using op ⟨w, rest, hi, .inr ⟨ctx, answers, ht, rfl⟩⟩ he
  · obtain ⟨_, -, rfl | ⟨_, rfl, -⟩⟩ := beginHost_next hb <;> rfl
  · simpa using op ⟨w, rest, hi, .inl ⟨ht, rfl⟩⟩ he

theorem exec_closedTraces {i : Instr} {s t : State} (hn : exec i s = .next t) : s.closedTraces <+: t.closedTraces := by
  rcases exec_next hn with ⟨_, rfl⟩ | ⟨_, _, _, _, _, -, -, -, -, rfl⟩ | ⟨_, _, -, -, rfl⟩ | ⟨_, _, _, -, rfl⟩ <;> simp

theorem step_closedTraces {s t : State} (hn : step s = .next t) : s.closedTraces <+: t.closedTraces := by
  rcases step_next hn with ⟨-, rfl⟩ | ⟨_, -, hr⟩ | ⟨_, _, _, -, rfl⟩ | ⟨_, -, hm⟩ | ⟨_, _, _, _, _, -, -, -, he⟩ |
    ⟨_, _, _, -, -, hb | ⟨-, he⟩⟩
  · exact List.prefix_rfl
  · obtain ⟨_, _, -, rfl, -⟩ := releaseHold_next hr
    exact List.prefix_rfl
  · simp
  · simp [microStep_closedTraces hm]
  · simpa using exec_closedTraces he
  · obtain ⟨_, -, rfl | ⟨_, rfl, -⟩⟩ := beginHost_next hb <;> exact List.prefix_rfl
  · simpa using exec_closedTraces he

/-- Settles O54: every mover appends to the trace of a session that stays, and only DestroySession closes one, at the
end of the list. -/
theorem tracesOnlyGrow : Obligations.TracesOnlyGrow := by
  refine ⟨fun i s t hn => ⟨exec_closedTraces hn, fun h x y hx hy => ?_⟩,
    fun s t hn => ⟨step_closedTraces hn, fun h x y hx hy => ?_⟩⟩
  · rcases exec_operation_effect hn hx hy with ⟨-, rfl⟩ | ⟨-, he⟩
    · exact List.prefix_rfl
    · exact operationEffect_trace he
  · rcases step_session_effect hn hx hy with rfl | ⟨_, _, -, -, -, he⟩ | ⟨m, -, rfl⟩ | ⟨_, rfl⟩ | ⟨-, rfl⟩
    · exact List.prefix_rfl
    · exact operationEffect_trace he
    · exact leaves_trace m x
    · exact List.prefix_rfl
    · simp

/-! ### Sound sessions -/

/-- A store at a listed index of the ring leaves exactly the ring's cells (20_memory.md rule R51). -/
theorem ring_write_keys {x : Session} (hok : x.Ok) (b : Byte) :
    (x.ring.write x.writeIndex b).map Prod.fst = List.range x.ringCap := by
  obtain ⟨-, hkeys, hindex, -⟩ := hok
  have hlisted : x.writeIndex ∈ x.ring.map Prod.fst := by rw [hkeys]; exact List.mem_range.2 hindex
  exact (tableInsert_keys _ b x.ring (Memory.wf_of_keys hkeys) hlisted).trans hkeys

/-- PUSH keeps a session sound (rule R90). -/
theorem push_ok {x : Session} (hok : x.Ok) (b : Byte) : (x.push b).Ok := by
  have hkeys := ring_write_keys hok b
  obtain ⟨hcap, -, -, -, hmtx, hmrx, hstx, hen⟩ := hok
  exact ⟨hcap, hkeys, Nat.mod_lt _ hcap, Nat.min_le_right _ _, hmtx, hmrx, hstx, hen⟩

/-- A stored byte of a master receive keeps a session sound (rule R123). -/
theorem mrxWrite_ok {x : Session} (hok : x.Ok) (i : Nat) (b : Byte) :
    Session.Ok { x with mrxBuffer := x.mrxBuffer.write i b } := by
  obtain ⟨hcap, hkeys, hindex, hunread, hmtx, hmrx, hstx, hen⟩ := hok
  exact ⟨hcap, hkeys, hindex, hunread, hmtx, Memory.wf_write _ i b hmrx, hstx, hen⟩

theorem mtxStore_ok {x : Session} (hok : x.Ok) (bytes : List Byte) :
    Session.Ok { x with mtxBuffer := Memory.ofBytes bytes } := by
  obtain ⟨hcap, hkeys, hindex, hunread, -, hmrx, hstx, hen⟩ := hok
  exact ⟨hcap, hkeys, hindex, hunread, Memory.wf_ofBytes bytes, hmrx, hstx, hen⟩

theorem mrxClear_ok {x : Session} (hok : x.Ok) : Session.Ok { x with mrxBuffer := [] } := by
  obtain ⟨hcap, hkeys, hindex, hunread, hmtx, -, hstx, hen⟩ := hok
  exact ⟨hcap, hkeys, hindex, hunread, hmtx, rfl, hstx, hen⟩

theorem stxStore_ok {x : Session} (hok : x.Ok) (bytes : Option (List Byte)) :
    Session.Ok { x with stxBuffer := bytes.map Memory.ofBytes } := by
  obtain ⟨hcap, hkeys, hindex, hunread, hmtx, hmrx, -, hen⟩ := hok
  refine ⟨hcap, hkeys, hindex, hunread, hmtx, hmrx, ?_, hen⟩
  cases bytes with
  | none => rfl
  | some bytes => exact Memory.wf_ofBytes bytes

theorem unreadCount_le {x : Session} (hok : x.Ok) : x.unreadCount ≤ x.ringCap := by
  obtain ⟨-, -, -, hunread, -⟩ := hok
  exact hunread

/-- Pop's count, fresh or stale, stays within the capacity (rule R91). -/
theorem setUnreadCount_ok {x : Session} (hok : x.Ok) {n : Nat} (hn : n ≤ x.ringCap) :
    Session.Ok { x with unreadCount := n } := by
  obtain ⟨hcap, hkeys, hindex, -, hrest⟩ := hok
  exact ⟨hcap, hkeys, hindex, hn, hrest⟩

/-- A new session of capacity 1 or more is sound (rule R150). -/
theorem freshSession_ok (p : Params) {cap : Nat} (hcap : cap ≠ 0) (cbs : Callbacks) (k : Nat) :
    (freshSession p cap cbs k).Ok :=
  ⟨Nat.one_le_iff_ne_zero.2 hcap, Memory.zeros_keys cap, Nat.pos_of_ne_zero hcap, Nat.zero_le _, rfl, rfl, rfl, rfl⟩

/-- Every dispatch keeps its session sound: only RX.SRX and RX.MRX write a field soundness speaks of. -/
theorem handlerEffect_ok {p : Params} {pt : Port} {i : Instr} {x y : Session} (hok : x.Ok)
    (he : handlerEffect p pt i x y) : y.Ok := by
  cases i <;> simp only [handlerEffect] at he
  case addrIdle => rcases he with rfl | rfl <;> exact hok
  case txeMtx => obtain ⟨b, rfl | ⟨-, rfl⟩⟩ := he <;> exact hok
  case rxMrx => obtain ⟨-, ⟨-, rfl⟩ | ⟨-, rfl⟩ | ⟨-, -, rfl⟩⟩ := he <;> exact mrxWrite_ok hok x.mrxCount pt.data
  case rxSrx => subst he; exact push_ok hok pt.data
  case txeStx => obtain ⟨b, c, -, rfl⟩ := he; exact hok
  all_goals subst he; exact hok

/-- Every operation keeps a session that stays sound. -/
theorem operationEffect_ok {s : State} {i : Instr} {x y : Session} (hok : x.Ok) (he : operationEffect s i x y) :
    y.Ok := by
  rcases operationEffect_cases he with ⟨_, hj, -⟩ | rfl | ⟨_, _, bytes, -, rfl⟩ | ⟨_, _, _, -, rfl⟩ | rfl | ⟨b, rfl⟩
  · exact handlerEffect_ok hok hj
  · exact hok
  · exact mtxStore_ok hok bytes
  · exact mrxClear_ok hok
  · exact setUnreadCount_ok hok ((Nat.sub_le _ _).trans (unreadCount_le hok))
  · exact stxStore_ok hok b

/-- Every micro-step keeps its session sound. -/
theorem leaves_ok (m : Micro) {x : Session} (hok : x.Ok) : (m.leaves x).Ok := by
  cases m with
  | storeTransmit bytes => exact mtxStore_ok hok bytes
  | newReceive n => exact mrxClear_ok hok
  | storeSlaveBuffer bytes => exact stxStore_ok hok bytes
  | preArmNack n => by_cases h : n = 1 <;> simp only [Micro.leaves, h, if_true, if_false] <;> exact hok
  | _ => exact hok

/-! ### The invariant under each update of the state -/

/-- What the invariant says of a live session. -/
theorem session_of_inv {s : State} {h : Handle} {x : Session} (hi : s.Inv) (hx : s.session? h = some x) :
    h ∈ s.params.periphIds ∧ x.Ok := by
  obtain ⟨-, -, -, hreg, -⟩ := hi
  exact hreg (h, x) (mem_of_tableFind hx)

theorem ok_of_inv {s : State} {h : Handle} {x : Session} (hi : s.Inv) (hx : s.session? h = some x) : x.Ok :=
  (session_of_inv hi hx).2

theorem hostOk_of_inv {s : State} (hi : s.Inv) : s.hostOk = true := by
  obtain ⟨-, -, -, -, hhost, -⟩ := hi
  exact hhost

theorem holdOk_of_notInIrq {s : State} (hq : s.irqPhase = .notInIrq) : s.holdOk = true := by
  simp [State.holdOk, hq]

theorem holdOk_of_spinTC {s : State} {h : Handle} {x : Session} (hq : s.irqPhase = .spinTC h)
    (hx : s.session? h = some x) (hst : x.status = .mtx) (hcount : x.mtxCount = x.mtxSize) : s.holdOk = true := by
  simp [State.holdOk, hq, hx, hst, hcount]

theorem hostOk_of_none {s : State} (hh : s.host = none) : s.hostOk = true := by
  simp [State.hostOk, hh]

/-- A host command in progress stays sound while live sessions stay live and keep their capacities. -/
theorem hostOk_of_capacities {s t : State} (hh : t.host = s.host)
    (hcap : ∀ h x, s.session? h = some x → ∃ y, t.session? h = some y ∧ y.ringCap = x.ringCap)
    (hok : s.hostOk = true) : t.hostOk = true := by
  unfold State.hostOk at hok ⊢
  rw [hh]
  rcases hrun : s.host with _ | ⟨h, todo⟩ | h | ⟨h, u⟩ | ⟨h, u, b⟩
  case none => rfl
  all_goals
    simp only [hrun] at hok ⊢
    cases hx : s.session? h with
    | none => simp [hx] at hok
    | some x =>
      obtain ⟨y, hy, hc⟩ := hcap h x hx
      simp only [hx] at hok
      simp only [hy, hc]
      exact hok

/-- A sound session put where there is none, or one of the same capacity, keeps the invariant but for the hold. -/
theorem inv_put {s : State} {h : Handle} {f : Focus} (hi : s.Inv) (hid : h ∈ s.params.periphIds) (hok : f.session.Ok)
    (hcap : ∀ x, s.session? h = some x → f.session.ringCap = x.ringCap) (hhold : (s.put h f).holdOk = true) :
    (s.put h f).Inv := by
  obtain ⟨hsorted, hports, hquiet, hreg, hhost, -⟩ := hi
  obtain ⟨hports', hquiet'⟩ := portStore_canonical h f.port s.ports hports hquiet
  refine ⟨tableSorted_insert h f.session s.registry hsorted, hports', hquiet', ?registry, ?host, hhold⟩
  case registry =>
    intro e he
    rcases mem_tableInsert he with rfl | he
    · exact ⟨hid, hok⟩
    · exact hreg e he
  case host =>
    refine hostOk_of_capacities (put_host s h f) (fun j x hx => ?_) hhost
    by_cases hj : j = h
    · subst hj; exact ⟨f.session, session?_put_same s j f, hcap x hx⟩
    · exact ⟨x, (session?_put_ne s f hj).trans hx, rfl⟩

/-- A session taken out of the registry while the core is in no handler and no host command is in progress. -/
theorem inv_closeSession {s : State} (hi : s.Inv) (hq : s.irqPhase = .notInIrq) (hh : s.host = none) (h : Handle)
    (l : List TraceItem) : (s.closeSession h l).Inv := by
  obtain ⟨hsorted, hports, hquiet, hreg, -, -⟩ := hi
  exact ⟨tableSorted_erase h s.registry hsorted, hports, hquiet, fun e he => hreg e (mem_tableErase he),
    hostOk_of_none hh, holdOk_of_notInIrq hq⟩

/-- Another host command in progress, if that one is sound. -/
theorem inv_withHost {s : State} (hi : s.Inv) {run : Option HostRun} (hrun : (s.withHost run).hostOk = true) :
    (s.withHost run).Inv := by
  obtain ⟨hsorted, hports, hquiet, hreg, -, hhold⟩ := hi
  exact ⟨hsorted, hports, hquiet, hreg, hrun, hhold⟩

theorem inv_withResult {s : State} (hi : s.Inv) (r : Option HostResult) : (s.withResult r).Inv := hi

theorem inv_withInputs {s : State} (hi : s.Inv) (rest : List Input) : (s.withInputs rest).Inv := hi

theorem inv_hostReturns {s : State} (hi : s.Inv) (r : Option HostResult) : (s.hostReturns r).Inv :=
  inv_withResult (inv_withHost hi rfl) r

theorem inv_afterMicro {s : State} {h : Handle} (hi : s.Inv) (hlive : (s.session? h).isSome = true)
    (todo : List Micro) : (s.afterMicro h todo).Inv := by
  unfold State.afterMicro
  by_cases hdone : todo = []
  · simpa [hdone] using inv_hostReturns hi none
  · rw [if_neg hdone]
    exact inv_withHost hi (by simp [State.hostOk, hlive, hdone])

/-- The environment keeps the table of presented ports canonical. -/
theorem inv_present {s : State} (hi : s.Inv) (h : Handle) (p : Port) : (s.present h p).Inv := by
  obtain ⟨hsorted, hports, hquiet, hrest⟩ := hi
  obtain ⟨hports', hquiet'⟩ := portStore_canonical h p s.ports hports hquiet
  exact ⟨hsorted, hports', hquiet', hrest⟩

theorem inv_presentAll {s : State} (hi : s.Inv) (answers : List (Handle × Port)) : (s.presentAll answers).Inv := by
  induction answers generalizing s with
  | nil => exact hi
  | cons a rest ih => exact ih (inv_present hi a.1 a.2)

/-! ### The invariant under each mover -/

/-- What CreateSession did that completed: it returned an error, or put a fresh session where there was none. -/
theorem createSession_next {id : Handle} {cap : Nat} {cbs : Callbacks} {s t : State}
    (hn : exec (.createSession id cap cbs) s = .next t) :
    (∃ r, t = s.withResult r) ∨
    (id ∈ s.params.periphIds ∧ s.session? id = none ∧ cap ≠ 0 ∧ ∃ f r, t = (s.put id f).withResult r ∧
      f.irqPhase = s.irqPhase ∧
      f.session = { freshSession s.params cap cbs s.draws with trace := [.pen, .stretchOn, .ackNext] }) := by
  simp only [exec, execCreateSession] at hn
  split at hn
  · rename_i hid
    split at hn
    · cases hn
    · rename_i hnone
      split at hn
      · cases hn
      · rename_i hcap
        split at hn <;> cases hn
        exact .inr ⟨hid, hnone, hcap, _, _, rfl, rfl, rfl⟩
  · cases hn
    exact .inl ⟨_, rfl⟩

theorem transfer_irqPhase {h : Handle} {a n : Nat} {todo : List Micro} {s t : State}
    (hn : transfer h a n todo s = .next t) : t.irqPhase = s.irqPhase := by
  obtain ⟨x, -, -, ⟨-, rfl⟩ | ⟨-, rfl⟩⟩ := transfer_next hn
  · rfl
  · obtain ⟨-, -, hq⟩ := runMicros_frame todo (s.focus h x)
    exact hq

theorem pop_irqPhase {h : Handle} {s t : State} (hn : exec (.pop h) s = .next t) : t.irqPhase = s.irqPhase := by
  simp only [exec, execPop] at hn
  split at hn
  · cases hn
  · split at hn <;> cases hn
    · rfl
    · simp [popCountBack, popByte]

/-- OnInterrupt leaves the hidden core state, or the TXE handler in MTX holds the core with the last byte written
(rule R114). -/
theorem onInterrupt_irqPhase {h : Handle} {s t : State} (hn : exec (.onInterrupt h) s = .next t) :
    t.irqPhase = s.irqPhase ∨
    ∃ y, t.irqPhase = .spinTC h ∧ t.session? h = some y ∧ y.status = .mtx ∧ y.mtxCount = y.mtxSize := by
  change execOnInterrupt h s = .next t at hn
  cases hx : s.session? h with
  | none => simp [execOnInterrupt, hx] at hn
  | some x =>
    rw [execOnInterrupt_live hx] at hn
    cases he : selectEvent (s.port h).flags with
    | none => rw [he] at hn; cases hn; exact .inl rfl
    | some e =>
      rw [he] at hn
      have hlive : s.session? (dispatchInstr x.status e h).handle = some x := by rw [dispatchInstr_handle]; exact hx
      obtain ⟨y, hy, -, -, -, -, -, hq, -⟩ := exec_handler_next (encode_dispatchInstr _ _ _) hn hlive
      rw [dispatchInstr_handle] at hy hq
      refine hq.imp_right fun ⟨hspin, hi, hcount, hst⟩ => ⟨y, hspin, hy, ?_, hcount⟩
      exact hst.trans (dispatchInstr_inj (st' := .mtx) (e' := .txe) hi).1

/-- A command leaves the hidden core state, but for the hold that OnInterrupt may begin. -/
theorem command_irqPhase {i : Instr} {s t : State} (hcmd : ∀ h w, encode i ≠ .dsp h w) (hn : exec i s = .next t) :
    t.irqPhase = s.irqPhase ∨
    ∃ y, t.irqPhase = .spinTC i.handle ∧ t.session? i.handle = some y ∧ y.status = .mtx ∧ y.mtxCount = y.mtxSize := by
  cases i
  case createSession =>
    rcases createSession_next hn with ⟨_, rfl⟩ | ⟨-, -, -, f, _, rfl, hq, -⟩
    · exact .inl rfl
    · exact .inl hq
  case destroySession h =>
    simp only [exec, execDestroySession] at hn
    split at hn <;> cases hn
    exact .inl rfl
  case masterTransmit => exact .inl (transfer_irqPhase hn)
  case masterReceive => exact .inl (transfer_irqPhase hn)
  case pop => exact .inl (pop_irqPhase hn)
  case onInterrupt => exact onInterrupt_irqPhase hn
  case setSlaveTransmitBuffer =>
    obtain ⟨_, hu, rfl⟩ := returning_next hn
    obtain ⟨_, _, -, hf, rfl⟩ := onSession_next hu
    cases hf
    exact .inl rfl
  all_goals exact absurd rfl (hcmd _ _)

/-- Every command keeps the invariant; DestroySession needs that no host command is in progress on the session it takes
away. -/
theorem exec_keeps_inv {i : Instr} {s t : State} (hi : s.Inv) (hq : s.irqPhase = .notInIrq)
    (hcmd : ∀ h w, encode i ≠ .dsp h w) (hfree : s.host = none ∨ ∃ h, i = .onInterrupt h)
    (hn : exec i s = .next t) : t.Inv := by
  have hirq := command_irqPhase hcmd hn
  rcases exec_next hn with ⟨r, rfl⟩ | ⟨id, cap, cbs, _, _, rfl, -⟩ | ⟨h, l, rfl, -, rfl⟩ | ⟨x, f, r, hx, rfl⟩
  · exact inv_withResult hi r
  · rcases createSession_next hn with ⟨r, rfl⟩ | ⟨hid, hnone, hcap, f, r, rfl, hfq, hf⟩
    · exact inv_withResult hi r
    · refine inv_withResult (inv_put hi hid ?_ (fun x hx => ?_) (holdOk_of_notInIrq (hfq.trans hq))) r
      · rw [hf]; exact freshSession_ok s.params hcap cbs s.draws
      · rw [hnone] at hx; cases hx
  · obtain hh | ⟨_, hon⟩ := hfree
    · exact inv_withResult (inv_closeSession hi hq hh h l) none
    · cases hon
  · have hy : ((s.put i.handle f).withResult r).session? i.handle = some f.session := session?_put_same s i.handle f
    obtain ⟨hid, hok⟩ := session_of_inv hi hx
    obtain ⟨hne, -⟩ | ⟨-, he⟩ := exec_operation_effect hn hx hy
    · exact absurd rfl hne
    obtain ⟨-, hcap, -, -⟩ := operationEffect_constants he
    refine inv_withResult (inv_put hi hid (operationEffect_ok hok he) (fun x' hx' => ?_) ?_) r
    · rw [hx] at hx'; cases hx'; exact hcap
    · rcases hirq with hirq | ⟨y, hspin, hy, hst, hcount⟩
      · exact holdOk_of_notInIrq (hirq.trans hq)
      · exact holdOk_of_spinTC hspin hy hst hcount

/-- A micro-step in no handler keeps the invariant (rule R63). -/
theorem microStep_keeps_inv {s t : State} (hi : s.Inv) (hq : s.irqPhase = .notInIrq) (hn : microStep s = .next t) :
    t.Inv := by
  have put : ∀ {h x f}, s.session? h = some x → f.session.Ok → f.session.ringCap = x.ringCap →
      f.irqPhase = s.irqPhase → (s.put h f).Inv := by
    intro h x f hx hok hcap hf
    refine inv_put hi (session_of_inv hi hx).1 hok (fun x' hx' => ?_) (holdOk_of_notInIrq (hf.trans hq))
    rw [hx] at hx'; cases hx'; exact hcap
  have hhost := hostOk_of_inv hi
  rcases microStep_next hn with ⟨-, rfl⟩ | ⟨_, -, rfl⟩ | ⟨h, m, todo, x, -, hx, rfl⟩ |
    ⟨h, x, -, hx, ⟨-, rfl⟩ | ⟨hne, rfl⟩⟩ | ⟨h, u, x, hh, hx, rfl⟩ | ⟨h, u, b, x, hh, hx, rfl⟩
  · exact hi
  · exact inv_hostReturns hi none
  · obtain ⟨-, -, hf⟩ := apply_frame m (s.focus h x)
    have hok := leaves_ok m (ok_of_inv hi hx)
    obtain ⟨-, hcap, -⟩ := leaves_constants m x
    exact inv_afterMicro (put hx (by simpa using hok) (by simpa using hcap) hf) (by simp) todo
  · exact inv_hostReturns hi _
  · have hu : 1 ≤ x.unreadCount := Nat.one_le_iff_ne_zero.2 hne
    exact inv_withHost hi (by simp [State.hostOk, hx, hu, unreadCount_le (ok_of_inv hi hx)])
  · have hu : 1 ≤ u ∧ u ≤ x.ringCap := by simpa [State.hostOk, hh, hx] using hhost
    refine inv_withHost (put hx ?_ ?_ ?_) ?_
    · simpa [popByte] using ok_of_inv hi hx
    · simp [popByte]
    · simp [popByte]
    · simp [State.hostOk, popByte, hu]
  · have hu : 1 ≤ u ∧ u ≤ x.ringCap := by simpa [State.hostOk, hh, hx] using hhost
    exact inv_hostReturns (put hx (setUnreadCount_ok (ok_of_inv hi hx) (by omega)) rfl rfl) _

/-- The beginning of a host command keeps the invariant: the session is live and something is left to run. -/
theorem beginHost_keeps_inv {i : Instr} {s t : State} (hi : s.Inv) (hn : beginHost i s = some (.next t)) : t.Inv := by
  obtain ⟨x, hx, rfl | ⟨_, rfl, rfl | ⟨todo, hne, rfl⟩⟩⟩ := beginHost_next hn
  · exact inv_withResult hi none
  · exact inv_withHost hi (by simp [State.hostOk, hx])
  · exact inv_withHost hi (by simp [State.hostOk, hx, hne])

/-- The release of a hold returns from the handler (rule R114). -/
theorem releaseHold_irqPhase {h : Handle} {s t : State} (hn : releaseHold h s = .next t) : t.irqPhase = .notInIrq := by
  obtain ⟨_, _, -, hf, rfl⟩ := onSession_next hn
  cases hf
  obtain ⟨-, -, hq⟩ := finishTransmit_frame ((s.focus h _).handlerReturn)
  exact hq

theorem releaseHold_keeps_inv {h : Handle} {s t : State} (hi : s.Inv) (hn : releaseHold h s = .next t) : t.Inv := by
  have hq := releaseHold_irqPhase hn
  obtain ⟨x, f, hx, rfl, hf⟩ := releaseHold_next hn
  obtain ⟨hid, hok⟩ := session_of_inv hi hx
  refine inv_put hi hid ?_ (fun x' hx' => ?_) (holdOk_of_notInIrq hq)
  · rw [hf]; exact hok
  · rw [hx] at hx'; cases hx'; rw [hf]

/-! ### Who may move when -/

/-- While the core is held, its release and the environment are all that can move (rule R114). -/
theorem nextTurn_of_spinTC {s : State} {h : Handle} (hq : s.irqPhase = .spinTC h) :
    nextTurn s = .release h ∨ (∃ h' p rest, nextTurn s = .environment h' p rest) ∨ nextTurn s = .idle := by
  unfold nextTurn
  rw [hq]
  by_cases htc : (s.port h).tc = true
  · exact .inl (if_pos htc)
  · simp only [htc]
    rcases firstEnvironment s.inputs with _ | ⟨h', p, rest⟩
    · exact .inr (.inr rfl)
    · exact .inr (.inl ⟨h', p, rest, rfl⟩)

/-- Whoever else moves, the core is in no handler. -/
theorem notInIrq_of_turn {s : State} {r : Turn} (ht : nextTurn s = r) (hrelease : ∀ h, r ≠ .release h)
    (henv : ∀ h p rest, r ≠ .environment h p rest) (hidle : r ≠ .idle) : s.irqPhase = .notInIrq := by
  cases hq : s.irqPhase with
  | notInIrq => rfl
  | spinTC h =>
    rcases nextTurn_of_spinTC hq with hr | ⟨h', p, rest, hr⟩ | hr
    · exact absurd (ht.symm.trans hr) (hrelease h)
    · exact absurd (ht.symm.trans hr) (henv h' p rest)
    · exact absurd (ht.symm.trans hr) hidle

/-- An application command waits until the host command in progress has returned (rule R63). -/
theorem host_none_of_command {s : State} {w : CmdWord} {rest : List Input}
    (ht : nextTurn s = .begin w rest ∨ ∃ answers, nextTurn s = .invoke .application w answers rest) :
    s.host = none := by
  by_contra hne
  have hsome : s.host.isSome = true := Option.isSome_iff_ne_none.2 hne
  unfold nextTurn at ht
  simp only [hsome, if_true] at ht
  rcases ht with ht | ⟨answers, ht⟩ <;> (repeat' split at ht) <;> cases ht

/-- In interrupt context only OnInterrupt is admitted (rule R172). -/
theorem onInterrupt_of_admitted {i : Instr} (ha : admitted .interrupt i = true) : ∃ h, i = .onInterrupt h := by
  cases i
  case onInterrupt h => exact ⟨h, rfl⟩
  all_goals cases ha

/-- Settles O3, by who moved: a release ends the hold, the environment changes only the presented ports, and everything
else moves in no handler; a session is taken away only while no host command is in progress. -/
theorem stepKeepsInvariant : Obligations.StepKeepsInvariant := by
  intro s t hi hn
  rcases step_next hn with ⟨-, rfl⟩ | ⟨_, -, hr⟩ | ⟨h, p, rest, -, rfl⟩ | ⟨rest, ht, hm⟩ |
    ⟨ctx, w, answers, rest, i, ht, hd, ha, he⟩ | ⟨w, rest, i, ht, hd, hb | ⟨-, he⟩⟩
  · exact hi
  · exact releaseHold_keeps_inv hi hr
  · exact inv_present (inv_withInputs hi rest) h p
  · have hq : s.irqPhase = .notInIrq := notInIrq_of_turn ht nofun nofun nofun
    exact microStep_keeps_inv (inv_withInputs hi rest) hq hm
  · have hp : s.performs i ((s.withInputs rest).presentAll answers) := ⟨w, rest, hd, .inr ⟨ctx, answers, ht, rfl⟩⟩
    have hq : s.irqPhase = .notInIrq := notInIrq_of_turn ht nofun nofun nofun
    refine exec_keeps_inv (inv_presentAll (inv_withInputs hi rest) answers) (by simpa using hq)
      (performs_not_dsp hp) ?_ he
    cases ctx with
    | application => exact .inl (by simpa using host_none_of_command (.inr ⟨answers, ht⟩))
    | interrupt => exact .inr (onInterrupt_of_admitted ha)
  · exact beginHost_keeps_inv (inv_withInputs hi rest) hb
  · have hp : s.performs i (s.withInputs rest) := ⟨w, rest, hd, .inl ⟨ht, rfl⟩⟩
    have hq : s.irqPhase = .notInIrq := notInIrq_of_turn ht nofun nofun nofun
    have hh : s.host = none := host_none_of_command (.inl ht)
    exact exec_keeps_inv (inv_withInputs hi rest) hq (performs_not_dsp hp) (.inl hh) he

/-- Settles O2: after power-on no session, no presented port, no host command and no hold exists. -/
theorem invariantAtReset : Obligations.InvariantAtReset :=
  ⟨rfl, rfl, by simp [State.reset], by simp [State.reset], hostOk_of_none rfl, holdOk_of_notInIrq rfl⟩

end Sys2Proof.Machine

/-! PROOFS. The statements of 20_memory.md: which cells of which space an operation stores to (O55, O56, O32, O58), the
micro-steps of a host command (O59, O46), and the session of the handle as all that an operation touches or reads
(O47, O48, O60). -/

namespace Sys2Proof.Machine

/-! ### Stores -/

theorem cell_of_space {x y : Session} {sp : Space} (hs : y.space sp = x.space sp) (i : Nat) :
    y.cell sp i = x.cell sp i := by
  simp only [Session.cell, hs]

/-- A store to one cell of one space: what every cell reads as after it (rule R50). -/
theorem cell_of_write {x y : Session} {sp : Space} {i : Nat} {b : Byte} (hw : y.space sp = (x.space sp).write i b)
    (ho : ∀ sp', sp' ≠ sp → y.space sp' = x.space sp') :
    y.cell sp i = some b ∧ ∀ sp' j, ¬ (sp' = sp ∧ j = i) → y.cell sp' j = x.cell sp' j := by
  constructor
  · simp [Session.cell, hw]
  · intro sp' j hne
    by_cases hsp : sp' = sp
    · subst hsp
      have hj : j ≠ i := fun hj => hne ⟨rfl, hj⟩
      simp [Session.cell, hw, hj]
    · exact cell_of_space (ho sp' hsp) j

/-- PUSH stores at `writeIndex` of RING and in no other space (rules R51, R90). -/
theorem handlerEffect_rxSrx_stores {p : Params} {pt : Port} {h : Handle} {x y : Session}
    (he : handlerEffect p pt (.rxSrx h) x y) :
    y.space .ring = (x.space .ring).write x.writeIndex pt.data ∧ ∀ sp, sp ≠ .ring → y.space sp = x.space sp := by
  simp only [handlerEffect] at he
  subst he
  exact ⟨rfl, fun sp hsp => by cases sp <;> trivial⟩

/-- RX.MRX stores at `mrxCount` of MRX and in no other space, whether or not the byte is the last (rules R54, R123). -/
theorem handlerEffect_rxMrx_stores {p : Params} {pt : Port} {h : Handle} {x y : Session}
    (he : handlerEffect p pt (.rxMrx h) x y) :
    y.space .mrx = (x.space .mrx).write x.mrxCount pt.data ∧ ∀ sp, sp ≠ .mrx → y.space sp = x.space sp := by
  obtain ⟨-, ⟨-, rfl⟩ | ⟨-, rfl⟩ | ⟨-, -, rfl⟩⟩ := he
  all_goals exact ⟨rfl, fun sp hsp => by cases sp <;> trivial⟩

/-- Settles O56, by what each operation leaves of its session: the two receivers write one cell, the three commands
replace one space, and Pop writes only the count. -/
theorem storesGoOnlyWhereTheyShould : Obligations.StoresGoOnlyWhereTheyShould := by
  intro h s t x y hx hy
  have left : ∀ {i : Instr}, i.handle = h → exec i s = .next t → operationEffect s i x y := by
    intro i hi hn
    obtain ⟨hne, -⟩ | ⟨-, he⟩ := exec_operation_effect hn hx hy
    · exact absurd hi.symm hne
    · exact he
  refine ⟨?rxSrx, ?rxMrx, ?transmit, ?receive, ?buffer, ?pop⟩
  case rxSrx =>
    intro hn
    have he : handlerEffect s.params (s.port h) (.rxSrx h) x y := left rfl hn
    obtain ⟨hring, hother⟩ := handlerEffect_rxSrx_stores he
    exact cell_of_write hring hother
  case rxMrx =>
    intro hn
    have he : handlerEffect s.params (s.port h) (.rxMrx h) x y := left rfl hn
    obtain ⟨hmrx, hother⟩ := handlerEffect_rxMrx_stores he
    exact cell_of_write hmrx hother
  case transmit =>
    intro a bytes hn h0
    obtain ⟨-, hempty⟩ | ⟨-, rfl⟩ := left rfl hn
    · exact absurd hempty h0
    · exact ⟨Memory.read_ofBytes bytes, fun sp i hsp => cell_of_space (by cases sp <;> trivial) i⟩
  case receive =>
    intro a n hn h0
    obtain ⟨-, hzero⟩ | ⟨-, rfl⟩ := left rfl hn
    · exact absurd hzero h0
    · exact ⟨Memory.read_nil, fun sp i hsp => cell_of_space (by cases sp <;> trivial) i⟩
  case buffer =>
    intro bytes hn
    have he : y = { x with stxBuffer := bytes.map Memory.ofBytes } := left rfl hn
    subst he
    refine ⟨fun i => ?_, fun sp i hsp => cell_of_space (by cases sp <;> trivial) i⟩
    cases bytes with
    | none => rfl
    | some l => exact Memory.read_ofBytes l i
  case pop =>
    intro hn sp i
    obtain rfl | ⟨rfl, -⟩ := left rfl hn
    · rfl
    · exact cell_of_space (by cases sp <;> rfl) i

/-- Settles O32: RX.MRX tests `mrxCount < mrxSize` before it stores (rule R54). -/
theorem receiveOutsideBufferStops : Obligations.ReceiveOutsideBufferStops := by
  intro h s x hx hfull
  have he : receiveNext s.params h (s.focus h x) = .refused (.mrxOverrun h) := by
    simp [receiveNext_eq, Nat.not_lt.2 hfull]
  simp [exec, execRxMrx, onSession_live hx, he]

/-! ### Handlers that store nothing -/

theorem sameBuffers_of_fields {x y : Session} (hring : y.ring = x.ring) (hmtx : y.mtxBuffer = x.mtxBuffer)
    (hstx : y.stxBuffer = x.stxBuffer) (hmrx : y.mrxBuffer = x.mrxBuffer) (hcap : y.ringCap = x.ringCap)
    (hindex : y.writeIndex = x.writeIndex) (hunread : y.unreadCount = x.unreadCount) : SameBuffers x y := by
  refine ⟨fun sp => cell_of_space ?_, hcap, hindex, hunread, by rw [hstx]⟩
  cases sp <;> simp only [Session.space, hring, hmtx, hstx, hmrx]

/-- No dispatch but the two receivers stores a byte or moves an index of the ring (rule R50), and each writes only the
counter of its own role. -/
theorem handlerEffect_stores_nothing {p : Params} {pt : Port} {i : Instr} {x y : Session}
    (he : handlerEffect p pt i x y) (hsrx : i ≠ .rxSrx i.handle) (hmrx : i ≠ .rxMrx i.handle) :
    SameBuffers x y ∧ y.mtxSize = x.mtxSize ∧ y.mrxSize = x.mrxSize ∧ y.mrxCount = x.mrxCount ∧
    (i ≠ .txeMtx i.handle → y.mtxCount = x.mtxCount) ∧
    (i ≠ .txeStx i.handle → i ≠ .addrIdle i.handle → y.stxCount = x.stxCount) := by
  cases i <;> simp only [handlerEffect] at he
  case rxSrx => exact absurd rfl hsrx
  case rxMrx => exact absurd rfl hmrx
  case addrIdle =>
    rcases he with rfl | rfl <;>
      exact ⟨sameBuffers_of_fields rfl rfl rfl rfl rfl rfl rfl, rfl, rfl, rfl, fun _ => rfl, fun _ hne => absurd rfl hne⟩
  case txeMtx =>
    obtain ⟨b, rfl | ⟨-, rfl⟩⟩ := he <;>
      exact ⟨sameBuffers_of_fields rfl rfl rfl rfl rfl rfl rfl, rfl, rfl, rfl, fun hne => absurd rfl hne, fun _ _ => rfl⟩
  case txeStx =>
    obtain ⟨b, c, -, rfl⟩ := he
    exact ⟨sameBuffers_of_fields rfl rfl rfl rfl rfl rfl rfl, rfl, rfl, rfl, fun _ => rfl, fun hne _ => absurd rfl hne⟩
  all_goals
    subst he
    exact ⟨sameBuffers_of_fields rfl rfl rfl rfl rfl rfl rfl, rfl, rfl, rfl, fun _ => rfl, fun _ _ => rfl⟩

/-- A dispatch that completed left `handlerEffect` of the session it found, and nothing elsewhere (rule R107). -/
theorem exec_handler_frame {i : Instr} {s t : State} {x y : Session} (hc : ∃ h w, encode i = .dsp h w)
    (hn : exec i s = .next t) (hx : s.session? i.handle = some x) (hy : t.session? i.handle = some y) :
    handlerEffect s.params (s.port i.handle) i x y ∧ SameElsewhere i.handle s t := by
  obtain ⟨y', hy', he, -, -, -, -, -, f, hput⟩ := exec_handler_next hc hn hx
  rw [hy] at hy'
  cases hy'
  refine ⟨he, ?_⟩
  rcases hput with rfl | rfl
  · exact (sameElsewhere_put s i.handle f none).2
  · exact ⟨fun _ _ => ⟨rfl, rfl⟩, rfl, rfl, rfl, rfl⟩

/-- Settles O55: the sixteen operations are dispatches of the handle, and none is a receiver. -/
theorem handlersThatStoreNothing : Obligations.HandlersThatStoreNothing := by
  intro h s t x y i hi hn hx hy
  have hkind : i.handle = h ∧ (∃ h w, encode i = .dsp h w) ∧ i ≠ .rxSrx i.handle ∧ i ≠ .rxMrx i.handle := by
    revert i
    simp [Instr.handle, encode]
  obtain ⟨rfl, hdsp, hsrx, hmrx⟩ := hkind
  obtain ⟨he, helse⟩ := exec_handler_frame hdsp hn hx hy
  obtain ⟨hbuf, hmtxSize, hmrxSize, hmrxCount, hmtx, hstx⟩ := handlerEffect_stores_nothing he hsrx hmrx
  obtain ⟨hcb, -, hbus, hen, haddr⟩ := handlerEffect_constants he
  exact ⟨hbuf, hmtxSize, hmrxSize, haddr, hcb, hbus, hen, hmrxCount, hmtx, hstx, helse⟩

/-! ### TXE.MTX without a cell -/

/-- TXE.MTX where MTX has no cell at `mtxCount`: a free byte is written and counted (rule R9), and then the branches of
rule R113. -/
theorem transmitNext_of_none {p : Params} {h : Handle} {f : Focus}
    (hfit : fitsCounter p (f.session.mtxCount + 1) = true) (hcell : f.session.cell .mtx f.session.mtxCount = none) :
    ∃ g : Focus, g.port = f.port ∧ g.irqPhase = f.irqPhase ∧
      g.session = { f.session with mtxCount := f.session.mtxCount + 1,
                                   trace := f.session.trace ++ [.w (Config.freeByte f.draws)] } ∧
      transmitNext p h f =
        if f.session.mtxCount + 1 = f.session.mtxSize then
          (if f.port.tc then .next g.finishTransmit else .next (g.holdForTC h))
        else .next g := by
  refine ⟨{ f.drawByte.2 with
      session := { f.session with mtxCount := f.session.mtxCount + 1,
                                  trace := f.session.trace ++ [.w (Config.freeByte f.draws)] } }, rfl, rfl, rfl, ?_⟩
  rw [transmitNext_eq, memRead_of_none hcell]
  exact if_pos hfit

/-- Settles O58, in the three cases of rule R113: before the last byte, the last with TC presented, the last without. -/
theorem transmitWithoutCell : Obligations.TransmitWithoutCell := by
  intro h s x hx hfit hcell
  obtain ⟨g, hport, hirq, hsession, hact⟩ :=
    transmitNext_of_none (p := s.params) (h := h) (f := s.focus h x) hfit hcell
  have put : ∀ {f : Focus}, transmitNext s.params h (s.focus h x) = .next f →
      exec (.txeMtx h) s = .next (s.put h f) := fun hf => onSession_of_next hx hf
  by_cases hlast : (s.focus h x).session.mtxCount + 1 = (s.focus h x).session.mtxSize
  · rw [if_pos hlast] at hact
    by_cases htc : (s.focus h x).port.tc = true
    · rw [if_pos htc] at hact
      obtain ⟨hport', -, hirq'⟩ := finishTransmit_frame g
      refine ⟨_, _, Config.freeByte s.draws, put hact, session?_put_same _ _ _, ?_, rfl,
        (sameElsewhere_put s h _ none).2, fun hne => absurd hlast hne, fun _ hoff => absurd (htc.symm.trans hoff) nofun,
        fun _ _ => ⟨hirq'.trans hirq, ?_⟩⟩
      · rw [port_put_same, hport', hport, focus_port]
      · rw [finishTransmit_session, hsession, focus_session, focus_draws]
    · rw [if_neg htc] at hact
      refine ⟨_, _, Config.freeByte s.draws, put hact, session?_put_same _ _ _, ?_, rfl,
        (sameElsewhere_put s h _ none).2, fun hne => absurd hlast hne, fun _ _ => ⟨rfl, hsession⟩,
        fun _ hon => absurd hon htc⟩
      rw [port_put_same, holdForTC_port, hport, focus_port]
  · rw [if_neg hlast] at hact
    refine ⟨_, _, Config.freeByte s.draws, put hact, session?_put_same _ _ _, ?_, rfl,
      (sameElsewhere_put s h _ none).2, fun _ => ⟨hirq, hsession⟩, fun he => absurd he hlast, fun he => absurd he hlast⟩
    rw [port_put_same, hport, focus_port]

/-! ### One micro-step -/

@[simp] theorem afterMicro_host (s : State) (h : Handle) (todo : List Micro) :
    (s.afterMicro h todo).host = if todo = [] then none else some (.micros h todo) := by
  unfold State.afterMicro; split <;> rfl

@[simp] theorem afterMicro_result (s : State) (h : Handle) (todo : List Micro) :
    (s.afterMicro h todo).result = if todo = [] then none else s.result := by
  unfold State.afterMicro; split <;> rfl

@[simp] theorem port_afterMicro (s : State) (h h' : Handle) (todo : List Micro) :
    (s.afterMicro h todo).port h' = s.port h' := by
  unfold State.afterMicro; split <;> rfl

@[simp] theorem afterMicro_irqPhase (s : State) (h : Handle) (todo : List Micro) :
    (s.afterMicro h todo).irqPhase = s.irqPhase := by
  unfold State.afterMicro; split <;> rfl

@[simp] theorem afterMicro_draws (s : State) (h : Handle) (todo : List Micro) :
    (s.afterMicro h todo).draws = s.draws := by
  unfold State.afterMicro; split <;> rfl

@[simp] theorem afterMicro_inputs (s : State) (h : Handle) (todo : List Micro) :
    (s.afterMicro h todo).inputs = s.inputs := by
  unfold State.afterMicro; split <;> rfl

/-- A command in progress on a live session runs the first micro-step that is left. -/
theorem microStep_micros {s : State} {h : Handle} {m : Micro} {todo : List Micro} {x : Session}
    (hh : s.host = some (.micros h (m :: todo))) (hx : s.session? h = some x) :
    microStep s = .next ((s.put h (m.apply (s.focus h x))).afterMicro h todo) := by
  have hact : onSession h s (fun f => .next (m.apply f)) = .next (s.put h (m.apply (s.focus h x))) :=
    onSession_of_next hx rfl
  simp [microStep, hh, hact]

/-- A micro input of the script, in no handler, is the next micro-step (rule R63). -/
theorem step_micro {s : State} {rest : List Input} (hq : s.irqPhase = .notInIrq) (hi : s.inputs = .micro :: rest) :
    step s = microStep (s.withInputs rest) := by
  have ht : nextTurn s = .micro rest := by simp [nextTurn, hq, hi]
  simp [step, ht]

/-- Putting back what was found at the port changes no port. -/
theorem port_put_of_eq {s : State} {h : Handle} {f : Focus} (hp : f.port = s.port h) (h' : Handle) :
    (s.put h f).port h' = s.port h' := by
  by_cases hh : h' = h
  · subst hh; rw [port_put_same, hp]
  · exact port_put_ne s f hh

/-- Settles O59: the micro-step puts `m.leaves x` in the session's place, and `apply_frame` is all that it leaves of the
port, the draws and irqPhase. -/
theorem eachMicroStepLeavesItsPart : Obligations.EachMicroStepLeavesItsPart := by
  intro h m todo s x hx hh
  obtain ⟨hport, hdraws, hirq⟩ := apply_frame m (s.focus h x)
  refine ⟨fun rest => step_micro, _, microStep_micros hh hx, by simp, by simp, ?_, fun h' hne => ?_, fun h' => ?_,
    by simpa using hirq, by simpa using hdraws, by simp, by simp, by simp⟩
  · have hsession : (m.apply (s.focus h x)).session = m.leaves x := apply_session m _
    rw [session?_afterMicro, session?_put_same, hsession]
    cases m <;> rfl
  · rw [session?_afterMicro, session?_put_ne _ _ hne]
  · rw [port_afterMicro]
    exact port_put_of_eq hport h'

/-! ### The micro-steps of a command, run one after another -/

/-- Storing twice at a key is storing the second value. -/
theorem tableInsert_insert {β : Type} (k : Nat) (v w : β) (t : List (Nat × β)) :
    tableInsert k v (tableInsert k w t) = tableInsert k v t := by
  induction t with
  | nil => simp [tableInsert]
  | cons e t ih =>
    obtain ⟨j, u⟩ := e
    by_cases hlt : k < j
    · simp [tableInsert, hlt]
    · by_cases heq : k = j
      · simp [tableInsert, heq]
      · simp [tableInsert, hlt, heq, ih]

theorem tableErase_erase {β : Type} (k : Nat) (t : List (Nat × β)) : tableErase k (tableErase k t) = tableErase k t := by
  induction t with
  | nil => rfl
  | cons e t ih =>
    obtain ⟨j, u⟩ := e
    by_cases heq : j = k
    · simp [tableErase, heq, ih]
    · simp [tableErase, heq, ih]

/-- Presenting the same port again changes nothing. -/
theorem portStore_portStore (h : Handle) (p : Port) (t : List (Handle × Port)) :
    portStore h p (portStore h p t) = portStore h p t := by
  by_cases hp : p = Port.quiet
  · simp only [portStore, hp, if_true, tableErase_erase]
  · simp only [portStore, hp, if_false, tableInsert_insert]

/-- What a second handler leaves where a first one left the same port. -/
theorem put_put {s : State} {h : Handle} {f g : Focus} (hp : g.port = f.port) : (s.put h f).put h g = s.put h g := by
  simp only [State.put, tableInsert_insert, hp, portStore_portStore]

/-- A handler sees what the one before it left. -/
@[simp] theorem focus_put (s : State) (h : Handle) (f : Focus) : (s.put h f).focus h f.session = f := by
  simp [State.focus]

theorem runHost_of_none {s : State} (hh : s.host = none) (n : Nat) : runHost n s = .next s := by
  cases n with
  | zero => rfl
  | succ n => simp [runHost, hh]

theorem runHost_of_step {s t : State} {run : HostRun} {n : Nat} (hh : s.host = some run)
    (hm : microStep s = .next t) : runHost (n + 1) s = runHost n t := by
  simp [runHost, hh, hm]

/-! The command in progress is a field of its own. -/

@[simp] theorem withHost_withHost (s : State) (run run' : Option HostRun) :
    (s.withHost run).withHost run' = s.withHost run' := rfl

@[simp] theorem hostReturns_withHost (s : State) (run : Option HostRun) (r : Option HostResult) :
    (s.withHost run).hostReturns r = s.hostReturns r := rfl

@[simp] theorem put_withHost (s : State) (run : Option HostRun) (h : Handle) (f : Focus) :
    (s.withHost run).put h f = (s.put h f).withHost run := rfl

@[simp] theorem focus_withHost (s : State) (run : Option HostRun) (h : Handle) (x : Session) :
    (s.withHost run).focus h x = s.focus h x := rfl

/-- Where no command is in progress, the end of one only hands its result over. -/
theorem hostReturns_of_none {s : State} (hh : s.host = none) (r : Option HostResult) :
    s.hostReturns r = s.withResult r := by
  simp only [State.hostReturns, State.withHost, State.withResult, ← hh]

/-- A command in progress, run to its end, leaves what its micro-steps leave in one step (rule R63). -/
theorem runHost_micros {h : Handle} {m : Micro} {todo : List Micro} {n : Nat} {s : State} {x : Session}
    (hn : todo.length < n) (hh : s.host = some (.micros h (m :: todo))) (hx : s.session? h = some x) :
    runHost n s = .next ((s.put h (runMicros (m :: todo) (s.focus h x))).hostReturns none) := by
  induction todo generalizing m n s x with
  | nil =>
    obtain ⟨n, rfl⟩ := Nat.exists_eq_succ_of_ne_zero (Nat.ne_zero_of_lt hn)
    rw [runHost_of_step hh (microStep_micros hh hx)]
    exact runHost_of_none rfl n
  | cons m' rest ih =>
    obtain ⟨n, rfl⟩ := Nat.exists_eq_succ_of_ne_zero (Nat.ne_zero_of_lt hn)
    rw [runHost_of_step hh (microStep_micros hh hx)]
    generalize hf : m.apply (s.focus h x) = f
    obtain ⟨hport, -, -⟩ := runMicros_frame (m' :: rest) f
    have hafter : (s.put h f).afterMicro h (m' :: rest) = (s.put h f).withHost (some (.micros h (m' :: rest))) := rfl
    have hlive : ((s.put h f).withHost (some (.micros h (m' :: rest)))).session? h = some f.session := by simp
    have hrun : runMicros (m :: m' :: rest) (s.focus h x) = runMicros (m' :: rest) f := by rw [← hf]; rfl
    rw [hafter, ih (Nat.lt_of_succ_lt_succ hn) rfl hlive, focus_withHost, focus_put, put_withHost,
      hostReturns_withHost, put_put hport, hrun]

/-- A transfer command that completes in one step begins, and its micro-steps leave the same. -/
theorem beginTransfer_runs {h : Handle} {a n : Nat} {m : Micro} {todo : List Micro} {s t : State}
    (hlen : todo.length < 8) (hh : s.host = none) (hn : transfer h a n (m :: todo) s = .next t) :
    ∃ s0, beginTransfer h a n (m :: todo) s = .next s0 ∧ runHost 8 s0 = .next t := by
  obtain ⟨x, hx, hg, ⟨h0, rfl⟩ | ⟨h0, rfl⟩⟩ := transfer_next hn
  · have hb : beginTransfer h a n (m :: todo) s = .next (s.withResult none) := by
      simp only [beginTransfer, hx, hg, if_pos h0]
    exact ⟨_, hb, runHost_of_none (by simpa using hh) 8⟩
  · refine ⟨s.withHost (some (.micros h (m :: todo))), by simp [beginTransfer, hx, hg, h0], ?_⟩
    rw [runHost_micros hlen (withHost_host s _) hx, focus_withHost, put_withHost, hostReturns_withHost,
      hostReturns_of_none (by simpa using hh)]

theorem slaveBuffer_runs {h : Handle} {bytes : Option (List Byte)} {s t : State} (hh : s.host = none)
    (hn : exec (.setSlaveTransmitBuffer h bytes) s = .next t) :
    ∃ s0, beginRun h (.micros h (slaveBufferMicros bytes)) s = .next s0 ∧ runHost 8 s0 = .next t := by
  obtain ⟨u, hu, rfl⟩ := returning_next hn
  obtain ⟨x, f, hx, hf, rfl⟩ := onSession_next hu
  cases hf
  refine ⟨s.withHost (some (.micros h (slaveBufferMicros bytes))), by simp [beginRun, hx], ?_⟩
  rw [slaveBufferMicros, runHost_micros (by simp) (withHost_host s _) hx, focus_withHost, put_withHost,
    hostReturns_withHost, hostReturns_of_none (by simpa using hh)]

/-- What Pop did that completed (rule R91). -/
theorem pop_next {h : Handle} {s t : State} (hn : exec (.pop h) s = .next t) :
    ∃ x, s.session? h = some x ∧
      ((x.unreadCount = 0 ∧ t = s.withResult (some (.popped false 0x00#8))) ∨
       (x.unreadCount ≠ 0 ∧ ∃ b f, popByte x.unreadCount (s.focus h x) = (b, f) ∧
         t = (s.put h (popCountBack x.unreadCount f)).withResult (some (.popped true b)))) := by
  simp only [exec, execPop] at hn
  split at hn
  · cases hn
  · rename_i x hx
    refine ⟨x, hx, ?_⟩
    split at hn <;> cases hn
    · exact .inl ⟨by assumption, rfl⟩
    · exact .inr ⟨by assumption, _, _, rfl, rfl⟩

/-- P1 to P3 with nothing in between are Pop (rule R91). -/
theorem pop_runs {h : Handle} {s t : State} (hh : s.host = none) (hn : exec (.pop h) s = .next t) :
    ∃ s0, beginRun h (.popCount h) s = .next s0 ∧ runHost 8 s0 = .next t := by
  obtain ⟨x, hx, hpop⟩ := pop_next hn
  refine ⟨s.withHost (some (.popCount h)), by simp [beginRun, hx], ?_⟩
  obtain ⟨h0, rfl⟩ | ⟨h0, b, f, hread, rfl⟩ := hpop
  · have hp1 : microStep (s.withHost (some (.popCount h))) = .next (s.hostReturns (some (.popped false 0x00#8))) := by
      simp [microStep, hx, h0]
    rw [runHost_of_step rfl hp1, runHost_of_none rfl, hostReturns_of_none (by simpa using hh)]
  · have hp1 : microStep (s.withHost (some (.popCount h))) = .next (s.withHost (some (.popRead h x.unreadCount))) := by
      simp [microStep, hx, h0]
    have hp2 : microStep (s.withHost (some (.popRead h x.unreadCount))) =
        .next ((s.put h f).withHost (some (.popFinish h x.unreadCount b))) := by
      simp [microStep, hx, hread]
    have hp3 : microStep ((s.put h f).withHost (some (.popFinish h x.unreadCount b))) =
        .next (((s.put h f).put h (popCountBack x.unreadCount f)).hostReturns (some (.popped true b))) := by
      simp [microStep]
    have hport : (popCountBack x.unreadCount f).port = f.port := rfl
    rw [runHost_of_step rfl hp1, runHost_of_step rfl hp2, runHost_of_step rfl hp3, runHost_of_none rfl, put_put hport,
      hostReturns_of_none (by simpa using hh)]

/-- Settles O46, command by command: the four that have micro-steps, and no other, begin (rule R63). -/
theorem uninterruptedMicroStepsAreTheCommand : Obligations.UninterruptedMicroStepsAreTheCommand := by
  intro i s t hh hbegin hn
  cases i
  case masterTransmit h a bytes =>
    obtain ⟨s0, hb, hr⟩ := beginTransfer_runs (by simp) hh hn
    exact ⟨s0, congrArg some hb, hr⟩
  case masterReceive h a n =>
    obtain ⟨s0, hb, hr⟩ := beginTransfer_runs (by simp) hh hn
    exact ⟨s0, congrArg some hb, hr⟩
  case setSlaveTransmitBuffer h bytes =>
    obtain ⟨s0, hb, hr⟩ := slaveBuffer_runs hh hn
    exact ⟨s0, congrArg some hb, hr⟩
  case pop h =>
    obtain ⟨s0, hb, hr⟩ := pop_runs hh hn
    exact ⟨s0, congrArg some hb, hr⟩
  all_goals exact absurd rfl hbegin

/-! ### The session of the handle is all that an operation touches -/

/-- What `exec_next` says an operation can have done stays at its handle. -/
theorem exec_frame {i : Instr} {s t : State} (hn : exec i s = .next t) :
    (∀ h, h ≠ i.handle → t.session? h = s.session? h ∧ t.port h = s.port h) ∧
    t.params = s.params ∧ t.host = s.host ∧ t.inputs = s.inputs ∧
    ((∀ h, i ≠ .destroySession h) → t.closedTraces = s.closedTraces) := by
  rcases exec_next hn with ⟨r, rfl⟩ | ⟨id, cap, cbs, f, r, rfl, -, -, -, rfl⟩ | ⟨h, l, rfl, -, rfl⟩ | ⟨x, f, r, -, rfl⟩
  · exact ⟨fun _ _ => ⟨rfl, rfl⟩, rfl, rfl, rfl, fun _ => rfl⟩
  · exact ⟨fun h hne => ⟨session?_put_ne s f hne, port_put_ne s f hne⟩, rfl, rfl, rfl, fun _ => rfl⟩
  · exact ⟨fun h' hne => ⟨session?_closeSession_ne s l hne, rfl⟩, rfl, rfl, rfl, fun hno => absurd rfl (hno h)⟩
  · exact ⟨fun h hne => ⟨session?_put_ne s f hne, port_put_ne s f hne⟩, rfl, rfl, rfl, fun _ => rfl⟩

/-- Settles O47, by `exec_frame`. -/
theorem operationsTouchOnlyTheirSession : Obligations.OperationsTouchOnlyTheirSession :=
  fun _ _ _ hn => exec_frame hn

/-! ### The session of the handle is all that an operation reads -/

/-- All that an operation on `h` may read is the same in two states: the parameters but `P_CROSS_NEST`, the session and
the port of the handle, the hidden core state, the draw counter and the last result. -/
structure SameView (h : Handle) (s s' : State) : Prop where
  params   : ∃ b, s'.params = { s.params with crossNest := b }
  session  : s'.session? h = s.session? h
  port     : s'.port h = s.port h
  irqPhase : s'.irqPhase = s.irqPhase
  draws    : s'.draws = s.draws
  result   : s'.result = s.result

/-- Two outcomes, from `s` and from `s'`, that are one and the same move on the handle `h`. -/
inductive SameMove (h : Handle) (s s' : State) :
    Host.Outcome State Fault Refusal → Host.Outcome State Fault Refusal → Prop
  | answer (r : Option HostResult) : SameMove h s s' (.next (s.withResult r)) (.next (s'.withResult r))
  | put (f : Focus) (r : Option HostResult) :
    SameMove h s s' (.next ((s.put h f).withResult r)) (.next ((s'.put h f).withResult r))
  | close (l : List TraceItem) (r : Option HostResult) :
    SameMove h s s' (.next ((s.closeSession h l).withResult r)) (.next ((s'.closeSession h l).withResult r))
  | fault (r : Fault) : SameMove h s s' (.fault r) (.fault r)
  | refused (r : Refusal) : SameMove h s s' (.refused r) (.refused r)

theorem returning_sameMove {h : Handle} {s s' : State} {o o' : Host.Outcome State Fault Refusal} (r : Option HostResult)
    (ho : SameMove h s s' o o') : SameMove h s s' (returning r o) (returning r o') := by
  cases ho with
  | answer r' => exact .answer r
  | put f r' => exact .put f r
  | close l r' => exact .close l r
  | fault r' => exact .fault r'
  | refused r' => exact .refused r'

section View

variable {h : Handle} {s s' : State} (hv : SameView h s s')
include hv

/-- The handler of a session sees the same. -/
theorem SameView.focus_eq (x : Session) : s'.focus h x = s.focus h x := by
  simp only [State.focus, hv.port, hv.draws, hv.irqPhase]

/-- The parameters that guard a transfer are the same. -/
theorem SameView.transferGuard_eq (a n : Nat) : transferGuard s'.params a n = transferGuard s.params a n := by
  obtain ⟨b, hp⟩ := hv.params
  rw [hp]
  rfl

/-- A handler that keeps the result, in both states. -/
theorem SameMove.handler (f : Focus) : SameMove h s s' (.next (s.put h f)) (.next (s'.put h f)) := by
  have hmove : SameMove h s s' (.next ((s.put h f).withResult s.result)) (.next ((s'.put h f).withResult s'.result)) := by
    rw [hv.result]
    exact .put f s.result
  exact hmove

/-- Nothing done, in both states. -/
theorem SameMove.unchanged : SameMove h s s' (.next s) (.next s') := by
  have hmove : SameMove h s s' (.next (s.withResult s.result)) (.next (s'.withResult s'.result)) := by
    rw [hv.result]
    exact .answer s.result
  exact hmove

theorem onSession_sameMove {act act' : Focus → Effect} (hact : ∀ f, act' f = act f) :
    SameMove h s s' (onSession h s act) (onSession h s' act') := by
  cases hx : s.session? h with
  | none =>
    rw [onSession_dead hx, onSession_dead (hv.session.trans hx)]
    exact .refused _
  | some x =>
    rw [onSession_live hx, onSession_live (hv.session.trans hx), hv.focus_eq, hact]
    cases act (s.focus h x) with
    | next f => exact .handler hv f
    | fault r => exact .fault r
    | refused r => exact .refused r

theorem transfer_sameMove (a n : Nat) (todo : List Micro) :
    SameMove h s s' (transfer h a n todo s) (transfer h a n todo s') := by
  unfold transfer
  rw [hv.session, hv.transferGuard_eq]
  cases s.session? h with
  | none => exact .refused _
  | some x =>
    cases transferGuard s.params a n with
    | some r => exact .refused r
    | none =>
      by_cases h0 : n = 0
      · simp only [if_pos h0]
        exact .answer none
      · simp only [if_neg h0, hv.focus_eq]
        exact .put _ none

theorem pop_sameMove : SameMove h s s' (execPop h s) (execPop h s') := by
  unfold execPop
  rw [hv.session]
  cases s.session? h with
  | none => exact .refused _
  | some x =>
    by_cases h0 : x.unreadCount = 0
    · simp only [if_pos h0]
      exact .answer _
    · simp only [if_neg h0, hv.focus_eq]
      exact .put _ _

theorem destroySession_sameMove : SameMove h s s' (execDestroySession h s) (execDestroySession h s') := by
  unfold execDestroySession
  rw [hv.session]
  cases s.session? h with
  | none => exact .refused _
  | some x =>
    simp only [hv.focus_eq]
    exact .close _ none

theorem createSession_sameMove (cap : Nat) (cbs : Callbacks) :
    SameMove h s s' (execCreateSession h cap cbs s) (execCreateSession h cap cbs s') := by
  obtain ⟨b, hp⟩ := hv.params
  have hfit : fitsCounter s'.params cap = fitsCounter s.params cap := by rw [hp]; rfl
  have hfresh : freshSession s'.params cap cbs s'.draws = freshSession s.params cap cbs s.draws := by
    rw [hp, hv.draws]; rfl
  have hids : s'.params.periphIds = s.params.periphIds := by rw [hp]
  unfold execCreateSession
  rw [hids, hv.session, hfit, hfresh, hv.port, hv.draws, hv.irqPhase]
  by_cases hid : h ∈ s.params.periphIds
  · simp only [if_pos hid]
    cases s.session? h with
    | some x => exact .refused _
    | none =>
      by_cases h0 : cap = 0
      · simp only [if_pos h0]
        exact .refused _
      · simp only [if_neg h0]
        by_cases hc : fitsCounter s.params cap = true
        · simp only [if_pos hc]
          exact .put _ _
        · simp only [if_neg hc]
          exact .refused _
  · simp only [if_neg hid]
    exact .answer _

theorem irqNone_sameMove : SameMove h s s' (execIrqNone h s) (execIrqNone h s') := by
  unfold execIrqNone
  rw [hv.session]
  cases s.session? h with
  | none => exact .refused _
  | some x => exact .unchanged hv

end View

/-- A dispatch is one move on the session it finds, whatever the rest of the state. -/
theorem dispatch_sameMove {i : Instr} {s s' : State} (hc : ∃ h w, encode i = .dsp h w)
    (hv : SameView i.handle s s') : SameMove i.handle s s' (exec i s) (exec i s') := by
  obtain ⟨b, hp⟩ := hv.params
  obtain ⟨h0, w0, hc⟩ := hc
  cases i
  case createSession | destroySession | masterTransmit | masterReceive | pop | onInterrupt | setSlaveTransmitBuffer =>
    cases hc
  case irqNone => exact irqNone_sameMove hv
  case txeMtx | rxMrx | txeStx | nackMtxStartSent | nackMtxAddrAcked | nackMtx | nackMrxStartSent | nackMrxAddrAcked |
      nackMrx =>
    simp only [exec]
    exact onSession_sameMove hv fun f => by rw [hp]; rfl
  case addrIdle | sbMtxStartSent | addrMtxAddrAcked | rxSrx | stopSrx | sbMrxStartSent | addrMrxAddrAcked | nackStx =>
    simp only [exec]
    exact onSession_sameMove hv fun f => rfl
  all_goals exact .refused _

theorem onInterrupt_sameMove {h : Handle} {s s' : State} (hv : SameView h s s') :
    SameMove h s s' (execOnInterrupt h s) (execOnInterrupt h s') := by
  cases hx : s.session? h with
  | none =>
    simp only [execOnInterrupt, hv.session, hx]
    exact .refused _
  | some x =>
    rw [execOnInterrupt_live hx, execOnInterrupt_live (hv.session.trans hx), hv.port]
    cases selectEvent (s.port h).flags with
    | none => exact .unchanged hv
    | some e =>
      have hmove := dispatch_sameMove (i := dispatchInstr x.status e h) (encode_dispatchInstr x.status e h)
        (by rw [dispatchInstr_handle]; exact hv)
      rwa [dispatchInstr_handle] at hmove

/-- An operation is one and the same move from any two states that look the same to it. -/
theorem exec_sameMove {i : Instr} {s s' : State} (hv : SameView i.handle s s') :
    SameMove i.handle s s' (exec i s) (exec i s') := by
  cases i
  case createSession => exact createSession_sameMove hv _ _
  case destroySession => exact destroySession_sameMove hv
  case masterTransmit => exact transfer_sameMove hv _ _ _
  case masterReceive => exact transfer_sameMove hv _ _ _
  case pop => exact pop_sameMove hv
  case onInterrupt => exact onInterrupt_sameMove hv
  case setSlaveTransmitBuffer => exact returning_sameMove none (onSession_sameMove hv fun f => rfl)
  all_goals exact dispatch_sameMove ⟨_, _, rfl⟩ hv

theorem step_of_idle {s : State} (ht : nextTurn s = .idle) : step s = .next s := by
  simp [step, ht]

theorem step_of_environment {s : State} {h : Handle} {p : Port} {rest : List Input}
    (ht : nextTurn s = .environment h p rest) : step s = .next ((s.withInputs rest).present h p) := by
  simp [step, ht]

/-- While the core is held and TC is not presented, only the environment can move (rule R114). -/
theorem nextTurn_of_waiting {s : State} {h : Handle} (hq : s.irqPhase = .spinTC h) (htc : (s.port h).tc = false) :
    (∃ h' p rest, nextTurn s = .environment h' p rest) ∨ nextTurn s = .idle := by
  simp only [nextTurn, hq, htc]
  rcases firstEnvironment s.inputs with _ | ⟨h', p, rest⟩
  · exact .inr rfl
  · exact .inl ⟨h', p, rest, rfl⟩

/-- Settles O48: the two outcomes are one move (`exec_sameMove`), which leaves every other session (`exec_frame`); and
while a handler is held no operation of any session proceeds. -/
theorem operationsReadOnlyTheirSession : Obligations.OperationsReadOnlyTheirSession := by
  refine ⟨fun i s s' hparams hsession hport hdraws hirq hresult => ?_, fun i s t hn h hne => ?_,
    fun h s t hq htc hn => ?_⟩
  · have hv : SameView i.handle s s' :=
      ⟨⟨s.params.crossNest, hparams.symm⟩, hsession.symm, hport.symm, hirq.symm, hdraws.symm, hresult.symm⟩
    have hmove := exec_sameMove hv
    revert hmove
    generalize exec i s = o, exec i s' = o'
    intro hmove
    cases hmove with
    | answer r => exact ⟨hsession, hport, hdraws, hirq, rfl⟩
    | put f r => simp
    | close l r => simp [hport, hdraws, hirq]
    | fault r => rfl
    | refused r => rfl
  · obtain ⟨hother, -⟩ := exec_frame hn
    exact (hother h hne).1
  · rcases nextTurn_of_waiting hq htc with ⟨h', p, rest, ht⟩ | ht
    · rw [step_of_environment ht] at hn
      cases hn
      exact ⟨rfl, rfl⟩
    · rw [step_of_idle ht] at hn
      cases hn
      exact ⟨rfl, rfl⟩

/-! ### `P_CROSS_NEST` -/

/-- An outcome under the other choice of `P_CROSS_NEST`. -/
def outcomeWithCrossNest (b : Bool) :
    Host.Outcome State Fault Refusal → Host.Outcome State Fault Refusal
  | .next t => .next (t.withCrossNest b)
  | .fault r => .fault r
  | .refused r => .refused r

/-- `P_CROSS_NEST` is no part of what an operation may read. -/
theorem sameView_withCrossNest (h : Handle) (s : State) (b : Bool) : SameView h s (s.withCrossNest b) :=
  ⟨⟨b, rfl⟩, rfl, rfl, rfl, rfl, rfl⟩

/-- One and the same move keeps the choice of `P_CROSS_NEST`. -/
theorem sameMove_withCrossNest {h : Handle} {s : State} {b : Bool} {o o' : Host.Outcome State Fault Refusal}
    (hm : SameMove h s (s.withCrossNest b) o o') : o' = outcomeWithCrossNest b o := by
  cases hm <;> rfl

theorem exec_withCrossNest (i : Instr) (s : State) (b : Bool) :
    exec i (s.withCrossNest b) = outcomeWithCrossNest b (exec i s) :=
  sameMove_withCrossNest (exec_sameMove (sameView_withCrossNest i.handle s b))

theorem onSession_withCrossNest (h : Handle) (s : State) (b : Bool) (act : Focus → Effect) :
    onSession h (s.withCrossNest b) act = outcomeWithCrossNest b (onSession h s act) :=
  sameMove_withCrossNest (onSession_sameMove (sameView_withCrossNest h s b) fun _ => rfl)

theorem afterMicro_withCrossNest (s : State) (b : Bool) (h : Handle) (todo : List Micro) :
    (s.withCrossNest b).afterMicro h todo = (s.afterMicro h todo).withCrossNest b := by
  unfold State.afterMicro
  split <;> rfl

theorem microStep_withCrossNest (s : State) (b : Bool) :
    microStep (s.withCrossNest b) = outcomeWithCrossNest b (microStep s) := by
  unfold microStep
  rw [withCrossNest_host]
  rcases s.host with _ | (⟨h, _ | ⟨m, rest⟩⟩ | h | ⟨h, u⟩ | ⟨h, u, c⟩)
  case none => rfl
  case some.micros.nil => rfl
  case some.micros.cons =>
    simp only [onSession_withCrossNest]
    cases onSession h s fun f => .next (m.apply f) with
    | next t => exact congrArg Host.Outcome.next (afterMicro_withCrossNest t b h rest)
    | fault r => rfl
    | refused r => rfl
  case some.popCount =>
    simp only [session?_withCrossNest]
    cases s.session? h with
    | none => rfl
    | some x => by_cases h0 : x.unreadCount = 0 <;> simp only [h0, if_true, if_false] <;> rfl
  case some.popRead =>
    simp only [session?_withCrossNest]
    cases s.session? h <;> rfl
  case some.popFinish =>
    simp only [session?_withCrossNest]
    cases s.session? h <;> rfl

theorem beginTransfer_withCrossNest (h : Handle) (a n : Nat) (todo : List Micro) (s : State) (b : Bool) :
    beginTransfer h a n todo (s.withCrossNest b) = outcomeWithCrossNest b (beginTransfer h a n todo s) := by
  unfold beginTransfer
  rw [session?_withCrossNest, (sameView_withCrossNest h s b).transferGuard_eq]
  cases s.session? h with
  | none => rfl
  | some x =>
    cases transferGuard s.params a n with
    | some r => rfl
    | none => by_cases h0 : n = 0 <;> simp only [h0, if_true, if_false] <;> rfl

theorem beginRun_withCrossNest (h : Handle) (run : HostRun) (s : State) (b : Bool) :
    beginRun h run (s.withCrossNest b) = outcomeWithCrossNest b (beginRun h run s) := by
  unfold beginRun
  rw [session?_withCrossNest]
  cases s.session? h <;> rfl

theorem beginHost_withCrossNest (i : Instr) (s : State) (b : Bool) :
    beginHost i (s.withCrossNest b) = (beginHost i s).map (outcomeWithCrossNest b) := by
  cases i
  case masterTransmit => exact congrArg some (beginTransfer_withCrossNest _ _ _ _ s b)
  case masterReceive => exact congrArg some (beginTransfer_withCrossNest _ _ _ _ s b)
  case setSlaveTransmitBuffer => exact congrArg some (beginRun_withCrossNest _ _ s b)
  case pop => exact congrArg some (beginRun_withCrossNest _ _ s b)
  all_goals rfl

theorem invokeWord_withCrossNest (ctx : Context) (w : CmdWord) (s : State) (b : Bool) :
    invokeWord ctx w (s.withCrossNest b) = outcomeWithCrossNest b (invokeWord ctx w s) := by
  unfold invokeWord
  cases decodeCommand w with
  | error e => rfl
  | ok i =>
    by_cases ha : admitted ctx i = true
    · simp only [ha, if_true]
      exact exec_withCrossNest i s b
    · simp only [if_neg ha]
      rfl

theorem beginWord_withCrossNest (w : CmdWord) (s : State) (b : Bool) :
    beginWord w (s.withCrossNest b) = outcomeWithCrossNest b (beginWord w s) := by
  unfold beginWord
  cases decodeCommand w with
  | error e => rfl
  | ok i =>
    simp only [beginHost_withCrossNest]
    cases beginHost i s with
    | none => exact exec_withCrossNest i s b
    | some o => rfl

theorem presentAll_withCrossNest (s : State) (b : Bool) (l : List (Handle × Port)) :
    (s.withCrossNest b).presentAll l = (s.presentAll l).withCrossNest b := by
  induction l generalizing s with
  | nil => rfl
  | cons e l ih => exact ih (s.present e.1 e.2)

/-- Settles O60: `nextTurn` is the same, and so is what each mover does. -/
theorem noRuleDependsOnCrossNesting : Obligations.NoRuleDependsOnCrossNesting := by
  intro s b
  have hstep : step (s.withCrossNest b) = outcomeWithCrossNest b (step s) := by
    unfold step
    rw [nextTurn_withCrossNest]
    cases nextTurn s with
    | idle => rfl
    | release h => exact onSession_withCrossNest h s b _
    | environment h p rest => rfl
    | micro rest => exact microStep_withCrossNest (s.withInputs rest) b
    | invoke ctx w answers rest =>
      have hanswers := presentAll_withCrossNest (s.withInputs rest) b answers
      exact (congrArg (invokeWord ctx w) hanswers).trans (invokeWord_withCrossNest ctx w _ b)
    | begin w rest => exact beginWord_withCrossNest w (s.withInputs rest) b
  rw [hstep]
  cases step s <;> rfl

end Sys2Proof.Machine

/-! PROOFS. The statements of 30_encoding.md: the fields of a dispatch word and the row it fits (O6), the agreement of
decoder and encoder (O5), known words (O7), the address byte (O8), and the step that performs a decoded word (O9). -/

namespace Sys2Proof.Machine

/-! ### The two fields of a dispatch word -/

/-- The status field `DW[9:6]` as a number (rule R73). -/
theorem statusField_toNat (dw : DispatchWord) : (dw.extractLsb' 6 4).toNat = dw.toNat / 64 := by
  rw [BitVec.extractLsb'_toNat, Nat.shiftRight_eq_div_pow]
  omega

/-- The flag field `DW[5:0]` as a number (rule R73). -/
theorem flagField_toNat (dw : DispatchWord) : (dw.extractLsb' 0 6).toNat = dw.toNat % 64 := by
  rw [BitVec.extractLsb'_toNat, Nat.shiftRight_zero]

/-- A code names the status whose code it is, and no other (rule R71). -/
theorem statusOfCode_eq_some {n : Nat} {st : Status} : statusOfCode n = some st ↔ n = st.code.toNat := by
  constructor
  · intro h
    unfold statusOfCode at h
    split at h <;> cases h <;> rfl
  · rintro rfl
    exact statusOfCode_code st

/-- The codes that are no status are those above 8 (rule R79). -/
theorem statusOfCode_eq_none {n : Nat} : statusOfCode n = none ↔ 8 < n := by
  constructor
  · intro h
    by_contra hle
    interval_cases n <;> cases h
  · intro h
    obtain ⟨k, rfl⟩ := Nat.exists_eq_add_of_le' (show 9 ≤ n from h)
    rfl

/-- The flag vectors that select an event: its own flag is set, and no flag of a higher priority (rules R74, R101). -/
theorem selectEvent_eq_some {flags : FlagVec} {e : Event} :
    selectEvent flags = some e ↔ flags.toNat &&& (2 ^ (e.bit + 1) - 1) = 2 ^ e.bit := by
  cases e <;> revert flags <;> decide

theorem selectEvent_eq_none {flags : FlagVec} : selectEvent flags = none ↔ flags.toNat = 0 := by
  revert flags; decide

/-! ### The rows of the dispatches -/

/-- A dispatch's mask keeps the whole status field, and of the flag field its event's flag and the flags above it. -/
theorem dispatchInstr_tableMask (st : Status) (e : Event) (h : Handle) :
    (dispatchInstr st e h).tableMask / 64 = 15 ∧ (dispatchInstr st e h).tableMask % 64 = 2 ^ (e.bit + 1) - 1 := by
  cases st <;> cases e <;> simp only [dispatchInstr, Instr.tableMask] <;> decide

/-- A dispatch's match is its status' code in the status field and its event's flag in the flag field (rule R85). -/
theorem dispatchInstr_tableMatch (st : Status) (e : Event) (h : Handle) :
    (dispatchInstr st e h).tableMatch / 64 = st.code.toNat ∧ (dispatchInstr st e h).tableMatch % 64 = 2 ^ e.bit := by
  cases st <;> cases e <;> simp only [dispatchInstr, Instr.tableMatch] <;> decide

/-- A number fits a row when both its fields do: the part above bit 6 and the six bits below. -/
theorem and_eq_iff_fields (n mask fit : Nat) :
    n &&& mask = fit ↔ n / 64 &&& mask / 64 = fit / 64 ∧ n % 64 &&& mask % 64 = fit % 64 := by
  rw [Nat.ext_div_mod_iff (2 ^ 6), Nat.and_div_two_pow, Nat.and_mod_two_pow]
  rfl

/-- A dispatch word fits a dispatch's row when its status field is the status' code and its flags select the event. -/
theorem fits_dispatchInstr_iff (dw : DispatchWord) (st : Status) (e : Event) (h : Handle) :
    dw.toNat &&& (dispatchInstr st e h).tableMask = (dispatchInstr st e h).tableMatch ↔
      statusOfCode (dw.toNat / 64) = some st ∧ selectEvent (dw.extractLsb' 0 6) = some e := by
  obtain ⟨hmaskStatus, hmaskFlags⟩ := dispatchInstr_tableMask st e h
  obtain ⟨hfitStatus, hfitFlags⟩ := dispatchInstr_tableMatch st e h
  have hkept : dw.toNat / 64 &&& 15 = dw.toNat / 64 := Nat.and_two_pow_sub_one_of_lt_two_pow (n := 4) (by omega)
  rw [and_eq_iff_fields, hmaskStatus, hmaskFlags, hfitStatus, hfitFlags, hkept, statusOfCode_eq_some,
    selectEvent_eq_some, flagField_toNat]

/-- A dispatch word fits the row of `IRQ.NONE` when no flag is set, whatever its status field (rule R74). -/
theorem fits_irqNone_iff (dw : DispatchWord) (h : Handle) :
    dw.toNat &&& (Instr.irqNone h).tableMask = (Instr.irqNone h).tableMatch ↔
      selectEvent (dw.extractLsb' 0 6) = none := by
  rw [selectEvent_eq_none, flagField_toNat]
  exact (Nat.and_two_pow_sub_one_eq_mod dw.toNat 6).congr_left

/-! ### The decoder, by the fields of the word -/

/-- What the dispatch decoder can answer: `IRQ.NONE`, or the dispatch of the word's status and its selected event. -/
theorem decodeDispatch_eq_ok {h : Handle} {dw : DispatchWord} {i : Instr} :
    decodeDispatch h dw = .ok i ↔ ∃ st, statusOfCode (dw.toNat / 64) = some st ∧
      ((selectEvent (dw.extractLsb' 0 6) = none ∧ i = .irqNone h) ∨
       ∃ e, selectEvent (dw.extractLsb' 0 6) = some e ∧ i = dispatchInstr st e h) := by
  unfold decodeDispatch
  rw [statusField_toNat]
  cases statusOfCode (dw.toNat / 64) <;> cases selectEvent (dw.extractLsb' 0 6) <;> simp [eq_comm]

/-- A dispatch word is refused only because its status field is no status (rule R79). -/
theorem decodeDispatch_eq_error {h : Handle} {dw : DispatchWord} {e : DecodeError} :
    decodeDispatch h dw = .error e ↔ statusOfCode (dw.toNat / 64) = none ∧ e = .notAStatus := by
  unfold decodeDispatch
  rw [statusField_toNat]
  cases statusOfCode (dw.toNat / 64) <;> cases selectEvent (dw.extractLsb' 0 6) <;> simp [eq_comm]

/-- What the command decoder answers is well-formed, and the word is the one the encoder gives (rules R75, R76). -/
theorem decodeCommand_eq_ok {w : CmdWord} {i : Instr} (hd : decodeCommand w = .ok i) :
    i.wellFormed = true ∧ encode i = .cmd w := by
  obtain ⟨code, operands⟩ := w
  have word : ∀ {c : BitVec 3} {o : Operands}, code.toNat = c.toNat → RawOp.cmd ⟨c, o⟩ = .cmd ⟨code, o⟩ := by
    intro c o hc
    rw [BitVec.eq_of_toNat_eq hc]
  unfold decodeCommand at hd
  split at hd
  case h_1 | h_2 | h_5 | h_6 | h_7 =>
    rename_i hc ho
    cases hd; cases ho
    exact ⟨rfl, word hc⟩
  case h_3 | h_4 =>
    rename_i hc ho
    split at hd
    · rename_i ha
      cases hd; cases ho
      exact ⟨ha, word hc⟩
    · cases hd
  all_goals cases hd

/-! ### The encoder -/

/-- A word of an operation is its row's match. -/
theorem encode_bits (i : Instr) : (encode i).bits = i.tableMatch := by
  cases i <;> rfl

theorem encode_fits (i : Instr) : (encode i).bits &&& i.tableMask = i.tableMatch := by
  rw [encode_bits]
  exact Laws.TableRow.mask_keeps_match i

/-- Every operation of format DSP is well-formed and acts on the session of the handle beside its word. -/
theorem wellFormed_and_handle_of_encode_dsp {i : Instr} {h : Handle} {w : DispatchWord} (hi : encode i = .dsp h w) :
    i.wellFormed = true ∧ i.handle = h := by
  cases i <;> cases hi <;> exact ⟨rfl, rfl⟩

/-- Decoding undoes encoding; only the two transfer commands have an operand to test (rule R76). -/
theorem decode_encode {i : Instr} (hw : i.wellFormed = true) : decode (encode i) = .ok i := by
  cases i
  case masterTransmit => exact if_pos hw
  case masterReceive => exact if_pos hw
  all_goals rfl

theorem irqNone_ne_dispatchInstr (h : Handle) (st : Status) (e : Event) : Instr.irqNone h ≠ dispatchInstr st e h := by
  cases st <;> cases e <;> exact nofun

/-- The operations of format DSP are `IRQ.NONE` and the dispatches of the grid (30_encoding.md section 4). -/
theorem eq_of_encode_dsp {i : Instr} {h : Handle} {w : DispatchWord} (hi : encode i = .dsp h w) :
    i = .irqNone h ∨ ∃ st e, i = dispatchInstr st e h := by
  have hd : decode (encode i) = .ok i := decode_encode (wellFormed_and_handle_of_encode_dsp hi).1
  rw [hi] at hd
  obtain ⟨st, -, ⟨-, rfl⟩ | ⟨e, -, rfl⟩⟩ := decodeDispatch_eq_ok.1 hd
  · exact .inl rfl
  · exact .inr ⟨st, e, rfl⟩

/-- The dispatch decoder answers operations of format DSP, for the handle it was given. -/
theorem encode_of_decodeDispatch {h : Handle} {dw : DispatchWord} {i : Instr} (hd : decodeDispatch h dw = .ok i) :
    ∃ w, encode i = .dsp h w := by
  obtain ⟨st, -, ⟨-, rfl⟩ | ⟨e, -, rfl⟩⟩ := decodeDispatch_eq_ok.1 hd
  · exact ⟨_, rfl⟩
  · obtain ⟨h', w, hw⟩ := encode_dispatchInstr st e h
    obtain ⟨-, hh⟩ := wellFormed_and_handle_of_encode_dsp hw
    rw [dispatchInstr_handle] at hh
    exact ⟨w, hh ▸ hw⟩

/-- A word decodes to an operation of format DSP just when its status field is a status and it fits the operation's
row (rules R74, R79). -/
theorem decodeDispatch_iff_fits {h : Handle} {dw w : DispatchWord} {i : Instr} (hi : encode i = .dsp h w) :
    decodeDispatch h dw = .ok i ↔ dw.toNat / 64 ≤ 8 ∧ dw.toNat &&& i.tableMask = i.tableMatch := by
  have hstatus : dw.toNat / 64 ≤ 8 ↔ ∃ st, statusOfCode (dw.toNat / 64) = some st := by
    rw [← Nat.not_lt, ← statusOfCode_eq_none]
    exact Option.ne_none_iff_exists'
  rw [decodeDispatch_eq_ok, hstatus]
  rcases eq_of_encode_dsp hi with rfl | ⟨st, e, rfl⟩
  · simp [fits_irqNone_iff, irqNone_ne_dispatchInstr]
  · rw [fits_dispatchInstr_iff]
    constructor
    · rintro ⟨st', hst, ⟨-, heq⟩ | ⟨e', he, heq⟩⟩
      · exact absurd heq.symm (irqNone_ne_dispatchInstr h st e)
      · obtain ⟨rfl, rfl⟩ := dispatchInstr_inj heq
        exact ⟨⟨st, hst⟩, hst, he⟩
    · rintro ⟨-, hst, he⟩
      exact ⟨st, hst, .inr ⟨e, he, rfl⟩⟩

/-- What decodes is well-formed and fits its row, and it keeps the operands beside the word: a command word is the
encoder's own, a dispatch is of format DSP for the handle (rules R73 to R76). -/
theorem decode_eq_ok {raw : RawOp} {i : Instr} (hd : decode raw = .ok i) :
    i.wellFormed = true ∧ raw.bits &&& i.tableMask = i.tableMatch ∧ (∀ w, raw = .cmd w → encode i = raw) ∧
    (∀ h dw, raw = .dsp h dw → i.handle = h ∧ ∃ w, encode i = .dsp h w) := by
  cases raw with
  | cmd w =>
    obtain ⟨hwf, henc⟩ := decodeCommand_eq_ok hd
    exact ⟨hwf, henc ▸ encode_fits i, fun _ _ => henc, nofun⟩
  | dsp h dw =>
    obtain ⟨w, henc⟩ := encode_of_decodeDispatch hd
    obtain ⟨hwf, hh⟩ := wellFormed_and_handle_of_encode_dsp henc
    obtain ⟨-, hfits⟩ := (decodeDispatch_iff_fits henc).1 hd
    refine ⟨hwf, hfits, nofun, ?_⟩
    rintro _ _ ⟨⟩
    exact ⟨hh, w, henc⟩

/-- Settles O5, by the round trip `decode_encode` and the inversion of the decoder `decode_eq_ok`. -/
theorem decodeAndEncodeAgree : Obligations.DecodeAndEncodeAgree :=
  ⟨fun _ => decode_encode, fun _ _ => decode_eq_ok⟩

/-- Settles O6: the row splits into the two fields that the decoder reads (`decodeDispatch_iff_fits`), and only a status
field above 8 is refused. -/
theorem decoderFollowsTableRows : Obligations.DecoderFollowsTableRows := by
  intro h dw i
  refine ⟨⟨fun hd => ?_, fun ⟨⟨w, hw⟩, hfits⟩ => (decodeDispatch_iff_fits hw).2 hfits⟩, ?_⟩
  · obtain ⟨w, hw⟩ := encode_of_decodeDispatch hd
    exact ⟨⟨w, hw⟩, (decodeDispatch_iff_fits hw).1 hd⟩
  · rw [decodeDispatch_eq_error, statusOfCode_eq_none, and_iff_left rfl]

/-! ### Known words and the address byte -/

/-- A command word whose address is not 7 bits wide is refused (rule R76). -/
theorem decodeCommand_refuses_address {h : Handle} {a : Nat} (bytes : List Byte) (n : Nat) (ha : 128 ≤ a) :
    decodeCommand ⟨2#3, .transmit h a bytes⟩ = .error .addressNotSevenBits ∧
    decodeCommand ⟨3#3, .receive h a n⟩ = .error .addressNotSevenBits := by
  have hfits : ¬ fitsAddr7 a = true := by simpa [fitsAddr7] using ha
  exact ⟨if_neg hfits, if_neg hfits⟩

/-- A transfer on a live session to an address that is not 7 bits wide is refused, whatever its size (rule R76). -/
theorem transfer_refuses_address {h : Handle} {a : Nat} {s : State} {x : Session} (n : Nat) (todo : List Micro)
    (hx : s.session? h = some x) (ha : 128 ≤ a) : transfer h a n todo s = .refused .addressNotSevenBits := by
  have hfits : fitsAddr7 a = false := by simpa [fitsAddr7] using ha
  simp [transfer, transferGuard, hx, hfits]

/-- The assembled byte as a number: the address above the direction bit (rule R76). -/
theorem addressByte_toNat {a : Nat} (dir : BitVec 1) (ha : a < 128) :
    (addressByte a dir).toNat = 2 * a + dir.toNat := by
  rw [addressByte, BitVec.toNat_append, BitVec.toNat_ofNat, Nat.mod_eq_of_lt ha,
    ← Nat.shiftLeft_add_eq_or_of_lt dir.isLt, Nat.shiftLeft_eq]
  omega

/-- Settles O7: each word is closed but for its handle, and the decoder computes. -/
theorem knownWordsDecode : Obligations.KnownWordsDecode := by
  intro h
  have haddress := (decodeCommand_refuses_address (h := h) [1#8] 0 (le_refl 128)).1
  refine ⟨?_, ?_, ?_, ?_, ?_, ?_, ?_, ?_, ?_, ?_, ?_, ?_, ?_, ?_, ?_, ?_, haddress, ?_⟩
  all_goals rfl

/-- Settles O8, for the two directions of a transfer at once by `transfer_refuses_address`. -/
theorem addressByteAssembly : Obligations.AddressByteAssembly := by
  refine ⟨fun a dir => addressByte_toNat dir, rfl, rfl, fun h a bytes n s x ha hx => ?_⟩
  exact ⟨transfer_refuses_address _ _ hx ha, transfer_refuses_address _ _ hx ha,
    decodeCommand_refuses_address bytes n ha⟩

/-! ### The step of an invocation -/

/-- The script's next invocation is taken in interrupt context always, in application context when no host command is in
progress (rule R63). -/
theorem nextTurn_of_invoke {s : State} {ctx : Context} {w : CmdWord} {answers : List (Handle × Port)}
    {rest : List Input} (hq : s.irqPhase = .notInIrq) (hin : s.inputs = .invoke ctx w answers :: rest)
    (hfree : ctx = .interrupt ∨ s.host = none) : nextTurn s = .invoke ctx w answers rest := by
  cases ctx with
  | interrupt => simp [nextTurn, hq, hin]
  | application =>
    have hnone : s.host = none := hfree.resolve_left nofun
    simp [nextTurn, hq, hin, hnone]

/-- An invocation whose word decodes to an operation admitted in its context performs the operation (rule R172). -/
theorem step_of_invoke {s : State} {ctx : Context} {w : CmdWord} {answers : List (Handle × Port)}
    {rest : List Input} {i : Instr} (ht : nextTurn s = .invoke ctx w answers rest) (hd : decodeCommand w = .ok i)
    (ha : admitted ctx i = true) : step s = exec i ((s.withInputs rest).presentAll answers) := by
  simp [step, ht, invokeWord, hd, ha]

/-- Settles O9: in either context the invocation is what moves next, and its operation is admitted. -/
theorem stepRunsDecodedWord : Obligations.StepRunsDecodedWord := by
  intro s ctx w answers rest i hq hin hd hctx
  obtain ⟨rfl, hhost⟩ | ⟨rfl, h, rfl⟩ := hctx
  · exact step_of_invoke (nextTurn_of_invoke hq hin (.inr hhost)) hd rfl
  · exact step_of_invoke (nextTurn_of_invoke hq hin (.inl rfl)) hd rfl

end Sys2Proof.Machine

/-! PROOFS. The statements of 40_ring_buffer.md: the byte that RX.SRX pushes (O35), the byte that Pop takes (O42), what
both do to the unread bytes (O43), and the ring as a queue (O44). -/

namespace Sys2Proof.Machine

/-! ### RX.SRX -/

/-- The words that decode to a dispatch of the grid are exactly those that fit its row: a word whose status field is no
status fits none (rules R74, R79). -/
theorem hasRow_dispatchInstr {st : Status} {e : Event} {mask fit : Nat}
    (hmask : ∀ h, (dispatchInstr st e h).tableMask = mask) (hfit : ∀ h, (dispatchInstr st e h).tableMatch = fit) :
    HasRow (dispatchInstr st e) mask fit := by
  intro h dw
  rw [← hmask h, ← hfit h]
  obtain ⟨_, _, hi⟩ := encode_dispatchInstr st e h
  have hh := (wellFormed_and_handle_of_encode_dsp hi).2
  rw [dispatchInstr_handle] at hh
  subst hh
  refine (decodeDispatch_iff_fits hi).trans (and_iff_right_of_imp fun hfits => ?_)
  obtain ⟨hst, -⟩ := (fits_dispatchInstr_iff dw st e h).1 hfits
  rw [← Nat.not_lt, ← statusOfCode_eq_none, hst]
  exact nofun

/-- RX.SRX pushes the byte presented, and its read is on the trace (rule R131). -/
theorem rxSrx_leaves {h : Handle} {s : State} {x : Session} (hx : s.session? h = some x) :
    Leaves h s (exec (.rxSrx h) s)
      { x.push (s.port h).data with trace := x.trace ++ [.r (s.port h).data] } (s.port h) s.irqPhase := by
  rw [exec, execRxSrx]
  exact leaves_of_effect hx rfl rfl rfl rfl rfl

/-- Settles O35: PUSH written out (rules R86, R90). -/
theorem slaveReceivePushesByte : Obligations.SlaveReceivePushesByte :=
  ⟨hasRow_dispatchInstr (st := .srx) (e := .rx) (fun _ => rfl) fun _ => rfl, fun _ _ _ => rxSrx_leaves⟩

/-! ### Pop -/

/-- Every index of a sound ring is a cell with a byte (20_memory.md rule R51). -/
theorem exists_ring_cell {x : Session} (hok : x.Ok) {i : Nat} (hi : i < x.ringCap) : ∃ b, x.cell .ring i = some b := by
  obtain ⟨-, hkeys, -⟩ := hok
  have hlisted : i ∈ x.ring.map Prod.fst := by rw [hkeys]; exact List.mem_range.2 hi
  exact Option.isSome_iff_exists.1 ((tableFind_isSome i x.ring).2 hlisted)

/-- The index that Pop reads lies in a sound ring. -/
theorem exists_oldest_cell {x : Session} (hok : x.Ok) (u : Nat) : ∃ b, x.cell .ring (x.oldestIndex u) = some b := by
  have hcap : 1 ≤ x.ringCap := hok.1
  exact exists_ring_cell hok (subMod_lt x.writeIndex u x.ringCap hcap)

/-- P2 on a cell with a byte reads it, and draws nothing. -/
theorem popByte_of_cell {u : Nat} {f : Focus} {b : Byte} (hb : f.session.cell .ring (f.session.oldestIndex u) = some b) :
    popByte u f = (b, f) :=
  memRead_of_cell hb

theorem exec_pop_of_unread {h : Handle} {s : State} {x : Session} {b : Byte} (hx : s.session? h = some x)
    (hu : x.unreadCount ≠ 0) (hb : x.cell .ring (x.oldestIndex x.unreadCount) = some b) :
    exec (.pop h) s =
      .next ((s.put h (popCountBack x.unreadCount (s.focus h x))).withResult (some (.popped true b))) := by
  have hread : popByte x.unreadCount (s.focus h x) = (b, s.focus h x) := popByte_of_cell hb
  simp [exec, execPop, hx, hu, hread]

theorem exec_pop_of_empty {h : Handle} {s : State} {x : Session} (hx : s.session? h = some x) (hu : x.unreadCount = 0) :
    exec (.pop h) s = .next (s.withResult (some (.popped false 0x00#8))) := by
  simp [exec, execPop, hx, hu]

/-- P1 keeps the count, or ends an empty Pop (rule R91). -/
theorem microStep_popCount {h : Handle} {s : State} {x : Session} (hx : s.session? h = some x)
    (hh : s.host = some (.popCount h)) :
    microStep s = .next
      (if x.unreadCount = 0 then s.hostReturns (some (.popped false 0x00#8))
       else s.withHost (some (.popRead h x.unreadCount))) := by
  by_cases hu : x.unreadCount = 0 <;> simp [microStep, hh, hx, hu]

/-- P2 keeps the byte read with the stale count (rule R91). -/
theorem microStep_popRead {h : Handle} {s : State} {x : Session} {u : Nat} {b : Byte} (hx : s.session? h = some x)
    (hh : s.host = some (.popRead h u)) (hb : x.cell .ring (x.oldestIndex u) = some b) :
    microStep s = .next ((s.put h (s.focus h x)).withHost (some (.popFinish h u b))) := by
  have hread : popByte u (s.focus h x) = (b, s.focus h x) := popByte_of_cell hb
  simp [microStep, hh, hx, hread]

/-- P3 writes back the stale count less one, and the byte goes to the host (rule R91). -/
theorem microStep_popFinish {h : Handle} {s : State} {x : Session} {u : Nat} {b : Byte} (hx : s.session? h = some x)
    (hh : s.host = some (.popFinish h u b)) :
    microStep s = .next ((s.put h (popCountBack u (s.focus h x))).hostReturns (some (.popped true b))) := by
  simp [microStep, hh, hx]

/-- Settles O42: the index Pop computes lies in the ring, so the read is of a cell with a byte and draws nothing. -/
theorem popReturnsOldestByte : Obligations.PopReturnsOldestByte := by
  intro h s
  refine ⟨?unread, fun _ => exec_pop_of_empty, ?dead, fun _ => microStep_popCount, ?read, ?finish, rfl⟩
  case unread =>
    intro x hx hok hu
    obtain ⟨b, hb⟩ := exists_oldest_cell hok x.unreadCount
    refine ⟨b, hb, ?_⟩
    rw [exec_pop_of_unread hx (Nat.one_le_iff_ne_zero.1 hu) hb]
    exact hands_of_put rfl rfl rfl rfl
  case dead =>
    intro hx
    simp [exec, execPop, hx]
  case read =>
    intro x u b hx hh hb
    exact ⟨_, microStep_popRead hx hh hb, rfl, session?_put_same s h (s.focus h x), rfl⟩
  case finish =>
    intro x u b hx hh
    exact ⟨_, microStep_popFinish hx hh, rfl, session?_put_same s h (popCountBack u (s.focus h x)), rfl⟩

/-! ### Positions in the ring -/

theorem subMod_zero {w n : Nat} (hw : w < n) : subMod w 0 n = w := by
  simp only [subMod, Nat.cast_zero, Int.sub_zero, ← Int.natCast_mod, Int.toNat_natCast, Nat.mod_eq_of_lt hw]

/-- One step forward and one more back is where one was. -/
theorem subMod_nextRingIndex_succ (w k n : Nat) : subMod (nextRingIndex w n) (k + 1) n = subMod w k n := by
  have hmod : (((w + 1) % n : Nat) - (k + 1 : Nat) : Int) % n = ((w : Int) - k) % n := by
    rw [Int.natCast_mod, Int.emod_sub_emod]
    congr 1
    omega
  simp only [subMod, nextRingIndex, hmod]

/-- Fewer than `n` steps back do not lead around the ring. -/
theorem subMod_ne_self {w k n : Nat} (hk : 0 < k) (hkn : k < n) : subMod w k n ≠ w := by
  intro heq
  have hnonneg : 0 ≤ ((w : Int) - k) % n := Int.emod_nonneg _ (by omega)
  have hmod : ((w : Int) - k) % n = w := by rw [← Int.toNat_of_nonneg hnonneg]; exact congrArg _ heq
  have hdvd : (n : Int) ∣ k := by
    have := Int.dvd_self_sub_of_emod_eq hmod
    rwa [show (w : Int) - k - w = -k by omega, Int.dvd_neg] at this
  exact Nat.not_le.2 hkn (Nat.le_of_dvd hk (Int.natCast_dvd_natCast.1 hdvd))

/-! ### The unread bytes -/

/-- The `u` cells behind `writeIndex`, oldest first: the unread bytes when `u` is `unreadCount` (rule R92). -/
def Session.recent (x : Session) (u : Nat) : List (Option Byte) :=
  (List.range u).map fun j => x.cell .ring (x.oldestIndex (u - j))

theorem unread_eq_recent (x : Session) : x.unread = x.recent x.unreadCount := rfl

@[simp] theorem recent_zero (x : Session) : x.recent 0 = [] := rfl

theorem recent_succ (x : Session) (u : Nat) :
    x.recent (u + 1) = x.cell .ring (x.oldestIndex (u + 1)) :: x.recent u := by
  simp [Session.recent, List.range_succ_eq_map, Function.comp_def]

@[simp] theorem recent_length (x : Session) (u : Nat) : (x.recent u).length = u := by
  simp [Session.recent]

theorem unread_length (x : Session) : x.unread.length = x.unreadCount := recent_length x x.unreadCount

/-- The cell just behind `writeIndex` after a push is the byte pushed. -/
theorem push_cell_newest {x : Session} (hindex : x.writeIndex < x.ringCap) (b : Byte) :
    (x.push b).cell .ring ((x.push b).oldestIndex 1) = some b := by
  have hpos : (x.push b).oldestIndex 1 = x.writeIndex :=
    (subMod_nextRingIndex_succ x.writeIndex 0 x.ringCap).trans (subMod_zero hindex)
  rw [hpos]
  exact Memory.read_write_same x.ring x.writeIndex b

/-- Every older cell moves one position away from `writeIndex` and keeps its byte. -/
theorem push_cell_older {x : Session} {k : Nat} (hk : 0 < k) (hcap : k < x.ringCap) (b : Byte) :
    (x.push b).cell .ring ((x.push b).oldestIndex (k + 1)) = x.cell .ring (x.oldestIndex k) := by
  have hpos : (x.push b).oldestIndex (k + 1) = x.oldestIndex k := subMod_nextRingIndex_succ x.writeIndex k x.ringCap
  rw [hpos]
  exact Memory.read_write_ne x.ring b (subMod_ne_self hk hcap)

/-- A push appends its byte at the young end of the cells that are not overwritten. -/
theorem push_recent {x : Session} (hindex : x.writeIndex < x.ringCap) (b : Byte) {k : Nat} (hk : k < x.ringCap) :
    (x.push b).recent (k + 1) = x.recent k ++ [some b] := by
  induction k with
  | zero => rw [recent_succ, push_cell_newest hindex, recent_zero, recent_zero, List.nil_append]
  | succ k ih =>
    rw [recent_succ, push_cell_older k.succ_pos hk, ih (by omega), recent_succ x, List.cons_append]

theorem lastOf_of_length_le {α : Type} {n : Nat} {l : List α} (hl : l.length ≤ n) : lastOf n l = l := by
  rw [lastOf, Nat.sub_eq_zero_of_le hl, List.drop_zero]

/-- PUSH on the unread bytes (rule R92): below the capacity nothing is lost, at the capacity the oldest byte is. -/
theorem push_unread {x : Session} (hok : x.Ok) (b : Byte) :
    (x.push b).unread = lastOf x.ringCap (x.unread ++ [some b]) := by
  obtain ⟨hcap, -, hindex, hle, -⟩ := hok
  rw [unread_eq_recent, unread_eq_recent, push_unreadCount, cappedUnread]
  obtain hlt | hfull := Nat.lt_or_eq_of_le hle
  · rw [Nat.min_eq_left hlt, push_recent hindex b hlt, lastOf_of_length_le (by simpa using hlt)]
  · obtain ⟨n, hn⟩ := Nat.exists_eq_add_of_le' hcap
    rw [hfull, Nat.min_eq_right (Nat.le_succ _), hn, push_recent hindex b (by omega), recent_succ x]
    simp [lastOf]

/-- Pop on the unread bytes (rule R92): it returns the oldest and leaves the others. -/
theorem pop_unread {h : Handle} {s : State} {x : Session} (hx : s.session? h = some x) (hok : x.Ok)
    (hu : 1 ≤ x.unreadCount) :
    ∃ t b, exec (.pop h) s = .next t ∧ t.session? h = some { x with unreadCount := x.unreadCount - 1 } ∧
      t.result = some (.popped true b) ∧
      x.unread = some b :: Session.unread { x with unreadCount := x.unreadCount - 1 } := by
  obtain ⟨b, hb⟩ := exists_oldest_cell hok x.unreadCount
  refine ⟨_, b, exec_pop_of_unread hx (Nat.one_le_iff_ne_zero.1 hu) hb,
    session?_put_same s h (popCountBack x.unreadCount (s.focus h x)), rfl, ?_⟩
  obtain ⟨k, hk⟩ := Nat.exists_eq_add_of_le' hu
  rw [hk] at hb
  rw [unread_eq_recent, hk, recent_succ, hb]
  rfl

/-- Settles O43, by the position law of each side (rule R92). -/
theorem unreadBytesFollowPositionLaw : Obligations.UnreadBytesFollowPositionLaw := by
  refine ⟨fun x b hok => ⟨push_ok hok b, push_unread hok b⟩, fun h s x hx hok hu => ?_⟩
  obtain ⟨t, b, hn, ht, hr, hunread⟩ := pop_unread hx hok hu
  exact ⟨t, _, b, hn, ht, hr, hunread⟩

/-! ### The ring as a queue -/

theorem lastOf_length {α : Type} (n : Nat) (l : List α) : (lastOf n l).length = min l.length n := by
  rw [lastOf, List.length_drop]
  omega

theorem lastOf_map {α β : Type} (n : Nat) (f : α → β) (l : List α) : lastOf n (l.map f) = (lastOf n l).map f := by
  rw [lastOf, lastOf, List.length_map, List.map_drop]

/-- Dropping old elements before appending does not change the last `n`. -/
theorem lastOf_lastOf_append {α : Type} (n : Nat) (l m : List α) : lastOf n (lastOf n l ++ m) = lastOf n (l ++ m) := by
  have hdrop : lastOf n l ++ m = (l ++ m).drop (l.length - n) := by
    rw [lastOf, List.drop_append_of_le_length (Nat.sub_le _ _)]
  rw [hdrop, lastOf, lastOf, List.drop_drop, List.length_drop, List.length_append]
  congr 1
  omega

/-- A slave receive of any length completes, and leaves unread the last bytes that fit (rules R90, R92). -/
theorem receiveBytes_unread {h : Handle} (bytes : List Byte) {s : State} {x : Session} (hx : s.session? h = some x)
    (hok : x.Ok) :
    ∃ t y, receiveBytes h bytes s = .next t ∧ t.session? h = some y ∧ y.Ok ∧
      y.unread = lastOf x.ringCap (x.unread ++ bytes.map some) := by
  induction bytes generalizing s x with
  | nil =>
    have hfits : (x.unread ++ ([] : List Byte).map some).length ≤ x.ringCap := by
      simpa [unread_length] using unreadCount_le hok
    exact ⟨s, x, rfl, hx, hok, by rw [lastOf_of_length_le hfits]; simp⟩
  | cons b bs ih =>
    obtain ⟨u, hn, hu, -⟩ := rxSrx_leaves (s := s.present h { s.port h with data := b }) hx
    rw [port_present_same] at hu
    obtain ⟨t, y, hr, ht, hyok, hunread⟩ := ih hu (push_ok hok b)
    refine ⟨t, y, by simp only [receiveBytes, hn, hr], ht, hyok, ?_⟩
    calc y.unread = lastOf x.ringCap ((x.push b).unread ++ bs.map some) := hunread
      _ = lastOf x.ringCap (x.unread ++ (b :: bs).map some) := by
        rw [push_unread hok, lastOf_lastOf_append, List.append_assoc, List.map_cons, List.singleton_append]

/-- Pops return the unread bytes, oldest first, and then that there is none (rules R91, R92). -/
theorem popResults_of_unread {h : Handle} (l : List Byte) {s : State} {x : Session} (hx : s.session? h = some x)
    (hok : x.Ok) (hl : x.unread = l.map some) :
    popResults h (l.length + 1) s =
      l.map (fun b => some (.popped true b)) ++ [some (.popped false 0x00#8)] := by
  induction l generalizing s x with
  | nil =>
    have hu : x.unreadCount = 0 := by rw [← unread_length, hl]; rfl
    simp [popResults, exec_pop_of_empty hx hu]
  | cons b bs ih =>
    have hu : 1 ≤ x.unreadCount := by rw [← unread_length, hl]; simp
    obtain ⟨t, c, hn, ht, hr, hc⟩ := pop_unread hx hok hu
    rw [hc, List.map_cons, List.cons.injEq] at hl
    obtain ⟨hhead, htail⟩ := hl
    cases hhead
    have hok' : Session.Ok { x with unreadCount := x.unreadCount - 1 } :=
      setUnreadCount_ok hok ((Nat.sub_le _ _).trans (unreadCount_le hok))
    rw [List.length_cons, popResults, hn]
    simp only [hr, ih ht hok' htail, List.map_cons, List.cons_append]

/-- Settles O44: the receive leaves the last bytes of the list unread (`receiveBytes_unread`), and draining returns them
in order (`popResults_of_unread`). -/
theorem ringFifoLaw : Obligations.RingFifoLaw := by
  intro h s x bytes hx hok h0
  obtain ⟨t, y, hr, ht, hyok, hunread⟩ := receiveBytes_unread bytes hx hok
  have hempty : x.unread = [] := by rw [unread_eq_recent, h0, recent_zero]
  rw [hempty, List.nil_append, lastOf_map] at hunread
  refine ⟨t, hr, ?_⟩
  rw [← lastOf_length]
  exact popResults_of_unread _ ht hyok hunread

end Sys2Proof.Machine

/-! PROOFS. The statements of 41_event_dispatch.md: which event is selected (O12), the operation that OnInterrupt
performs (O13), when it completes (O14), the unspecified dispatches (O16), an invocation without a flag (O15), and the word that
`withFetchWord` places (O10). -/

namespace Sys2Proof.Machine

/-! ### The operation of a status and its flags -/

/-- The operation that the status and the presented flags call for: the selected event's dispatch, or `IRQ.NONE` when no
flag is set (rules R100, R102). -/
def selectedInstr (st : Status) (flags : FlagVec) (h : Handle) : Instr :=
  (selectEvent flags).elim (.irqNone h) fun e => dispatchInstr st e h

theorem selectedInstr_of_none {st : Status} {flags : FlagVec} {h : Handle} (hsel : selectEvent flags = none) :
    selectedInstr st flags h = .irqNone h := by
  rw [selectedInstr, hsel, Option.elim_none]

theorem selectedInstr_of_some {st : Status} {flags : FlagVec} {e : Event} {h : Handle}
    (hsel : selectEvent flags = some e) : selectedInstr st flags h = dispatchInstr st e h := by
  rw [selectedInstr, hsel, Option.elim_some]

@[simp] theorem selectedInstr_handle (st : Status) (flags : FlagVec) (h : Handle) :
    (selectedInstr st flags h).handle = h := by
  cases hsel : selectEvent flags with
  | none => rw [selectedInstr_of_none hsel, Instr.handle]
  | some e => rw [selectedInstr_of_some hsel, dispatchInstr_handle]

/-- A word whose status field is a status decodes to the operation its two fields call for (rule R74). -/
theorem decodeDispatch_of_status {h : Handle} {dw : DispatchWord} {st : Status}
    (hst : statusOfCode (dw.extractLsb' 6 4).toNat = some st) :
    decodeDispatch h dw = .ok (selectedInstr st (dw.extractLsb' 0 6) h) := by
  rw [statusField_toNat] at hst
  refine decodeDispatch_eq_ok.2 ⟨st, hst, ?_⟩
  cases hsel : selectEvent (dw.extractLsb' 0 6) with
  | none => exact .inl ⟨rfl, selectedInstr_of_none hsel⟩
  | some e => exact .inr ⟨e, rfl, selectedInstr_of_some hsel⟩

theorem decodeDispatch_dispatchWord (st : Status) (flags : FlagVec) (h : Handle) :
    decodeDispatch h (dispatchWord st flags) = .ok (selectedInstr st flags h) := by
  have hst : statusOfCode ((dispatchWord st flags).extractLsb' 6 4).toNat = some st := by
    rw [dispatchWord_status, statusOfCode_code]
  rw [decodeDispatch_of_status hst, dispatchWord_flags]

/-! ### OnInterrupt -/

theorem exec_irqNone_live {h : Handle} {s : State} {x : Session} (hx : s.session? h = some x) :
    exec (.irqNone h) s = .next s := by
  simp [exec, execIrqNone, hx]

/-- OnInterrupt is the operation that the session's status and the presented flags call for (rule R100). -/
theorem exec_onInterrupt_live {h : Handle} {s : State} {x : Session} (hx : s.session? h = some x) :
    exec (.onInterrupt h) s = exec (selectedInstr x.status (s.port h).flags h) s := by
  rw [exec, execOnInterrupt_live hx]
  cases hsel : selectEvent (s.port h).flags with
  | none => rw [selectedInstr_of_none hsel, exec_irqNone_live hx]
  | some e => rw [selectedInstr_of_some hsel]

/-- On a dead handle there is no status to dispatch on (rule R152). -/
theorem exec_onInterrupt_dead {h : Handle} {s : State} (hdead : s.session? h = none) :
    exec (.onInterrupt h) s = .refused (.deadHandle h) := by
  simp [exec, execOnInterrupt, hdead]

theorem exec_onInterrupt_of_none {h : Handle} {s : State} {x : Session} (hx : s.session? h = some x)
    (hsel : selectEvent (s.port h).flags = none) : exec (.onInterrupt h) s = .next s := by
  rw [exec_onInterrupt_live hx, selectedInstr_of_none hsel, exec_irqNone_live hx]

theorem exec_onInterrupt_of_some {h : Handle} {s : State} {x : Session} {e : Event} (hx : s.session? h = some x)
    (hsel : selectEvent (s.port h).flags = some e) :
    exec (.onInterrupt h) s = exec (dispatchInstr x.status e h) s := by
  rw [exec_onInterrupt_live hx, selectedInstr_of_some hsel]

/-- Settles O13: the dispatch word decodes to the operation its status and flags call for, and that is what OnInterrupt
performs. -/
theorem onInterruptPerformsSelectedDispatch : Obligations.OnInterruptPerformsSelectedDispatch := by
  intro h s
  refine ⟨fun x hx => ?_, exec_onInterrupt_dead, rfl⟩
  exact ⟨_, decodeDispatch_dispatchWord x.status _ h, selectedInstr_handle x.status _ h, exec_onInterrupt_live hx⟩

/-- Settles O15: no flag selects `IRQ.NONE`, which keeps the state, and a word fits its row when no flag is set. -/
theorem noFlagNoEffect : Obligations.NoFlagNoEffect := by
  intro h s x hx
  refine ⟨exec_irqNone_live hx, fun hflags => ?_, fun dw hdw => ?_⟩
  · exact exec_onInterrupt_of_none hx (by rw [hflags]; rfl)
  · have hrow := decodeDispatch_iff_fits (h := h) (dw := dw) (i := .irqNone h) rfl
    exact hrow.trans (and_iff_right hdw)

/-! ### Priority -/

theorem forall_event {P : Event → Prop} :
    (∀ e, P e) ↔ P .nack ∧ P .rx ∧ P .sb ∧ P .addr ∧ P .txe ∧ P .stop := by
  constructor
  · intro hall
    exact ⟨hall _, hall _, hall _, hall _, hall _, hall _⟩
  · rintro ⟨hnack, hrx, hsb, haddr, htxe, hstop⟩ e
    cases e <;> assumption

/-- The event selected is the first whose flag is set (rule R101). -/
theorem selectEvent_eq_some_iff_first {flags : FlagVec} {e : Event} :
    selectEvent flags = some e ↔
      flags.getLsbD e.bit = true ∧ ∀ e' : Event, e'.bit < e.bit → flags.getLsbD e'.bit = false := by
  rw [forall_event]
  cases e <;> revert flags <;> decide

theorem selectEvent_eq_none_iff_zero {flags : FlagVec} : selectEvent flags = none ↔ flags = 0#6 :=
  selectEvent_eq_none.trans (BitVec.toNat_inj (y := 0#6))

/-! ### The port that a dispatch leaves -/

theorem transmitNext_port {p : Params} {h : Handle} {f g : Focus} (hn : transmitNext p h f = .next g) :
    g.port = f.port := by
  rw [transmitNext_eq] at hn
  dsimp only at hn
  split_ifs at hn <;> cases hn <;> simp [finishTransmit_frame]

theorem receiveNext_port {p : Params} {h : Handle} {f g : Focus} (hn : receiveNext p h f = .next g) :
    g.port = f.port := by
  rw [receiveNext_eq] at hn
  dsimp only at hn
  split_ifs at hn <;> cases hn <;> simp [finishReceive_frame]

theorem slaveTransmitNext_port {p : Params} {f g : Focus} (hn : slaveTransmitNext p f = .next g) :
    g.port = f.port := by
  cases hbuf : f.session.stxBuffer with
  | none =>
    rw [slaveTransmitNext_unset hbuf] at hn
    cases hn
    rfl
  | some m =>
    rw [slaveTransmitNext_set hbuf] at hn
    dsimp only at hn
    split_ifs at hn <;> cases hn <;> simp

section DispatchPort

variable {h : Handle} {s t : State} {e : Event}

/-- An operation on a session clears at most one flag of its port when its effect does. -/
theorem onSession_port {act : Focus → Effect} (hn : onSession h s act = .next t)
    (hact : ∀ f g, act f = .next g → g.port = f.port ∨ g.port = f.port.clear e) :
    t.port h = s.port h ∨ t.port h = (s.port h).clear e := by
  obtain ⟨x, f, -, hf, rfl⟩ := onSession_next hn
  rw [port_put_same]
  exact hact _ f hf

theorem onSession_port_kept {k : Focus → Focus} (hn : onSession h s (fun f => .next (k f)) = .next t)
    (hk : ∀ f, (k f).port = f.port) : t.port h = s.port h ∨ t.port h = (s.port h).clear e :=
  onSession_port hn fun f g hg => .inl (by cases hg; exact hk f)

theorem onSession_port_cleared {k : Focus → Focus} (hn : onSession h s (fun f => .next (k f)) = .next t)
    (hk : ∀ f, (k f).port = f.port.clear e) : t.port h = s.port h ∨ t.port h = (s.port h).clear e :=
  onSession_port hn fun f g hg => .inr (by cases hg; exact hk f)

/-- A dispatch clears at most the flag of its own event. -/
theorem dispatchInstr_port {st : Status} (hn : exec (dispatchInstr st e h) s = .next t) :
    t.port h = s.port h ∨ t.port h = (s.port h).clear e := by
  cases st <;> cases e <;> simp only [dispatchInstr, exec] at hn
  case mtxStartSent.nack | mtxAddrAcked.nack | mtx.nack | mrxStartSent.nack | mrxAddrAcked.nack | mrx.nack =>
    exact onSession_port_cleared hn fun f => (masterAbort_frame s.params _ f).1
  case idle.addr => exact onSession_port_cleared hn fun f => (addressMatched_frame f).1
  case mrxAddrAcked.addr => exact onSession_port_cleared hn fun f => by split_ifs <;> rfl
  case mtxAddrAcked.addr | srx.stop | stx.nack => exact onSession_port_cleared hn fun _ => rfl
  case mtxStartSent.sb | mrxStartSent.sb | srx.rx => exact onSession_port_kept hn fun _ => rfl
  case mtx.txe => exact onSession_port hn fun _ _ hg => .inl (transmitNext_port hg)
  case mrx.rx => exact onSession_port hn fun _ _ hg => .inl (receiveNext_port hg)
  case stx.txe => exact onSession_port hn fun _ _ hg => .inl (slaveTransmitNext_port hg)
  all_goals cases hn

/-- Every flag but the dispatched event's is presented as before (rule R101). -/
theorem dispatchInstr_flag_ne {st : Status} {e' : Event} (hn : exec (dispatchInstr st e h) s = .next t)
    (he : e' ≠ e) : (t.port h).flag e' = (s.port h).flag e' := by
  obtain hport | hport := dispatchInstr_port hn
  · rw [hport]
  · rw [hport, flag_clear_ne _ he]

end DispatchPort

/-- Settles O12: selection is by the first flag set, and a dispatch clears at most its own event's flag. -/
theorem eventPriorityFirstMatchWins : Obligations.EventPriorityFirstMatchWins := by
  refine ⟨fun _ _ => selectEvent_eq_some_iff_first, fun _ => selectEvent_eq_none_iff_zero, by decide, by decide,
    by decide, by decide, by decide, fun h s x e hx hsel => ?_⟩
  have hexec := exec_onInterrupt_of_some hx hsel
  exact ⟨hexec, fun t hn e' he => dispatchInstr_flag_ne (hexec ▸ hn) he⟩

/-! ### Completion -/

theorem transmitNext_completes {p : Params} {h : Handle} {f : Focus}
    (hfits : fitsCounter p (f.session.mtxCount + 1) = true) : ∃ g, transmitNext p h f = .next g := by
  rw [transmitNext_eq]
  dsimp only
  rw [if_pos hfits]
  split_ifs <;> exact ⟨_, rfl⟩

theorem receiveNext_completes {p : Params} {h : Handle} {f : Focus}
    (hfits : fitsCounter p (f.session.mrxCount + 1) = true) (hroom : f.session.mrxCount < f.session.mrxSize) :
    ∃ g, receiveNext p h f = .next g := by
  rw [receiveNext_eq, if_pos hroom, if_pos hfits]
  dsimp only
  split_ifs <;> exact ⟨_, rfl⟩

/-- With the buffer unset nothing is counted, so the counter need not fit (rule R133). -/
theorem slaveTransmitNext_completes {p : Params} {f : Focus}
    (hfits : f.session.stxBuffer ≠ none → fitsCounter p (f.session.stxCount + 1) = true) :
    ∃ g, slaveTransmitNext p f = .next g := by
  cases hbuf : f.session.stxBuffer with
  | none => exact ⟨_, slaveTransmitNext_unset hbuf⟩
  | some m =>
    rw [slaveTransmitNext_set hbuf]
    exact ⟨_, if_pos (hfits (by simp [hbuf]))⟩

theorem onSession_completes {h : Handle} {s : State} {x : Session} {act : Focus → Effect}
    (hx : s.session? h = some x) (hact : ∃ f, act (s.focus h x) = .next f) : ∃ t, onSession h s act = .next t := by
  obtain ⟨f, hf⟩ := hact
  exact ⟨_, onSession_of_next hx hf⟩

/-- Settles O14: of the defined dispatches only the three that count can be refused, and each is not when its count
fits. -/
theorem onInterruptCompletes : Obligations.OnInterruptCompletes := by
  intro h s x hx hdefined hmtx hstx hmrx
  obtain hnone | ⟨e, hsel, hmem⟩ := hdefined
  · exact ⟨s, exec_onInterrupt_of_none hx hnone⟩
  rw [exec_onInterrupt_of_some hx hsel]
  rw [hsel, Option.some.injEq] at hmtx hstx hmrx
  generalize hst : x.status = st at hmem hmtx hstx hmrx ⊢
  cases st <;> cases e <;> simp only [dispatchInstr, exec]
  case mtx.txe => exact onSession_completes hx (transmitNext_completes (hmtx rfl rfl))
  case stx.txe => exact onSession_completes hx (slaveTransmitNext_completes (hstx rfl rfl))
  case mrx.rx =>
    obtain ⟨hfits, hroom⟩ := hmrx rfl rfl
    exact onSession_completes hx (receiveNext_completes hfits hroom)
  case idle.addr | mtxStartSent.nack | mtxStartSent.sb | mtxAddrAcked.nack | mtxAddrAcked.addr | mtx.nack | srx.rx |
      srx.stop | mrxStartSent.nack | mrxStartSent.sb | mrxAddrAcked.nack | mrxAddrAcked.addr | mrx.nack | stx.nack =>
    exact ⟨_, onSession_of_next hx rfl⟩
  all_goals exact absurd hmem (by decide)

/-! ### The unspecified dispatches -/

/-- The row of a dispatch does not depend on the handle. -/
theorem dispatchInstr_row_handle (st : Status) (e : Event) (h h' : Handle) :
    (dispatchInstr st e h).tableMask = (dispatchInstr st e h').tableMask ∧
    (dispatchInstr st e h).tableMatch = (dispatchInstr st e h').tableMatch := by
  cases st <;> cases e <;> exact ⟨rfl, rfl⟩

/-- The words that decode to a dispatch are exactly those that fit its row (rule R74). -/
theorem decodeDispatch_eq_dispatchInstr_iff {h : Handle} {dw : DispatchWord} {st : Status} {e : Event} :
    decodeDispatch h dw = .ok (dispatchInstr st e h) ↔
      dw.toNat &&& (dispatchInstr st e h).tableMask = (dispatchInstr st e h).tableMatch :=
  hasRow_dispatchInstr (fun h' => (dispatchInstr_row_handle st e h' h).1)
    (fun h' => (dispatchInstr_row_handle st e h' h).2) h dw

/-- Settles O16: each operation of the list is the dispatch of its pair, and its meaning is the refusal by name. -/
theorem unspecifiedDispatchesRefused : Obligations.UnspecifiedDispatchesRefused := by
  intro h s p hp
  have hpair : exec p.1 s = .refused (.unspecifiedDispatch p.2.1 p.2.2) ∧ dispatchInstr p.2.1 p.2.2 h = p.1 := by
    fin_cases hp <;> exact ⟨rfl, rfl⟩
  obtain ⟨hrefused, hdispatch⟩ := hpair
  refine ⟨hrefused, hdispatch, fun dw => ?_⟩
  rw [← hdispatch]
  exact decodeDispatch_eq_dispatchInstr_iff

/-! ### The word that `withFetchWord` places -/

@[simp] theorem session?_withInvocation (s : State) (ctx : Context) (w : CmdWord) (h : Handle) :
    (s.withInvocation ctx w).session? h = s.session? h := rfl

@[simp] theorem port_withInvocation (s : State) (ctx : Context) (w : CmdWord) (h : Handle) :
    (s.withInvocation ctx w).port h = s.port h := rfl

/-- The invocation placed is what the next step performs (rule R172). -/
theorem step_withInvocation {s : State} {ctx : Context} {w : CmdWord} {i : Instr} (hd : decodeCommand w = .ok i)
    (ha : admitted ctx i = true) :
    step (s.withInvocation ctx w) = exec i ((s.withInvocation ctx w).withInputs s.inputs) :=
  step_of_invoke (s := s.withInvocation ctx w) (answers := []) (nextTurn_of_invoke rfl rfl (.inr rfl)) hd ha

/-- A command is admitted in the context its code is issued in: in interrupt context that is OnInterrupt (rule R171). -/
theorem admitted_contextOfCode {w : CmdWord} {i : Instr} (hd : decodeCommand w = .ok i) :
    admitted (contextOfCode w.code) i = true := by
  obtain ⟨-, henc⟩ := decodeCommand_eq_ok hd
  cases i <;> cases henc <;> rfl

@[simp] theorem withLiveSession_inputs (s : State) (h : Handle) : (s.withLiveSession h).inputs = s.inputs := by
  unfold State.withLiveSession
  split <;> rfl

@[simp] theorem withStatus_inputs (s : State) (h : Handle) (st : Status) : (s.withStatus h st).inputs = s.inputs := by
  unfold State.withStatus
  split <;> rfl

theorem exists_session_withLiveSession (s : State) (h : Handle) : ∃ x, (s.withLiveSession h).session? h = some x := by
  unfold State.withLiveSession
  split
  · rename_i x hx
    exact ⟨x, hx⟩
  · exact ⟨_, tableFind_insert_same h _ _⟩

theorem session?_withStatus {s : State} {h : Handle} {x : Session} (hx : s.session? h = some x) (st : Status) :
    (s.withStatus h st).session? h = some { x with status := st } := by
  unfold State.withStatus
  rw [hx]
  exact tableFind_insert_same h _ _

/-- The command word placed is performed next (rule R75). -/
theorem step_placeRaw_cmd {s : State} {w : CmdWord} {i : Instr} (hd : decodeCommand w = .ok i) :
    step (s.placeRaw (.cmd w)) = exec i ((s.placeRaw (.cmd w)).withInputs s.inputs) := by
  have hinputs : (if w.code = 0#3 then s else s.withLiveSession i2c1).inputs = s.inputs := by
    split_ifs <;> simp
  rw [State.placeRaw, step_withInvocation hd (admitted_contextOfCode hd), hinputs]

/-- The dispatch word placed stands in the session's status and the presented flags, and the OnInterrupt placed beside
them performs what it decodes to (rule R100). -/
theorem step_placeRaw_dsp {s : State} {h : Handle} {dw : DispatchWord} {i : Instr} (hd : decodeDispatch h dw = .ok i) :
    step (s.placeRaw (.dsp h dw)) = exec i ((s.placeRaw (.dsp h dw)).withInputs s.inputs) := by
  obtain ⟨st, hst, -⟩ := decodeDispatch_eq_ok.1 hd
  rw [← statusField_toNat] at hst
  have hi : selectedInstr st (dw.extractLsb' 0 6) h = i := Except.ok.inj ((decodeDispatch_of_status hst).symm.trans hd)
  obtain ⟨x, hx⟩ := exists_session_withLiveSession s h
  simp only [State.placeRaw, hst]
  rw [step_withInvocation (i := .onInterrupt h) rfl rfl, exec_onInterrupt_live (x := { x with status := st })]
  · simp [hi]
  · simpa using session?_withStatus hx st

/-- Settles O10, by the format of the word placed. -/
theorem fetchedWordRunsNext : Obligations.FetchedWordRunsNext := by
  intro s nbits w raw i hraw hd
  have hplaced : s.withFetchWord nbits w = s.placeRaw raw := by rw [State.withFetchWord, hraw]
  rw [hplaced]
  cases raw with
  | cmd w => exact step_placeRaw_cmd hd
  | dsp h dw => exact step_placeRaw_dsp hd

end Sys2Proof.Machine

/-! PROOFS. The statements of 42_master_transmit.md: MasterTransmit (O22), the two handlers up to the first data byte
(O23, O24), TXE.MTX and its hold (O25, O26), and the data phase as a whole (O28). -/

namespace Sys2Proof.Machine

/-! ### MasterTransmit -/

theorem transfer_dead {h : Handle} {s : State} (hdead : s.session? h = none) (a n : Nat) (todo : List Micro) :
    transfer h a n todo s = .refused (.deadHandle h) := by
  simp [transfer, hdead]

section Transfer

variable {h : Handle} {a n : Nat} {todo : List Micro} {s : State} {x : Session}

/-- A transfer of no byte returns without touching session or interface (rule R185). -/
theorem transfer_of_size_zero (hx : s.session? h = some x) (hg : transferGuard s.params a 0 = none) :
    transfer h a 0 todo s = .next (s.withResult none) := by
  simp [transfer, hx, hg]

theorem transfer_of_size_ne_zero (hx : s.session? h = some x) (hg : transferGuard s.params a n = none) (hn : n ≠ 0) :
    transfer h a n todo s = .next ((s.put h (runMicros todo (s.focus h x))).withResult none) := by
  simp [transfer, hx, hg, hn]

/-- A transfer that runs hands over what its micro-steps leave of the session, whatever the status (rule R186). -/
theorem transfer_hands (hx : s.session? h = some x) (hg : transferGuard s.params a n = none) (hn : n ≠ 0) :
    Hands h s (transfer h a n todo s) (runMicros todo (s.focus h x)).session none := by
  obtain ⟨hport, hdraws, hirq⟩ := runMicros_frame todo (s.focus h x)
  rw [transfer_of_size_ne_zero hx hg hn]
  exact hands_of_put rfl hport hirq hdraws

end Transfer

/-- Settles O22: the transfer's guard first, then its size, then M1 to M6 (rules R76, R110, R152). -/
theorem masterTransmitStartsTransfer : Obligations.MasterTransmitStartsTransfer := by
  intro h a bytes s x hx
  refine ⟨fun ha hfit hne => ?run, fun ha hfit => ?empty, fun ha => transfer_refuses_address _ _ hx ha,
    fun h' hdead => transfer_dead hdead _ _ _, rfl, fun ha => ?word⟩
  case run =>
    have hhands := transfer_hands (todo := transmitMicros a bytes) hx (transferGuard_eq_none.2 ⟨ha, hfit⟩)
      (mt List.length_eq_zero_iff.1 hne)
    rwa [runMicros_transmit] at hhands
  case empty => exact transfer_of_size_zero hx (transferGuard_eq_none.2 ⟨ha, hfit⟩)
  case word => exact decode_encode (i := .masterTransmit h a bytes) (decide_eq_true ha)

/-! ### The handlers up to the first data byte -/

/-- Settles O23: both handlers write `slaveAddress` before they set the status. -/
theorem startSentWritesAddressByte : Obligations.StartSentWritesAddressByte := by
  refine ⟨hasRow_dispatchInstr (st := .mtxStartSent) (e := .sb) (fun _ => rfl) fun _ => rfl,
    hasRow_dispatchInstr (st := .mrxStartSent) (e := .sb) (fun _ => rfl) fun _ => rfl, fun h s x hx => ⟨?_, ?_⟩⟩
  · rw [exec, execSbMtxStartSent]
    exact leaves_of_effect hx rfl rfl rfl rfl rfl
  · rw [exec, execSbMrxStartSent]
    exact leaves_of_effect hx rfl rfl rfl rfl rfl

/-- Settles O24: the status is written, then the flag is cleared, and no other flag with it. -/
theorem addressAckedEntersTransmit : Obligations.AddressAckedEntersTransmit := by
  refine ⟨hasRow_dispatchInstr (st := .mtxAddrAcked) (e := .addr) (fun _ => rfl) fun _ => rfl, fun h s x hx => ?_⟩
  rw [exec, execAddrMtxAddrAcked]
  exact ⟨leaves_of_effect hx rfl rfl rfl rfl rfl, flag_clear_same _ _, fun _ he => flag_clear_ne _ he⟩

/-! ### TXE.MTX -/

/-- The session after the given bytes were written to the interface and counted (rule R113). -/
def Session.sent (x : Session) (l : List Byte) : Session :=
  { x with mtxCount := x.mtxCount + l.length, trace := x.trace ++ l.map .w }

/-- The session after the end of a master transmit: Stop, clock stretching, the callback, the status (rule R113). -/
def Session.transmitDone (x : Session) : Session :=
  { x with stretch := .on, status := .idle,
           trace := x.trace ++ [.stop, .stretchOn] ++ callItems x.callbacks .onMasterTransmitDone }

@[simp] theorem sent_nil (x : Session) : x.sent [] = x := by
  simp [Session.sent]

@[simp] theorem sent_sent (x : Session) (l m : List Byte) : (x.sent l).sent m = x.sent (l ++ m) := by
  simp [Session.sent, Nat.add_assoc]

@[simp] theorem sent_mtxCount (x : Session) (l : List Byte) : (x.sent l).mtxCount = x.mtxCount + l.length := rfl
@[simp] theorem sent_mtxSize (x : Session) (l : List Byte) : (x.sent l).mtxSize = x.mtxSize := rfl
@[simp] theorem sent_cell (x : Session) (l : List Byte) (sp : Space) (i : Nat) :
    (x.sent l).cell sp i = x.cell sp i := by
  cases sp <;> rfl

/-- TXE.MTX where MTX has a cell at `mtxCount`: that byte is sent, and then the branches of rule R113. -/
theorem transmitNext_of_cell {p : Params} {h : Handle} {f : Focus} {b : Byte}
    (hfit : fitsCounter p (f.session.mtxCount + 1) = true) (hcell : f.session.cell .mtx f.session.mtxCount = some b) :
    transmitNext p h f =
      let g : Focus := { f with session := f.session.sent [b] }
      if f.session.mtxCount + 1 = f.session.mtxSize then
        (if f.port.tc then .next g.finishTransmit else .next (g.holdForTC h))
      else .next g := by
  rw [transmitNext_eq, memRead_of_cell hcell]
  exact if_pos hfit

section TxeMtx

variable {h : Handle} {s : State} {x : Session} {b : Byte} (hx : s.session? h = some x)
  (hfit : fitsCounter s.params (x.mtxCount + 1) = true) (hcell : x.cell .mtx x.mtxCount = some b)

include hx hfit hcell

theorem txeMtx_before_last (hmore : x.mtxCount + 1 ≠ x.mtxSize) :
    Leaves h s (exec (.txeMtx h) s) (x.sent [b]) (s.port h) s.irqPhase := by
  have hact := transmitNext_of_cell (h := h) (f := s.focus h x) hfit hcell
  exact leaves_of_effect hx (hact.trans (if_neg hmore)) rfl rfl rfl rfl

/-- The last byte is sent and the handler is held (rule R114). -/
theorem txeMtx_last_held (hlast : x.mtxCount + 1 = x.mtxSize) (htc : (s.port h).tc = false) :
    Leaves h s (exec (.txeMtx h) s) (x.sent [b]) (s.port h) (.spinTC h) := by
  have hact := transmitNext_of_cell (h := h) (f := s.focus h x) hfit hcell
  have hwait : ¬ (s.focus h x).port.tc = true := by simp [htc]
  exact leaves_of_effect hx (hact.trans ((if_pos hlast).trans (if_neg hwait))) rfl rfl rfl rfl

/-- The last byte is sent and the handler completes at once. -/
theorem txeMtx_last_done (hlast : x.mtxCount + 1 = x.mtxSize) (htc : (s.port h).tc = true) :
    Leaves h s (exec (.txeMtx h) s) (x.sent [b]).transmitDone (s.port h) s.irqPhase := by
  have hact := transmitNext_of_cell (h := h) (f := s.focus h x) hfit hcell
  obtain ⟨hport, hdraws, hirq⟩ := finishTransmit_frame { s.focus h x with session := x.sent [b] }
  exact leaves_of_effect hx (hact.trans ((if_pos hlast).trans (if_pos htc))) (finishTransmit_session _) hport hirq
    hdraws

end TxeMtx

/-! ### The hold -/

/-- A held handler that sees TC goes on at the next step (rule R114). -/
theorem step_of_tc {h : Handle} {s : State} {x : Session} (hq : s.irqPhase = .spinTC h) (hx : s.session? h = some x)
    (htc : (s.port h).tc = true) : Leaves h s (step s) x.transmitDone (s.port h) .notInIrq := by
  have hstep : step s = releaseHold h s := by simp [step, nextTurn, hq, htc]
  obtain ⟨hport, hdraws, hirq⟩ := finishTransmit_frame (s.focus h x).handlerReturn
  rw [hstep]
  exact leaves_of_effect hx rfl (finishTransmit_session _) hport hirq hdraws

/-- Whatever left the handler held, the environment's raising TC lets the next step finish it. -/
theorem step_of_raised_tc {h : Handle} {s t : State} {o : Host.Outcome State Fault Refusal} {y : Session} {p q : Port}
    (hheld : Leaves h s o y p (.spinTC h)) (ht : o = .next t) (htc : q.tc = true) :
    Leaves h (t.present h q) (step (t.present h q)) y.transmitDone q .notInIrq := by
  obtain ⟨u, ho, hy, -, hq, -⟩ := hheld
  cases ho.symm.trans ht
  have hdone := step_of_tc (s := t.present h q) hq hy (by rwa [port_present_same])
  rwa [port_present_same] at hdone

/-- Settles O25: the byte at `mtxCount` is sent, and what follows is decided by the count and by TC. -/
theorem transmitNextByte : Obligations.TransmitNextByte := by
  refine ⟨hasRow_dispatchInstr (st := .mtx) (e := .txe) (fun _ => rfl) fun _ => rfl, fun h s x hx hfit b hcell => ?_⟩
  refine ⟨txeMtx_before_last hx hfit hcell, fun hlast htc => ?_, txeMtx_last_done hx hfit hcell⟩
  have hheld := txeMtx_last_held hx hfit hcell hlast htc
  exact ⟨hheld, fun t ht => step_of_raised_tc hheld ht rfl⟩

/-- The environment action found is taken out of the script, and all else stays in its order. -/
theorem firstEnvironment_eq_some {l rest : List Input} {h : Handle} {p : Port}
    (hl : firstEnvironment l = some (h, p, rest)) :
    ∃ before after, l = before ++ .environment h p :: after ∧ rest = before ++ after := by
  induction l generalizing rest with
  | nil => cases hl
  | cons i l ih =>
    have skip : ∀ {others}, firstEnvironment l = some (h, p, others) → rest = i :: others →
        ∃ before after, i :: l = before ++ .environment h p :: after ∧ rest = before ++ after := by
      rintro others he rfl
      obtain ⟨before, after, rfl, rfl⟩ := ih he
      exact ⟨i :: before, after, rfl, rfl⟩
    cases i with
    | environment h' p' =>
      cases hl
      exact ⟨[], l, rfl, rfl⟩
    | invoke | begin | micro =>
      simp only [firstEnvironment] at hl
      split at hl <;> cases hl
      exact skip (by assumption) rfl

/-- Whatever is no environment action stays in the script. -/
theorem mem_of_firstEnvironment {l rest : List Input} {h : Handle} {p : Port}
    (hl : firstEnvironment l = some (h, p, rest)) {i : Input} (hi : i ∈ l) (hne : ∀ h' p', i ≠ .environment h' p') :
    i ∈ rest := by
  obtain ⟨before, after, rfl, rfl⟩ := firstEnvironment_eq_some hl
  simpa [hne] using hi

/-- Settles O26: without TC the script's first environment action is all that can move, and it leaves the rest of the
script; with TC the handler goes on. -/
theorem heldHandlerWaitsForTC : Obligations.HeldHandlerWaitsForTC := by
  intro h s hq
  refine ⟨fun htc => ?waits, fun x hx htc => step_of_tc hq hx htc, fun hi => ?held⟩
  case waits =>
    cases hf : firstEnvironment s.inputs with
    | none =>
      have ht : nextTurn s = .idle := by simp [nextTurn, hq, htc, hf]
      exact ⟨s, step_of_idle ht, rfl, rfl, rfl, rfl, rfl, rfl, rfl, fun _ hi _ => hi⟩
    | some e =>
      obtain ⟨h', p, rest⟩ := e
      have ht : nextTurn s = .environment h' p rest := by simp [nextTurn, hq, htc, hf]
      exact ⟨_, step_of_environment ht, rfl, rfl, rfl, rfl, rfl, rfl, rfl, fun _ => mem_of_firstEnvironment hf⟩
  case held =>
    obtain ⟨-, -, -, -, -, hhold⟩ := hi
    cases hx : s.session? h with
    | none => simp [State.holdOk, hq, hx] at hhold
    | some x => exact ⟨x, rfl, by simpa [State.holdOk, hq, hx] using hhold⟩

/-! ### The data phase -/

/-- A count below one that fits, fits (decision D21). -/
theorem fitsCounter_mono {p : Params} {m n : Nat} (hmn : m ≤ n) (hn : fitsCounter p n = true) :
    fitsCounter p m = true := by
  unfold fitsCounter at hn ⊢
  cases hw : p.cntWidth with
  | none => rfl
  | some w =>
    simp only [hw, decide_eq_true_eq] at hn ⊢
    exact Nat.lt_of_le_of_lt hmn hn

theorem SameElsewhere.trans {h : Handle} {s t u : State} (hst : SameElsewhere h s t) (htu : SameElsewhere h t u) :
    SameElsewhere h s u := by
  obtain ⟨hother, hparams, hhost, hclosed, hinputs⟩ := hst
  obtain ⟨hother', hparams', hhost', hclosed', hinputs'⟩ := htu
  refine ⟨fun h' hne => ?_, hparams'.trans hparams, hhost'.trans hhost, hclosed'.trans hclosed,
    hinputs'.trans hinputs⟩
  exact ⟨(hother' h' hne).1.trans (hother h' hne).1, (hother' h' hne).2.trans (hother h' hne).2⟩

/-- Once more is one operation from where the earlier ones ended. -/
theorem execTimes_succ_of_next {i : Instr} {n : Nat} {s t : State} (hn : execTimes i n s = .next t) :
    execTimes i (n + 1) s = exec i t := by
  induction n generalizing s with
  | zero =>
    cases hn
    rw [execTimes]
    cases exec i t <;> rfl
  | succ n ih =>
    rw [execTimes] at hn ⊢
    cases he : exec i s <;> rw [he] at hn
    case next u => exact ih hn
    case fault | refused => cases hn

/-- What `n` operations and then one more leave. -/
theorem leaves_execTimes_succ {h : Handle} {i : Instr} {n : Nat} {s : State} {y z : Session} {p q : Port}
    {irq irq' : IrqPhase} (hn : Leaves h s (execTimes i n s) y p irq)
    (hone : ∀ t, t.session? h = some y → t.port h = p → t.irqPhase = irq → t.params = s.params →
      Leaves h t (exec i t) z q irq') : Leaves h s (execTimes i (n + 1) s) z q irq' := by
  obtain ⟨t, hrun, hy, hp, hirq, hsame, hdraws, hresult⟩ := hn
  obtain ⟨-, hparams, -⟩ := id hsame
  obtain ⟨u, hexec, hz, hq, hirq', hsame', hdraws', hresult'⟩ := hone t hy hp hirq hparams
  exact ⟨u, (execTimes_succ_of_next hrun).trans hexec, hz, hq, hirq', hsame.trans hsame', hdraws'.trans hdraws,
    hresult'.trans hresult⟩

/-- A master transmit of the bytes is set up on the session, and none is written yet (rule R110). -/
def Session.setToSend (x : Session) (bytes : List Byte) : Prop :=
  x.mtxBuffer = Memory.ofBytes bytes ∧ x.mtxSize = bytes.length ∧ x.mtxCount = 0

section DataPhase

variable {h : Handle} {s : State} {x : Session} {l r : List Byte} {b : Byte}

/-- When some bytes of a transfer are sent, the next one is the byte at `mtxCount`. -/
theorem setToSend_next_cell (hset : x.setToSend (l ++ b :: r)) : (x.sent l).cell .mtx (x.sent l).mtxCount = some b := by
  obtain ⟨hbuf, -, hcount⟩ := hset
  rw [sent_cell, sent_mtxCount, hcount, Session.cell, Session.space, hbuf, Memory.read_ofBytes]
  simp

theorem setToSend_next_fits {p : Params} (hset : x.setToSend (l ++ b :: r))
    (hfit : fitsCounter p (l ++ b :: r).length = true) : fitsCounter p ((x.sent l).mtxCount + 1) = true := by
  obtain ⟨-, -, hcount⟩ := hset
  exact fitsCounter_mono (by simp [hcount]) hfit

/-- The next byte is the last one when no byte is left after it. -/
theorem setToSend_next_last (hset : x.setToSend (l ++ b :: r)) :
    (x.sent l).mtxCount + 1 = (x.sent l).mtxSize ↔ r = [] := by
  obtain ⟨-, hsize, hcount⟩ := hset
  simp [hsize, hcount]

/-- While bytes are left, each handler so far has sent one byte and done nothing else (rule R113). -/
theorem execTimes_txeMtx_before_last (hx : s.session? h = some x) (hr : r ≠ []) (hset : x.setToSend (l ++ r))
    (hfit : fitsCounter s.params (l ++ r).length = true) :
    Leaves h s (execTimes (.txeMtx h) l.length s) (x.sent l) (s.port h) s.irqPhase := by
  induction l using List.reverseRecOn generalizing r with
  | nil =>
    rw [sent_nil]
    exact ⟨s, rfl, hx, rfl, rfl, ⟨fun _ _ => ⟨rfl, rfl⟩, rfl, rfl, rfl, rfl⟩, rfl, rfl⟩
  | append_singleton l b ih =>
    rw [List.append_assoc, List.singleton_append] at hset hfit
    rw [List.length_append, List.length_singleton, ← sent_sent]
    refine leaves_execTimes_succ (ih (List.cons_ne_nil b r) hset hfit) fun t ht hport hirq hparams => ?_
    rw [← hport, ← hirq]
    exact txeMtx_before_last ht (hparams ▸ setToSend_next_fits hset hfit) (setToSend_next_cell hset)
      (mt (setToSend_next_last hset).1 hr)

/-- The handler of the last byte completes the transfer or is held, by TC (rules R113, R114). -/
theorem execTimes_txeMtx_last (hx : s.session? h = some x) (hset : x.setToSend (l ++ [b]))
    (hfit : fitsCounter s.params (l ++ [b]).length = true) :
    ((s.port h).tc = true → Leaves h s (execTimes (.txeMtx h) (l ++ [b]).length s) (x.sent (l ++ [b])).transmitDone
      (s.port h) s.irqPhase) ∧
    ((s.port h).tc = false → Leaves h s (execTimes (.txeMtx h) (l ++ [b]).length s) (x.sent (l ++ [b]))
      (s.port h) (.spinTC h)) := by
  have hrun := execTimes_txeMtx_before_last hx (List.cons_ne_nil b []) hset hfit
  have hcell := setToSend_next_cell hset
  have hfits := setToSend_next_fits hset hfit
  have hlast := (setToSend_next_last hset).2 rfl
  rw [List.length_append, List.length_singleton, ← sent_sent]
  refine ⟨fun htc => leaves_execTimes_succ hrun fun t ht hport hirq hparams => ?done,
    fun htc => leaves_execTimes_succ hrun fun t ht hport _ hparams => ?held⟩
  case done =>
    rw [← hport] at htc ⊢
    rw [← hirq]
    exact txeMtx_last_done ht (hparams ▸ hfits) hcell hlast htc
  case held =>
    rw [← hport] at htc ⊢
    exact txeMtx_last_held ht (hparams ▸ hfits) hcell hlast htc

end DataPhase

/-- Settles O28: each handler sends one byte (`execTimes_txeMtx_before_last`), and the last one completes or is held
(`execTimes_txeMtx_last`). -/
theorem transmitDataPhaseWritesAllBytes : Obligations.TransmitDataPhaseWritesAllBytes := by
  intro h s x bytes hx hne hbuf hsize hcount hfit
  obtain ⟨l, b, rfl⟩ := (List.eq_nil_or_concat' bytes).resolve_left hne
  have hset : x.setToSend (l ++ [b]) := ⟨hbuf, hsize, hcount⟩
  have hsent : x.sent (l ++ [b]) =
      { x with mtxCount := (l ++ [b]).length, trace := x.trace ++ (l ++ [b]).map .w } := by
    rw [Session.sent, hcount, Nat.zero_add]
  obtain ⟨hdone, hheld⟩ := execTimes_txeMtx_last hx hset hfit
  rw [hsent] at hdone hheld
  exact ⟨hdone, fun htc => ⟨hheld htc, fun t ht => step_of_raised_tc (hheld htc) ht rfl⟩⟩

end Sys2Proof.Machine

/-! PROOFS. The statements of 43_master_receive.md: MasterReceive (O29), ADDR.MRX_AddrAcked (O30), RX.MRX (O31), and the
law of when NACK is armed (O33). -/

namespace Sys2Proof.Machine

/-! ### MasterReceive -/

/-- A MasterReceive that runs hands over the session V1 to V7 leave (rule R120). -/
theorem masterReceive_hands {h : Handle} {a n : Nat} {s : State} {x : Session} (hx : s.session? h = some x)
    (ha : a < 128) (hfit : fitsCounter s.params n = true) (hn : n ≠ 0) :
    Hands h s (exec (.masterReceive h a n) s)
      { x with stretch := .off, mrxBuffer := [], mrxSize := n, mrxCount := 0,
               slaveAddress := addressByte a readDirection, status := .mrxStartSent,
               ackNext := if n = 1 then .nack else x.ackNext,
               trace := x.trace ++ ([.stretchOff] ++ (if n = 1 then [.nackNext] else []) ++ [.start]) } none := by
  have hhands := transfer_hands (todo := receiveMicros a n) hx (transferGuard_eq_none.2 ⟨ha, hfit⟩) hn
  rwa [runMicros_receive] at hhands

/-- Settles O29: the transfer's guard first, then its size, then V1 to V7 (rules R76, R120, R152). -/
theorem masterReceiveStartsTransfer : Obligations.MasterReceiveStartsTransfer := by
  intro h a n s x hx
  refine ⟨masterReceive_hands hx, fun ha hfit => ?empty, fun ha => transfer_refuses_address _ _ hx ha,
    fun h' hdead => transfer_dead hdead _ _ _, rfl, fun ha => ?word⟩
  case empty => exact transfer_of_size_zero hx (transferGuard_eq_none.2 ⟨ha, hfit⟩)
  case word => exact decode_encode (i := .masterReceive h a n) (decide_eq_true ha)

/-! ### ADDR.MRX_AddrAcked -/

/-- NACK is armed for a receive of one byte, the status is written, and the flag is cleared last (rule R122). -/
theorem addrMrxAddrAcked_leaves {h : Handle} {s : State} {x : Session} (hx : s.session? h = some x) :
    Leaves h s (exec (.addrMrxAddrAcked h) s)
      { x with ackNext := if x.mrxSize = 1 then .nack else x.ackNext, status := .mrx,
               trace := x.trace ++ ((if x.mrxSize = 1 then [.nackNext] else []) ++ [.clr .addr]) }
      ((s.port h).clear .addr) s.irqPhase := by
  rw [exec, execAddrMrxAddrAcked]
  by_cases hone : x.mrxSize = 1 <;>
    exact leaves_of_effect hx rfl (by simp [hone]) (by simp [hone]) (by simp [hone]) (by simp [hone])

/-- Settles O30: the row, and what the handler leaves. -/
theorem addressAckedEntersReceive : Obligations.AddressAckedEntersReceive :=
  ⟨hasRow_dispatchInstr (st := .mrxAddrAcked) (e := .addr) (fun _ => rfl) fun _ => rfl,
    fun _ _ _ => addrMrxAddrAcked_leaves⟩

/-! ### RX.MRX -/

/-- The session after a byte was read from the interface, stored at `mrxCount` and counted (rule R123). -/
def Session.received (x : Session) (b : Byte) : Session :=
  { x with mrxBuffer := x.mrxBuffer.write x.mrxCount b, mrxCount := x.mrxCount + 1, trace := x.trace ++ [.r b] }

/-- The session after NACK was armed for the next byte (rule R123). -/
def Session.nackArmed (x : Session) : Session :=
  { x with ackNext := .nack, trace := x.trace ++ [.nackNext] }

/-- The session after the end of a master receive: Stop, clock stretching, ACK, the callback, the status (rule R123). -/
def Session.receiveDone (x : Session) : Session :=
  { x with ackNext := .ack, stretch := .on, status := .idle,
           trace := x.trace ++ [.stop, .stretchOn, .ackNext] ++ callItems x.callbacks .onMasterReceiveDone }

section RxMrx

variable {h : Handle} {s : State} {x : Session} (hx : s.session? h = some x) (hroom : x.mrxCount < x.mrxSize)
  (hfit : fitsCounter s.params (x.mrxCount + 1) = true)

include hroom hfit

/-- RX.MRX with a cell left: the byte presented is stored and counted, and then the branches of rule R123. -/
theorem receiveNext_of_room :
    receiveNext s.params h (s.focus h x) =
      let g : Focus := { s.focus h x with session := x.received (s.port h).data }
      if x.mrxCount + 1 = x.mrxSize then .next g.finishReceive
      else if x.mrxCount + 1 = x.mrxSize - 1 then .next g.setNackNext
      else .next g := by
  rw [receiveNext_eq]
  exact (if_pos hroom).trans (if_pos hfit)

include hx

theorem rxMrx_before_nack (hmore : x.mrxCount + 1 < x.mrxSize - 1) :
    Leaves h s (exec (.rxMrx h) s) (x.received (s.port h).data) (s.port h) s.irqPhase := by
  have hact := receiveNext_of_room (h := h) hroom hfit
  rw [if_neg (by omega), if_neg (by omega)] at hact
  exact leaves_of_effect hx hact rfl rfl rfl rfl

theorem rxMrx_arms_nack (hnext : x.mrxCount + 1 = x.mrxSize - 1) :
    Leaves h s (exec (.rxMrx h) s) (x.received (s.port h).data).nackArmed (s.port h) s.irqPhase := by
  have hact := receiveNext_of_room (h := h) hroom hfit
  rw [if_neg (by omega), if_pos hnext] at hact
  exact leaves_of_effect hx hact rfl rfl rfl rfl

theorem rxMrx_last (hlast : x.mrxCount + 1 = x.mrxSize) :
    Leaves h s (exec (.rxMrx h) s) (x.received (s.port h).data).receiveDone (s.port h) s.irqPhase := by
  have hact := receiveNext_of_room (h := h) hroom hfit
  rw [if_pos hlast] at hact
  obtain ⟨hport, hdraws, hirq⟩ := finishReceive_frame { s.focus h x with session := x.received (s.port h).data }
  exact leaves_of_effect hx hact (finishReceive_session _) hport hirq hdraws

end RxMrx

/-- Settles O31: the byte presented is stored, and what follows is decided by the count. -/
theorem receiveNextByte : Obligations.ReceiveNextByte := by
  refine ⟨hasRow_dispatchInstr (st := .mrx) (e := .rx) (fun _ => rfl) fun _ => rfl, fun h s x hx hroom hfit =>
    ⟨rxMrx_before_nack hx hroom hfit, fun hnext => ?arms, fun hlast => ?last⟩⟩
  case arms => simpa [Session.received, Session.nackArmed] using rxMrx_arms_nack hx hroom hfit hnext
  case last => simpa [Session.received, Session.receiveDone] using rxMrx_last hx hroom hfit hlast

/-! ### When NACK is armed -/

/-- A session is armed by its two counters and `ackNext` alone. -/
theorem armed_of_fields {x y : Session} (hx : x.armed) (hcount : y.mrxCount = x.mrxCount)
    (hsize : y.mrxSize = x.mrxSize) (hack : y.ackNext = x.ackNext) : y.armed := by
  rwa [Session.armed, hcount, hsize, hack]

/-- At the start of a receive from ACK, NACK is armed if the first byte is the last (rule R120, V5). -/
theorem armed_of_start {y : Session} {n : Nat} (hn : n ≠ 0) (hcount : y.mrxCount = 0) (hsize : y.mrxSize = n)
    (hack : y.ackNext = if n = 1 then .nack else .ack) : y.armed := by
  rw [Session.armed, hcount, hsize, hack]
  refine ⟨Nat.pos_of_ne_zero hn, ?_⟩
  by_cases hone : n = 1
  · simp [hone]
  · rw [if_neg hone]
    exact iff_of_false nofun (by omega)

/-- Arming NACK for a receive of one byte changes nothing where it is armed already (rule R122). -/
theorem nack_if_single_of_armed {x : Session} (hx : x.armed) :
    (if x.mrxSize = 1 then .nack else x.ackNext) = x.ackNext := by
  obtain ⟨hroom, hnack⟩ := hx
  by_cases hone : x.mrxSize = 1
  · rw [if_pos hone, hnack.2 (by omega)]
  · rw [if_neg hone]

/-- With two bytes or more to come after this one, ACK stays armed. -/
theorem armed_received {x : Session} (b : Byte) (hx : x.armed) (hmore : x.mrxCount + 1 < x.mrxSize - 1) :
    (x.received b).armed := by
  obtain ⟨-, hnack⟩ := hx
  have hack : x.ackNext ≠ .nack := fun he => by have := hnack.1 he; omega
  exact ⟨show x.mrxCount + 1 < x.mrxSize by omega,
    iff_of_false hack (show x.mrxCount + 1 + 1 ≠ x.mrxSize by omega)⟩

/-- With one byte to come after this one, arming NACK is what the law asks for. -/
theorem armed_nackArmed_received {x : Session} (b : Byte) (hnext : x.mrxCount + 1 = x.mrxSize - 1)
    (hmore : x.mrxCount + 1 < x.mrxSize) : (x.received b).nackArmed.armed :=
  ⟨hmore, iff_of_true rfl (show x.mrxCount + 1 + 1 = x.mrxSize by omega)⟩

/-- RX.MRX while bytes are left keeps the session armed, in the same status (rule R123). -/
theorem rxMrx_keeps_armed {h : Handle} {s : State} {x : Session} (hx : s.session? h = some x) (harmed : x.armed)
    (hfit : fitsCounter s.params (x.mrxCount + 1) = true) (hmore : x.mrxCount + 1 < x.mrxSize) :
    ∃ t y, exec (.rxMrx h) s = .next t ∧ t.session? h = some y ∧ y.armed ∧ y.status = x.status := by
  obtain ⟨hroom, -⟩ := id harmed
  by_cases hnext : x.mrxCount + 1 = x.mrxSize - 1
  · obtain ⟨t, hexec, hy, -⟩ := rxMrx_arms_nack hx hroom hfit hnext
    exact ⟨t, _, hexec, hy, armed_nackArmed_received _ hnext hmore, rfl⟩
  · have hlater : x.mrxCount + 1 < x.mrxSize - 1 := by omega
    obtain ⟨t, hexec, hy, -⟩ := rxMrx_before_nack hx hroom hfit hlater
    exact ⟨t, _, hexec, hy, armed_received _ harmed hlater, rfl⟩

/-- Settles O33: armed at the start (V5), kept by both handlers before the data phase and by RX.MRX while bytes are left;
the last byte re-arms ACK. -/
theorem nackArmedExactlyOnLastByte : Obligations.NackArmedExactlyOnLastByte := by
  refine ⟨fun h a n s x hx ha hfit hn hack => ?start, fun h s x hx harmed i hi => ?address,
    fun h s x hx harmed hfit => ?data⟩
  case start =>
    obtain ⟨t, hexec, hy, -⟩ := masterReceive_hands hx ha hfit hn
    exact ⟨t, _, hexec, hy, armed_of_start hn rfl rfl (by rw [hack])⟩
  case address =>
    obtain rfl | rfl : i = .sbMrxStartSent h ∨ i = .addrMrxAddrAcked h := by simpa using hi
    · obtain ⟨-, -, hleaves⟩ := startSentWritesAddressByte
      obtain ⟨-, t, hexec, hy, -⟩ := hleaves h s x hx
      exact ⟨t, _, hexec, hy, armed_of_fields harmed rfl rfl rfl⟩
    · obtain ⟨t, hexec, hy, -⟩ := addrMrxAddrAcked_leaves hx
      exact ⟨t, _, hexec, hy, armed_of_fields harmed rfl rfl (nack_if_single_of_armed harmed)⟩
  case data =>
    obtain ⟨hroom, -⟩ := id harmed
    by_cases hlast : x.mrxCount + 1 = x.mrxSize
    · obtain ⟨t, hexec, hy, -⟩ := rxMrx_last hx hroom hfit hlast
      exact ⟨t, _, hexec, hy, fun hmore => absurd hlast hmore.ne, fun _ => ⟨rfl, rfl⟩⟩
    · obtain ⟨t, y, hexec, hy, hkeeps⟩ := rxMrx_keeps_armed hx harmed hfit (by omega)
      exact ⟨t, y, hexec, hy, fun _ => hkeeps, fun he => absurd he hlast⟩

end Sys2Proof.Machine

/-! PROOFS. The statements of 44_slave.md: ADDR.Idle (O34), STOP.SRX (O36), TXE.STX inside its buffer, beyond it and
without one (O37), and SetSlaveTransmitBuffer (O38). RX.SRX (O35) stands with the ring. -/

namespace Sys2Proof.Machine

/-! ### ADDR.Idle -/

/-- The direction presented decides the role; the flag is cleared in both (rule R130). -/
theorem addrIdle_leaves {h : Handle} {s : State} {x : Session} (hx : s.session? h = some x) :
    Leaves h s (exec (.addrIdle h) s) (addressMatched (s.focus h x)).session ((s.port h).clear .addr) s.irqPhase := by
  obtain ⟨hport, hdraws, hirq⟩ := addressMatched_frame (s.focus h x)
  rw [exec, execAddrIdle]
  exact leaves_of_effect hx rfl rfl hport hirq hdraws

/-- Settles O34: `addressMatched_session` at the direction presented. -/
theorem addressMatchEntersSlaveRole : Obligations.AddressMatchEntersSlaveRole := by
  refine ⟨hasRow_dispatchInstr (st := .idle) (e := .addr) (fun _ => rfl) fun _ => rfl, fun h s x hx => ?_⟩
  have hleaves := addrIdle_leaves hx
  rw [addressMatched_session, focus_port, focus_session] at hleaves
  refine ⟨fun hreceive => ?_, fun htransmit => ?_⟩
  · rwa [hreceive, if_pos rfl] at hleaves
  · rwa [htransmit, if_neg (by decide)] at hleaves

/-! ### STOP.SRX -/

/-- Settles O36: the flag is cleared, then the callback is called, then the status is written. -/
theorem stopEndsSlaveReceive : Obligations.StopEndsSlaveReceive := by
  refine ⟨hasRow_dispatchInstr (st := .srx) (e := .stop) (fun _ => rfl) fun _ => rfl, fun h s x hx => ?_⟩
  rw [exec, execStopSrx]
  exact leaves_of_effect hx rfl rfl rfl rfl rfl

/-! ### TXE.STX -/

/-- The session after a byte was written to the interface and counted in `stxCount` (rule R133). -/
def Session.slaveSent (x : Session) (b : Byte) : Session :=
  { x with stxCount := x.stxCount + 1, trace := x.trace ++ [.w b] }

section SlaveTransmit

variable {p : Params} {f : Focus} {bytes : List Byte} (hbuf : f.session.stxBuffer = some (Memory.ofBytes bytes))
  (hfit : fitsCounter p (f.session.stxCount + 1) = true)

include hbuf

theorem stx_cell_of_buffer : f.session.cell .stx f.session.stxCount = bytes[f.session.stxCount]? := by
  simp [Session.cell, Session.space, hbuf]

include hfit

/-- Inside the buffer the byte written is the buffer's own, and nothing is drawn. -/
theorem slaveTransmitNext_inside {b : Byte} (hb : bytes[f.session.stxCount]? = some b) :
    slaveTransmitNext p f = .next { f with session := f.session.slaveSent b } := by
  have hinside : f.session.stxCount < (Memory.ofBytes bytes).length := by
    rw [Memory.length_ofBytes]
    exact (List.getElem?_eq_some_iff.1 hb).1
  rw [slaveTransmitNext_set hbuf, if_pos hinside, memRead_of_cell ((stx_cell_of_buffer hbuf).trans hb)]
  exact if_pos hfit

/-- Beyond its end the byte written is drawn. -/
theorem slaveTransmitNext_beyond (hend : bytes.length ≤ f.session.stxCount) :
    slaveTransmitNext p f = .next { f.drawByte.2 with session := f.session.slaveSent f.drawByte.1 } := by
  have hbeyond : ¬ f.session.stxCount < (Memory.ofBytes bytes).length := by
    rw [Memory.length_ofBytes]
    exact hend.not_gt
  rw [slaveTransmitNext_set hbuf, if_neg hbeyond]
  exact if_pos hfit

end SlaveTransmit

/-- Settles O37: without a buffer, inside it, and beyond its end, where the byte is the one drawn. -/
theorem slaveTransmitNextByte : Obligations.SlaveTransmitNextByte := by
  refine ⟨hasRow_dispatchInstr (st := .stx) (e := .txe) (fun _ => rfl) fun _ => rfl, fun h s x hx =>
    ⟨fun hunset => ?unset, fun bytes hbuf hfit => ⟨fun b hb => ?inside, fun hend => ?beyond⟩⟩⟩
  case unset => exact leaves_of_effect hx (slaveTransmitNext_unset hunset) rfl rfl rfl rfl
  case inside =>
    exact leaves_of_effect hx (slaveTransmitNext_inside (f := s.focus h x) hbuf hfit hb) rfl rfl rfl rfl
  case beyond =>
    have hact := slaveTransmitNext_beyond (f := s.focus h x) hbuf hfit hend
    exact ⟨_, _, onSession_of_next hx hact, session?_put_same _ _ _, port_put_same _ _ _, rfl, rfl,
      (sameElsewhere_put s h _ none).2⟩

/-! ### SetSlaveTransmitBuffer -/

/-- Settles O38: the command's one micro-step, and nothing for the host. -/
theorem setSlaveTransmitBufferInstalls : Obligations.SetSlaveTransmitBufferInstalls := by
  intro h bytes s
  refine ⟨fun x hx => ?run, fun hdead => ?dead, rfl, decode_encode (i := .setSlaveTransmitBuffer h bytes) rfl⟩
  case run =>
    obtain ⟨hport, hdraws, hirq⟩ := runMicros_frame (slaveBufferMicros bytes) (s.focus h x)
    rw [exec, execSetSlaveTransmitBuffer, onSession_live hx]
    exact hands_of_put (runMicros_slaveBuffer bytes _) hport hirq hdraws
  case dead => rw [exec, execSetSlaveTransmitBuffer, onSession_dead hdead, returning]

end Sys2Proof.Machine

/-! PROOFS. The statements of 45_nack_abort.md: the six aborts of a master transfer (O40), and NACK.STX (O39). -/

namespace Sys2Proof.Machine

/-! ### The aborts of a master transfer -/

/-- What an operation leaves that aborts a master transfer, whatever `P_NACK_MASTER_STOP` is (rules R142 to R147, R196):
the port without NACK, and the session of `masterAbort_session`. -/
theorem masterAbort_leaves {h : Handle} {s : State} {x : Session} {i : Instr} {c : CallbackName}
    (hx : s.session? h = some x)
    (habort : exec i s = onSession h s fun f => .next (masterAbort s.params c f)) :
    Leaves h s (exec i s)
      { x with status := .idle
               stretch := if s.params.nackMasterStop then .on else x.stretch
               trace := x.trace ++ ([.clr .nack] ++ (if s.params.nackMasterStop then [.stop, .stretchOn] else [])) ++
                 callItems x.callbacks c }
      ((s.port h).clear .nack) s.irqPhase := by
  obtain ⟨hport, hdraws, hirq⟩ := masterAbort_frame s.params c (s.focus h x)
  rw [habort]
  exact leaves_of_effect hx rfl (masterAbort_session s.params c _) hport hirq hdraws

/-- Settles O40: the rows, and each role's three handlers as the abort with its callback, where the parameter is false and
nothing is restored (decision D11). -/
theorem nackAbortsMasterTransfer : Obligations.NackAbortsMasterTransfer := by
  refine ⟨hasRow_dispatchInstr (st := .mtxStartSent) (e := .nack) (fun _ => rfl) fun _ => rfl,
    hasRow_dispatchInstr (st := .mtxAddrAcked) (e := .nack) (fun _ => rfl) fun _ => rfl,
    hasRow_dispatchInstr (st := .mtx) (e := .nack) (fun _ => rfl) fun _ => rfl,
    hasRow_dispatchInstr (st := .mrxStartSent) (e := .nack) (fun _ => rfl) fun _ => rfl,
    hasRow_dispatchInstr (st := .mrxAddrAcked) (e := .nack) (fun _ => rfl) fun _ => rfl,
    hasRow_dispatchInstr (st := .mrx) (e := .nack) (fun _ => rfl) fun _ => rfl,
    fun h s x hx hp => ?_⟩
  have hleaves {c : CallbackName} {i : Instr}
      (habort : exec i s = onSession h s fun f => .next (masterAbort s.params c f)) :
      Leaves h s (exec i s) { x with status := .idle, trace := x.trace ++ [.clr .nack] ++ callItems x.callbacks c }
        ((s.port h).clear .nack) s.irqPhase := by
    simpa [hp] using masterAbort_leaves hx habort
  refine ⟨fun i hi => ?transmit, fun i hi => ?receive⟩
  case transmit =>
    obtain rfl | rfl | rfl : i = .nackMtxStartSent h ∨ i = .nackMtxAddrAcked h ∨ i = .nackMtx h := by simpa using hi
    all_goals exact hleaves rfl
  case receive =>
    obtain rfl | rfl | rfl : i = .nackMrxStartSent h ∨ i = .nackMrxAddrAcked h ∨ i = .nackMrx h := by simpa using hi
    all_goals exact hleaves rfl

/-! ### NACK.STX -/

/-- Settles O39: the flag is cleared, the zero byte is written without being counted, then the callback is called, then the
status is written. -/
theorem nackEndsSlaveTransmit : Obligations.NackEndsSlaveTransmit := by
  refine ⟨hasRow_dispatchInstr (st := .stx) (e := .nack) (fun _ => rfl) fun _ => rfl, fun h s x hx => ?_⟩
  rw [exec, execNackStx]
  exact leaves_of_effect hx rfl (by simp) rfl rfl rfl

end Sys2Proof.Machine

/-! PROOFS. The statements of 46_session_registry.md: CreateSession (O17) and DestroySession (O19), the two in a row (O21),
and dead handles (O20). -/

namespace Sys2Proof.Machine

/-! ### CreateSession -/

/-- The session CreateSession leaves (rule R150): the fresh session, with its three interface commands on the trace. -/
def newSession (p : Params) (cap : Nat) (cbs : Callbacks) (k : Nat) : Session :=
  { freshSession p cap cbs k with trace := [.pen, .stretchOn, .ackNext] }

/-- What CreateSession leaves where there was no session: the new session and the draws it took; the port and the core are
as they were. -/
def State.creation (s : State) (id : Handle) (cap : Nat) (cbs : Callbacks) : Focus :=
  { session := newSession s.params cap cbs s.draws, port := s.port id, draws := s.draws + creationDraws,
    irqPhase := s.irqPhase }

theorem newSession_cell_ring (p : Params) (cap : Nat) (cbs : Callbacks) (k i : Nat) :
    (newSession p cap cbs k).cell .ring i = if i < cap then some 0x00#8 else none :=
  Memory.read_zeros cap i

section Create

variable {id : Handle} {cap : Nat} {cbs : Callbacks} {s : State}

theorem createSession_invalid (hid : id ∉ s.params.periphIds) :
    exec (.createSession id cap cbs) s = .next (s.withResult (some (.error .invalidPeripheral))) := by
  simp [exec, execCreateSession, hid, raiseError]

theorem createSession_occupied {x : Session} (hid : id ∈ s.params.periphIds) (hx : s.session? id = some x) :
    exec (.createSession id cap cbs) s = .refused (.slotOccupied id) := by
  simp [exec, execCreateSession, hid, hx]

theorem createSession_zero (hid : id ∈ s.params.periphIds) (hfree : s.session? id = none) :
    exec (.createSession id 0 cbs) s = .refused .zeroCapacity := by
  simp [exec, execCreateSession, hid, hfree]

theorem createSession_of_fits (hid : id ∈ s.params.periphIds) (hfree : s.session? id = none) (hcap : cap ≠ 0)
    (hfit : fitsCounter s.params cap = true) :
    exec (.createSession id cap cbs) s = .next ((s.put id (s.creation id cap cbs)).withResult (some (.handle id))) := by
  simp only [exec, execCreateSession, if_pos hid, hfree, if_neg hcap, if_pos hfit]
  rfl

/-- Where CreateSession completes on an unset slot, the session and the result it leaves depend on nothing of the state but
the parameters and the draw counter. -/
theorem createSession_free_next {t : State} (hfree : s.session? id = none)
    (hn : exec (.createSession id cap cbs) s = .next t) :
    t.session? id = (if id ∈ s.params.periphIds then some (newSession s.params cap cbs s.draws) else none) ∧
    t.result = some (if id ∈ s.params.periphIds then .handle id else .error .invalidPeripheral) := by
  by_cases hid : id ∈ s.params.periphIds
  · simp only [if_pos hid]
    rcases eq_or_ne cap 0 with rfl | hcap
    · rw [createSession_zero hid hfree] at hn; cases hn
    · cases hfit : fitsCounter s.params cap with
      | false => rw [createSession_refuses_counterWidth hid hfree hcap hfit] at hn; cases hn
      | true =>
        rw [createSession_of_fits hid hfree hcap hfit] at hn
        cases hn
        exact ⟨session?_put_same s id _, rfl⟩
  · simp only [if_neg hid]
    rw [createSession_invalid hid] at hn
    cases hn
    exact ⟨hfree, rfl⟩

end Create

/-- Settles O17: the operation takes exactly one of the branches identifier, slot, capacity; on the last it puts
`newSession`, whose fields are read off. -/
theorem createSessionMakesFreshSession : Obligations.CreateSessionMakesFreshSession := by
  refine ⟨?created, fun id cap cbs s hid => createSession_invalid hid,
    fun id cap cbs s x hid hx => createSession_occupied hid hx,
    fun id cbs s hid hfree => createSession_zero hid hfree, fun id cap cbs => rfl⟩
  intro id cap cbs s hid hfree hcap hfit
  exact ⟨_, newSession s.params cap cbs s.draws, createSession_of_fits hid hfree (Nat.one_le_iff_ne_zero.1 hcap) hfit,
    session?_put_same s id _, rfl, rfl, rfl, newSession_cell_ring _ _ _ _, rfl, rfl, rfl, rfl, rfl, rfl, rfl, rfl, rfl,
    port_put_same s id _, rfl, (sameElsewhere_put s id _ _).1⟩

/-! ### DestroySession -/

theorem destroySession_live {h : Handle} {s : State} {x : Session} (hx : s.session? h = some x) :
    exec (.destroySession h) s = .next ((s.closeSession h (x.trace ++ [.pdis])).withResult none) := by
  simp [exec, execDestroySession, hx]

theorem destroySession_dead {h : Handle} {s : State} (hdead : s.session? h = none) :
    exec (.destroySession h) s = .refused (.deadHandle h) := by
  simp [exec, execDestroySession, hdead]

/-- DestroySession leaves an unset slot, and everything else that CreateSession reads for its session as it was. -/
theorem destroySession_frees {h : Handle} {s t : State} (hn : exec (.destroySession h) s = .next t) :
    t.session? h = none ∧ t.params = s.params ∧ t.draws = s.draws := by
  cases hx : s.session? h with
  | none => rw [destroySession_dead hx] at hn; cases hn
  | some x =>
    rw [destroySession_live hx] at hn
    cases hn
    exact ⟨session?_closeSession_same s h (x.trace ++ [.pdis]), rfl, rfl⟩

/-- Settles O19: the whole next state is `State.closeSession`, which erases one slot and closes one trace. -/
theorem destroySessionReleasesSlot : Obligations.DestroySessionReleasesSlot := by
  refine fun h s => ⟨fun x hx => ?_, destroySession_dead, rfl⟩
  exact ⟨_, destroySession_live hx, session?_closeSession_same s h (x.trace ++ [.pdis]), rfl, rfl,
    fun h' hne => session?_closeSession_ne s (x.trace ++ [.pdis]) hne, fun h' => rfl, rfl, rfl, rfl, rfl, rfl⟩

/-! ### Destroying and creating again -/

/-- Settles O21: on the slot that DestroySession frees, the session and the result of CreateSession come from the
parameters and the draw counter alone. -/
theorem recreationGivesFreshSession : Obligations.RecreationGivesFreshSession := by
  refine ⟨fun h cap cbs s x hx hid hcap hfit => ?fresh,
    fun h cap cbs s s' t t' u u' hparams hdraws ht ht' hu hu' => ?same⟩
  case fresh =>
    have hdestroy := destroySession_live hx
    obtain ⟨hfree, -, -⟩ := destroySession_frees hdestroy
    exact ⟨_, _, newSession s.params cap cbs s.draws, hdestroy,
      createSession_of_fits hid hfree (Nat.one_le_iff_ne_zero.1 hcap) hfit, session?_put_same _ h _, rfl, rfl, rfl,
      newSession_cell_ring _ _ _ _, rfl, rfl, rfl, rfl, rfl, rfl, rfl⟩
  case same =>
    obtain ⟨hfree, hp, hk⟩ := destroySession_frees ht
    obtain ⟨hfree', hp', hk'⟩ := destroySession_frees ht'
    obtain ⟨hsession, hresult⟩ := createSession_free_next hfree hu
    obtain ⟨hsession', hresult'⟩ := createSession_free_next hfree' hu'
    rw [hsession, hresult, hsession', hresult', hp, hk, hp', hk', hparams, hdraws]
    exact ⟨rfl, rfl⟩

/-! ### Dead handles -/

theorem pop_dead {h : Handle} {s : State} (hdead : s.session? h = none) :
    exec (.pop h) s = .refused (.deadHandle h) := by
  simp [exec, execPop, hdead]

theorem setSlaveTransmitBuffer_dead {h : Handle} {s : State} (hdead : s.session? h = none)
    (buf : Option (List Byte)) : exec (.setSlaveTransmitBuffer h buf) s = .refused (.deadHandle h) := by
  rw [exec, execSetSlaveTransmitBuffer, onSession_dead hdead, returning]

/-- A command other than CreateSession needs a live session (rule R152). -/
theorem command_dead {i : Instr} {s : State} (hcmd : ∀ h w, encode i ≠ .dsp h w)
    (hc : ∀ id cap cbs, i ≠ .createSession id cap cbs) (hdead : s.session? i.handle = none) :
    exec i s = .refused (.deadHandle i.handle) := by
  cases i
  case createSession => exact absurd rfl (hc _ _ _)
  case destroySession => exact destroySession_dead hdead
  case masterTransmit => exact transfer_dead hdead _ _ _
  case masterReceive => exact transfer_dead hdead _ _ _
  case pop => exact pop_dead hdead
  case onInterrupt => exact exec_onInterrupt_dead hdead
  case setSlaveTransmitBuffer => exact setSlaveTransmitBuffer_dead hdead _
  all_goals exact absurd rfl (hcmd _ _)

/-- A dispatch that has a meaning needs a live session (rule R152), and the others are refused in every state (rule R103). -/
theorem dispatch_dead {i : Instr} {s : State} (hdsp : ∃ h w, encode i = .dsp h w)
    (hdead : s.session? i.handle = none) : ∃ r, exec i s = .refused r := by
  obtain ⟨h0, w0, hdsp⟩ := hdsp
  cases i
  case createSession | destroySession | masterTransmit | masterReceive | pop | onInterrupt | setSlaveTransmitBuffer =>
    cases hdsp
  case irqNone h => exact ⟨.deadHandle h, by simp [exec, execIrqNone, show s.session? h = none from hdead]⟩
  case addrIdle | nackMtxStartSent | sbMtxStartSent | nackMtxAddrAcked | addrMtxAddrAcked | nackMtx | txeMtx | rxSrx |
      stopSrx | nackMrxStartSent | sbMrxStartSent | nackMrxAddrAcked | addrMrxAddrAcked | nackMrx | rxMrx | nackStx |
      txeStx =>
    simp only [exec]
    exact ⟨_, onSession_dead hdead _⟩
  all_goals exact ⟨_, rfl⟩

/-- Settles O20: an operation is a command or a dispatch, and each needs a live session. -/
theorem deadHandleRefusesEverything : Obligations.DeadHandleRefusesEverything := by
  refine ⟨fun i s hc hdead => ?_, fun h a n bytes buf s hdead i hi => ?_⟩
  · by_cases hdsp : ∃ h w, encode i = .dsp h w
    · exact dispatch_dead hdsp hdead
    · exact ⟨_, command_dead (fun h w he => hdsp ⟨h, w, he⟩) hc hdead⟩
  · obtain rfl | rfl | rfl | rfl | rfl | rfl : i = .destroySession h ∨ i = .masterTransmit h a bytes ∨
        i = .masterReceive h a n ∨ i = .pop h ∨ i = .onInterrupt h ∨ i = .setSlaveTransmitBuffer h buf := by
      simpa using hi
    all_goals exact command_dead nofun nofun hdead

end Sys2Proof.Machine

/-! PROOFS. The statements of 60_exceptions.md and 70_reset_and_hazards.md: the context rule (O11), the one error value
(O18), power-on (O1), the hang (O27), the race of a push with a Pop (O45), and the aborts with P_NACK_MASTER_STOP true
(O41). -/

namespace Sys2Proof.Machine

/-! ### The context rule -/

/-- An invocation whose word decodes to an operation not admitted in its context is refused (rule R172). -/
theorem step_of_not_admitted {s : State} {ctx : Context} {w : CmdWord} {answers : List (Handle × Port)}
    {rest : List Input} {i : Instr} (ht : nextTurn s = .invoke ctx w answers rest) (hd : decodeCommand w = .ok i)
    (ha : admitted ctx i = false) : step s = .refused .commandInInterruptContext := by
  simp [step, ht, invokeWord, hd, ha]

/-- Settles O11: in interrupt context OnInterrupt is all that is admitted, in application context everything is. -/
theorem contextRule : Obligations.ContextRule := by
  intro s w answers rest i hq hd
  refine ⟨fun hin => ⟨fun hother => ?other, fun h hi => ?onInterrupt⟩, fun hin hhost => ?application⟩
  case other =>
    have ha : admitted .interrupt i = false := by
      refine Bool.eq_false_iff.2 fun ha => ?_
      obtain ⟨h, hi⟩ := onInterrupt_of_admitted ha
      exact hother h hi
    exact step_of_not_admitted (nextTurn_of_invoke hq hin (.inl rfl)) hd ha
  case onInterrupt =>
    subst hi
    exact step_of_invoke (nextTurn_of_invoke hq hin (.inl rfl)) hd rfl
  case application => exact step_of_invoke (nextTurn_of_invoke hq hin (.inr hhost)) hd rfl

/-! ### The one error value -/

/-- A dispatch hands the host nothing: the last result stays. -/
theorem dispatch_result {i : Instr} {s t : State} (hdsp : ∃ h w, encode i = .dsp h w) (hn : exec i s = .next t) :
    t.result = s.result := by
  cases hx : s.session? i.handle with
  | none =>
    obtain ⟨r, hr⟩ := dispatch_dead hdsp hx
    cases hr.symm.trans hn
  | some x =>
    obtain ⟨y, -, -, -, -, -, hresult, -⟩ := exec_handler_next hdsp hn hx
    exact hresult

theorem onInterrupt_result {h : Handle} {s t : State} (hn : exec (.onInterrupt h) s = .next t) :
    t.result = s.result := by
  cases hx : s.session? h with
  | none => rw [exec_onInterrupt_dead hx] at hn; cases hn
  | some x =>
    cases hsel : selectEvent (s.port h).flags with
    | none => rw [exec_onInterrupt_of_none hx hsel] at hn; cases hn; rfl
    | some e =>
      rw [exec_onInterrupt_of_some hx hsel] at hn
      exact dispatch_result (encode_dispatchInstr x.status e h) hn

theorem transfer_result {h : Handle} {a n : Nat} {todo : List Micro} {s t : State}
    (hn : transfer h a n todo s = .next t) : t.result = none := by
  obtain ⟨x, -, -, ⟨-, rfl⟩ | ⟨-, rfl⟩⟩ := transfer_next hn <;> rfl

theorem pop_result {h : Handle} {s t : State} (hn : exec (.pop h) s = .next t) :
    ∃ valid b, t.result = some (.popped valid b) := by
  obtain ⟨x, -, ⟨-, rfl⟩ | ⟨-, b, f, -, rfl⟩⟩ := pop_next hn
  · exact ⟨_, _, rfl⟩
  · exact ⟨_, _, rfl⟩

theorem destroySession_result {h : Handle} {s t : State} (hn : exec (.destroySession h) s = .next t) :
    t.result = none := by
  cases hx : s.session? h with
  | none => rw [destroySession_dead hx] at hn; cases hn
  | some x => rw [destroySession_live hx] at hn; cases hn; rfl

theorem createSession_result {id : Handle} {cap : Nat} {cbs : Callbacks} {s t : State}
    (hn : exec (.createSession id cap cbs) s = .next t) :
    t.result = some (if id ∈ s.params.periphIds then .handle id else .error .invalidPeripheral) := by
  by_cases hid : id ∈ s.params.periphIds
  · cases hx : s.session? id with
    | none => exact (createSession_free_next hx hn).2
    | some x => rw [createSession_occupied hid hx] at hn; cases hn
  · rw [createSession_invalid hid] at hn
    cases hn
    rw [if_neg hid]
    rfl

/-- Only CreateSession on an unknown identifier returns an error (rules R160, R161): any other error found in the next
state is the last result, which OnInterrupt and the dispatches leave. -/
theorem exec_error_result {i : Instr} {s t : State} {e : HostError} (hn : exec i s = .next t)
    (he : t.result = some (.error e)) :
    t.result = s.result ∨ (e = .invalidPeripheral ∧ ∃ cap cbs, i = .createSession i.handle cap cbs ∧
      i.handle ∉ s.params.periphIds) := by
  have none_absurd (h : t.result = none) : False := nomatch h.symm.trans he
  cases i
  case createSession id cap cbs =>
    rw [createSession_result hn] at he
    split at he <;> cases he
    exact .inr ⟨rfl, cap, cbs, rfl, by assumption⟩
  case destroySession => exact (none_absurd (destroySession_result hn)).elim
  case masterTransmit => exact (none_absurd (transfer_result hn)).elim
  case masterReceive => exact (none_absurd (transfer_result hn)).elim
  case pop =>
    obtain ⟨valid, b, hr⟩ := pop_result hn
    cases hr.symm.trans he
  case onInterrupt => exact .inl (onInterrupt_result hn)
  case setSlaveTransmitBuffer =>
    obtain ⟨u, -, rfl⟩ := returning_next hn
    cases he
  all_goals exact .inl (dispatch_result ⟨_, _, rfl⟩ hn)

/-- Settles O18, by the branch of CreateSession on the identifier and `exec_error_result`. -/
theorem invalidPeripheralIsAReturnValue : Obligations.InvalidPeripheralIsAReturnValue :=
  ⟨fun _ _ _ _ => createSession_invalid, rfl, fun _ _ _ _ => exec_error_result⟩

/-! ### Power-on -/

/-- Settles O1: the registry is empty, and with an empty script and no command in progress nothing moves. -/
theorem powerOnRegistryEmpty : Obligations.PowerOnRegistryEmpty :=
  ⟨fun _ => rfl, rfl, step_of_idle rfl⟩

/-! ### The hang -/

/-- The script holds no environment action exactly when none is found in it. -/
theorem firstEnvironment_eq_none {l : List Input} :
    firstEnvironment l = none ↔ ∀ i ∈ l, ∀ h p, i ≠ .environment h p := by
  induction l with
  | nil => simp [firstEnvironment]
  | cons i l ih =>
    rw [List.forall_mem_cons, ← ih]
    cases i with
    | environment h p => simp [firstEnvironment]
    | invoke | begin | micro =>
      simp only [firstEnvironment]
      cases firstEnvironment l <;> simp

/-- At a held handler nothing can move exactly when TC is not presented and the script holds no environment action
(rules R114, R205). -/
theorem nextTurn_eq_idle_of_spinTC {h : Handle} {s : State} (hq : s.irqPhase = .spinTC h) :
    nextTurn s = .idle ↔ (s.port h).tc = false ∧ firstEnvironment s.inputs = none := by
  simp only [nextTurn, hq]
  cases (s.port h).tc with
  | true => simp
  | false => cases firstEnvironment s.inputs <;> simp

theorem hung_iff {h : Handle} {s : State} (hq : s.irqPhase = .spinTC h) :
    s.hung ↔ (s.port h).tc = false ∧ ∀ i ∈ s.inputs, ∀ h' p, i ≠ .environment h' p := by
  have hheld : s.irqPhase ≠ .notInIrq := by simp [hq]
  rw [State.hung, and_iff_right hheld, nextTurn_eq_idle_of_spinTC hq, firstEnvironment_eq_none]

/-- A run of any length stays in a state that a step leaves as it is. -/
theorem run_of_fixed (M : Host.Core) {s : M.State} (hstep : M.step s = .next s) (n : Nat) : M.run n s = .next s := by
  induction n with
  | zero => rfl
  | succ n ih => rw [Host.Core.run, hstep]; exact ih

/-- Settles O27: a hang is a held handler at which nothing can move, so each step leaves it where it is. -/
theorem hangNeverEnds : Obligations.HangNeverEnds :=
  fun _ _ hq => ⟨hung_iff hq, fun ⟨_, hidle⟩ => run_of_fixed Sys2Proof.core (step_of_idle hidle)⟩

/-! ### A push inside a Pop -/

/-- The unread bytes and then a byte pushed: the oldest unread byte, and then the cells behind `writeIndex` after the
push, as many as were unread before it (rules R90, R92). -/
theorem unread_append_of_push {x : Session} (hok : x.Ok) (hu : 1 ≤ x.unreadCount) (d : Byte) :
    x.unread ++ [some d] = x.cell .ring (x.oldestIndex x.unreadCount) :: (x.push d).recent x.unreadCount := by
  obtain ⟨-, -, hindex, hle, -⟩ := hok
  obtain ⟨k, hk⟩ := Nat.exists_eq_add_of_le' hu
  rw [unread_eq_recent, hk, recent_succ, push_recent hindex d (by omega), List.cons_append]

/-- The last `u` cells are the one P2 reads with the count `u`, and what P3 leaves unread (rule R91). -/
theorem recent_eq_cons {x : Session} {u : Nat} {b : Byte} (hu : 1 ≤ u)
    (hb : x.cell .ring (x.oldestIndex u) = some b) :
    x.recent u = some b :: Session.unread { x with unreadCount := u - 1 } := by
  obtain ⟨k, rfl⟩ := Nat.exists_eq_add_of_le' hu
  rw [recent_succ, hb]
  rfl

/-- Settles O45: in both gaps the Pop leaves unread the last `u - 1` cells after the push, `u` the count before it
(`unread_append_of_push`). A P2 after the push reads the byte just before these; a P2 before it has read the byte before
that, which the push may then overwrite. -/
theorem popRaceLosesOneByte : Obligations.PopRaceLosesOneByte := by
  rintro h s x d hx hok hu hh rfl
  let s1 := s.withHost (some (.popRead h x.unreadCount))
  have hP1 : microStep s = .next s1 := by
    rw [microStep_popCount hx hh, if_neg (Nat.one_le_iff_ne_zero.1 hu)]
  have hunread := unread_append_of_push hok hu (s.port h).data
  obtain ⟨c, hc⟩ := exists_oldest_cell (push_ok hok (s.port h).data) x.unreadCount
  have hlast := recent_eq_cons hu hc
  refine ⟨?pushBeforeP2, ?pushAfterP2⟩
  case pushBeforeP2 =>
    obtain ⟨s2, hpush, hy, -, -, hframe, -⟩ := rxSrx_leaves (s := s1) hx
    obtain ⟨-, -, hhost, -, -⟩ := hframe
    have hP2 := microStep_popRead hy hhost hc
    refine ⟨s1, s2, _, _, _, c, hP1, hpush, hP2, microStep_popFinish (session?_put_same s2 h _) rfl, rfl, rfl,
      session?_put_same _ h _, ?_⟩
    rw [hunread, List.tail_cons, hlast]
    rfl
  case pushAfterP2 =>
    obtain ⟨b, hb⟩ := exists_oldest_cell hok x.unreadCount
    let s2 := (s1.put h (s1.focus h x)).withHost (some (.popFinish h x.unreadCount b))
    have hP2 : microStep s1 = .next s2 := microStep_popRead hx rfl hb
    obtain ⟨s3, hpush, hy, -, -, hframe, -⟩ := rxSrx_leaves (s := s2) (session?_put_same s1 h (s1.focus h x))
    have hdata : (s2.port h).data = (s.port h).data := congrArg Port.data (port_put_same s1 h (s1.focus h x))
    rw [hdata] at hy
    obtain ⟨-, -, hhost, -, -⟩ := hframe
    refine ⟨s1, s2, s3, _, _, b, some c, hP1, hP2, hpush, microStep_popFinish hy hhost, rfl, rfl,
      session?_put_same s3 h _, ?_⟩
    rw [hunread, hb, hlast]
    rfl

/-! ### The aborts that restore stretching -/

/-- Settles O41: the six handlers are the abort with their role's callback, which restores stretching where the parameter
is true. -/
theorem nackAbortCanRestoreStretching : Obligations.NackAbortCanRestoreStretching := by
  intro h s x hx hp i hi
  have hleaves {c : CallbackName} {i : Instr}
      (habort : exec i s = onSession h s fun f => .next (masterAbort s.params c f)) :
      Leaves h s (exec i s)
        { x with status := .idle, stretch := .on,
                 trace := x.trace ++ [.clr .nack, .stop, .stretchOn] ++ callItems x.callbacks c }
        ((s.port h).clear .nack) s.irqPhase := by
    simpa [hp] using masterAbort_leaves hx habort
  simp only [List.mem_cons, List.not_mem_nil, or_false] at hi
  obtain rfl | rfl | rfl | rfl | rfl | rfl := hi
  all_goals exact hleaves rfl

end Sys2Proof.Machine
